-- ==== Sys2Proof/Word.lean ====
section
/-! DEFINITION. The word types of WBGF and the two plainest operations on them (`00_scope.md` R9: bit 0 is the
least significant bit, every integer is unsigned). -/

namespace Sys2Proof

/-- A byte; as a field element its bit `i` is the coefficient of `z^i` (R9, R85). -/
abbrev Byte := BitVec 8

/-- A 32-bit word: a command word, a control register, `RDATA` (R41, R65). -/
abbrev Word := BitVec 32

/-- A modulus of the field: a 9-bit value, bit `j` the coefficient of `z^j` (R86). -/
abbrev Modulus := BitVec 9

/-- A polynomial over GF(2^8): element `i` is the coefficient of `x^i`; canonical when it has no trailing zero (R105). -/
abbrev Poly := List Byte

/-- An S-box value: 256 entries in index order (R140). -/
abbrev Table := List Byte

/-- `zext_32` of a value of any width below 32 (R9). -/
abbrev zext32 {n : Nat} (v : BitVec n) : Word := v.setWidth 32

/-- An unsigned integer as a 32-bit word; every integer the spec records is far below `2^32` (R178). -/
abbrev word (n : Nat) : Word := BitVec.ofNat 32 n

end Sys2Proof
end

