-- ==== Sys2Proof/Config.lean ====
section
/-! DEFINITION. The parameters of WBGF (`00_scope.md` R8), its two constant control registers (`10_state.md` R34, R35), the
default order of the moduli (`40_field.md` R86), and the values the spec leaves unspecified
(`93_implementation_defined.md` U1, U3). -/

namespace Sys2Proof.Config

/-- Number of moduli (R8). -/
abbrev nMod : Nat := 30
/-- Largest polynomial length a register holds, `PMAX` (R8). -/
abbrev pMax : Nat := 32
/-- Bytes of local memory, `MEMSIZE` (R8). -/
abbrev memSize : Nat := 32768
/-- Mix records in memory, `NMIXREC` (R8). -/
abbrev nMixRec : Nat := 1024
/-- Entries of an S-box, `SBOXLEN` (R8). -/
abbrev sboxLen : Nat := 256
/-- Lanes of a set and of a mix layer, `LANES` (R8). -/
abbrev lanes : Nat := 16

/-- Control register 0, a constant: the letters WBG and command set version 1 (R34). -/
def idReg : Word := 0x57424701#32
/-- Control register 1, a constant: PMAX, NMOD, log2 MEMSIZE, NPREG, NBREG (R35). -/
def capReg : Word := 0x108F1E20#32

/-- The default order of the moduli: ascending numeric value (R86). `MODTAB` itself is an OPEN parameter, so a state carries
its own table; this is the one `State.reset` carries (assumption log 2). -/
def defaultModtab : Vector Modulus nMod := #v[
  0x11B#9, 0x11D#9, 0x12B#9, 0x12D#9, 0x139#9, 0x13F#9, 0x14D#9, 0x15F#9, 0x163#9, 0x165#9,
  0x169#9, 0x171#9, 0x177#9, 0x17B#9, 0x187#9, 0x18B#9, 0x18D#9, 0x19F#9, 0x1A3#9, 0x1A9#9,
  0x1B1#9, 0x1BD#9, 0x1C3#9, 0x1CF#9, 0x1D7#9, 0x1DD#9, 0x1E7#9, 0x1F3#9, 0x1F5#9, 0x1F9#9]

/-- DESIGN CHOICE (assumption log 1, unsafe): what an unlisted byte of memory reads as. The spec leaves the power-up content
unspecified (R43, U1); every other content is a state whose memory lists it (`State.powerUp`). -/
abbrev unwrittenByte : Byte := 0#8

/-- The free value of U3: the byte at an address of the destination range of a command that `RESET` cuts short, for the
`n`-th such event. It has no body: nothing can be proved of it (assumption log 5). -/
opaque cutShortByte : (n address : Nat) → Byte

end Sys2Proof.Config
end

