-- ==== Sys2Proof/Syntax.lean ====
section
/-! DEFINITION. The command set of WBGF as data: one constructor per row of `spec/opcode_table.json` (`30_encoding.md` R71),
operands in the order of the assembler form (R74, destination first), each operand as wide as its field (R66).
The three pseudo-instructions of R75 are definitions over the core commands. -/

namespace Sys2Proof

/-- A byte register number: every value of a 4-bit field names one (R31, R68). -/
abbrev BReg := Fin 16
/-- A polynomial register number; field values 8 to 15 name none (R39, R68). -/
abbrev PReg := Fin 8
/-- A 15-bit byte address (R69). -/
abbrev Addr := BitVec 15
/-- A 5-bit modulus index; 30 and 31 are field values that a command using a modulus faults on (R69, R174). -/
abbrev ModIdx := Fin 32
/-- An S-box slot number (R53). -/
abbrev Slot := Fin 128
/-- An S-box set number (R54). -/
abbrev SlotSet := Fin 8
/-- A lane number of a set or of a mix layer (R54, R55). -/
abbrev Lane := Fin 16
/-- A mix record number (R55). -/
abbrev MixRec := Fin 1024
/-- A mix layer count (R66, format X). -/
abbrev LayerCount := Fin 16

/-- The direction of the lane remap: field value 0 is forward, 1 is backward (R66, R92). -/
inductive Dir where
  | fwd
  | bwd
deriving DecidableEq, Repr

/-- The control registers, numbers 0 to 4 in this order (R34 to R38, R74). -/
inductive CReg where
  | id
  | cap
  | fsr
  | fcw
  | finfo
deriving DecidableEq, Repr

/-- The 41 commands (R71). -/
inductive Instr where
  | nop
  | rdcr (cr : CReg)
  | rdb (bs : BReg)
  | mwr (addr : Addr) (imm : Byte)
  | mrd (addr : Addr)
  | ldb (bd : BReg) (addr : Addr)
  | stb (bs : BReg) (addr : Addr)
  | ldbx (bd : BReg) (addr : Addr) (bi : BReg)
  | stbx (bs : BReg) (addr : Addr) (bi : BReg)
  | fldi (bd : BReg) (imm : Byte)
  | fmov (bd ba : BReg)
  | fadd (bd ba bb : BReg)
  | fmul (bd ba bb : BReg) (m : ModIdx)
  | fdiv (bd ba bb : BReg) (m : ModIdx)
  | finv (bd ba : BReg) (m : ModIdx)
  | fred (bd ba bb : BReg) (m : ModIdx)
  | modp (m : ModIdx)
  | lane (bd ba : BReg) (dir : Dir)
  | pclr (pd : PReg)
  | pmov (pd pa : PReg)
  | pput (pd : PReg) (idx : Byte) (bs : BReg)
  | pget (bd : BReg) (pa : PReg) (idx : Byte)
  | plen (bd : BReg) (pa : PReg)
  | pld (pd : PReg) (bn : BReg) (addr : Addr)
  | pst (ps : PReg) (bn : BReg) (addr : Addr)
  | pcmp (bd : BReg) (pa pb : PReg)
  | padd (pd pa pb : PReg)
  | pshu (pd pa : PReg) (n : Byte)
  | pshd (pd pa : PReg) (n : Byte)
  | pmul (pd pa pb : PReg) (m : ModIdx)
  | pdiv (pr pq pa pb : PReg) (m : ModIdx)
  | pmonic (pd pa : PReg) (m : ModIdx)
  | pxeu (pd pa pb : PReg) (m : ModIdx)
  | sbid (sd : Slot)
  | sbchk (bd : BReg) (ss : Slot)
  | sbinv (sd ss : Slot)
  | sbcomp (sd sa sb : Slot)
  | sbpre (sd ss : Slot) (bm : BReg) (m : ModIdx)
  | sbpost (sd ss : Slot) (bm : BReg) (m : ModIdx)
  | sbinvs (td ts : SlotSet) (dir : Dir)
  | sbmix (td ts : SlotSet) (dir : Dir) (k : LayerCount) (r : MixRec)
deriving DecidableEq, Repr

/-- `FSUB bd, ba, bb` is `FADD bd, ba, bb` (R75). -/
def Instr.fsub (bd ba bb : BReg) : Instr := .fadd bd ba bb
/-- `PSUB pd, pa, pb` is `PADD pd, pa, pb` (R75). -/
def Instr.psub (pd pa pb : PReg) : Instr := .padd pd pa pb
/-- `PNEG pd, pa` is `PMOV pd, pa` (R75). -/
def Instr.pneg (pd pa : PReg) : Instr := .pmov pd pa

end Sys2Proof
end

