-- ==== Sys2Proof/Machine/Galois.lean ====
section
/-! DEFINITION. The pure functions of the field GF(2^8) and the lane remap (`40_field.md` R85 to R92). -/

namespace Sys2Proof.Machine

/-- `clmul8(a, b)`, the carry-less product: the XOR of `zext_15(a) << i` over the bits `i` that `b` has (R87). -/
def clmul8 (a b : Byte) : BitVec 15 :=
  (List.range 8).foldl (fun acc i => if b.getLsbD i then acc ^^^ (a.setWidth 15 <<< i) else acc) 0#15

/-- One pass of `gfred`: bit `i` is cleared with `zext_16(P) << (i - 8)` (R88). -/
def gfredStep (P : Modulus) (v : BitVec 16) (i : Nat) : BitVec 16 :=
  if v.getLsbD i then v ^^^ (P.setWidth 16 <<< (i - 8)) else v

/-- `gfred(v, P)`, reduction relative to the modulus: bits 15 down to 8 (R88). -/
def gfred (v : BitVec 16) (P : Modulus) : Byte :=
  ([15, 14, 13, 12, 11, 10, 9, 8].foldl (gfredStep P) v).setWidth 8

/-- `fmul(a, b, P)`, the field product (R89). -/
def fmul (a b : Byte) (P : Modulus) : Byte := gfred ((clmul8 a b).setWidth 16) P

/-- `finv(a, P)`: the byte whose product with `a` is 1, computed as `a^254`, one of the equivalent computations R90 lists;
`a^254 = a^2 · a^4 · a^8 · a^16 · a^32 · a^64 · a^128`. Every rule tests `a ≠ 0` before it calls it. -/
def finv (a : Byte) (P : Modulus) : Byte :=
  powers 7 (fmul a a P) (0x01#8)
where
  /-- `acc` times the product of `x`, `x^2`, `x^4`, ... (`n` factors). -/
  powers : Nat → Byte → Byte → Byte
    | 0, _, acc => acc
    | n + 1, x, acc => powers n (fmul x x P) (fmul acc x P)

/-- `fdiv(a, b, P)` for `b ≠ 0` (R91). -/
def fdiv (a b : Byte) (P : Modulus) : Byte := fmul a (finv b P) P

/-- `lane(dir, i)`: forward `(i + 4·(i mod 4)) mod 16`, backward `(i - 4·(i mod 4)) mod 16`, never negative (R92). -/
def laneMap : Dir → Lane → Lane
  | .fwd, i => ⟨(i.val + 4 * (i.val % 4)) % 16, by omega⟩
  | .bwd, i => ⟨(i.val + 16 - 4 * (i.val % 4)) % 16, by omega⟩

/-- The remainder of `P` on trial division by the polynomial `d` over GF(2) of degree `k` (R86). -/
def trialRem (P d : Modulus) (k : Nat) : Modulus :=
  (List.range (9 - k)).foldl (fun v j => if v.getLsbD (8 - j) then v ^^^ (d <<< (8 - j - k)) else v) P

/-- `P` has degree 8 and no divisor of degree 1 to 4 over GF(2): the irreducibility test of R86. -/
def irreducible8 (P : Modulus) : Bool :=
  P.getLsbD 8 && (List.range' 2 30).all (fun d => trialRem P (BitVec.ofNat 9 d) (Nat.log2 d) != 0)

/-- The constraint on the parameter `MODTAB`: 30 pairwise different irreducible polynomials of degree 8 (R86, D5). -/
def modtabLegal (t : Vector Modulus Config.nMod) : Bool := t.toList.all irreducible8 && decide t.toList.Nodup

end Sys2Proof.Machine
end

