-- ==== Sys2Proof/WellFormed.lean ====
section
/-! DEFINITION. Which terms of `Instr` are legal commands. The operand types already are the field widths, so two checks are
left: the destinations of `PDIV` differ (`30_encoding.md` R68), and a command that uses a modulus index names one of the 30
moduli (R69). -/

namespace Sys2Proof

/-- `PDIV` needs two different destination registers; no other command has a restriction between its operands (R68). -/
def Instr.distinctResults : Instr → Bool
  | .pdiv pr pq _ _ _ => pr != pq
  | .nop | .rdcr _ | .rdb _ | .mwr _ _ | .mrd _ | .ldb _ _ | .stb _ _ | .ldbx _ _ _ | .stbx _ _ _
  | .fldi _ _ | .fmov _ _ | .fadd _ _ _ | .fmul _ _ _ _ | .fdiv _ _ _ _ | .finv _ _ _ | .fred _ _ _ _ | .modp _ | .lane _ _ _
  | .pclr _ | .pmov _ _ | .pput _ _ _ | .pget _ _ _ | .plen _ _ | .pld _ _ _ | .pst _ _ _ | .pcmp _ _ _
  | .padd _ _ _ | .pshu _ _ _ | .pshd _ _ _ | .pmul _ _ _ _ | .pmonic _ _ _ | .pxeu _ _ _ _
  | .sbid _ | .sbchk _ _ | .sbinv _ _ | .sbcomp _ _ _ | .sbpre _ _ _ _ | .sbpost _ _ _ _ | .sbinvs _ _ _ | .sbmix _ _ _ _ _ => true

/-- The modulus index a command carries, if it uses the `m` field (the list of R174 (a)). -/
def Instr.modIdx : Instr → Option ModIdx
  | .fmul _ _ _ m | .fdiv _ _ _ m | .finv _ _ m | .fred _ _ _ m | .modp m
  | .pmul _ _ _ m | .pdiv _ _ _ _ m | .pmonic _ _ m | .pxeu _ _ _ m | .sbpre _ _ _ m | .sbpost _ _ _ m => some m
  | .nop | .rdcr _ | .rdb _ | .mwr _ _ | .mrd _ | .ldb _ _ | .stb _ _ | .ldbx _ _ _ | .stbx _ _ _
  | .fldi _ _ | .fmov _ _ | .fadd _ _ _ | .lane _ _ _
  | .pclr _ | .pmov _ _ | .pput _ _ _ | .pget _ _ _ | .plen _ _ | .pld _ _ _ | .pst _ _ _ | .pcmp _ _ _
  | .padd _ _ _ | .pshu _ _ _ | .pshd _ _ _
  | .sbid _ | .sbchk _ _ | .sbinv _ _ | .sbcomp _ _ _ | .sbinvs _ _ _ | .sbmix _ _ _ _ _ => none

/-- The modulus index, where there is one, is below 30 (R69). -/
def Instr.legalModulus (i : Instr) : Bool := i.modIdx.all (fun m => decide (m.val < 30))

/-- A legal command: one whose word passes every decode check of R70, steps 1 to 5. -/
def Instr.wellFormed (i : Instr) : Bool := i.distinctResults && i.legalModulus

end Sys2Proof
end

