-- ==== Sys2Proof/Decode.lean ====
section
/-! DEFINITION. The command word (`30_encoding.md`): the fields of the eight formats (R66), the decoder (R70 steps 1 to 4, R71),
and after it the encoder, written from the same tables. A command word is one 32-bit value that arrives whole on the `CMD`
port (R65): there is no byte order and no length to find (R57, R73). -/

namespace Sys2Proof

/-- Why a word is no legal command, in the order of priority of R179; all three raise `IllegalCommand` (R173). -/
inductive Reject where
  /-- The opcode is none of the 41 assigned values (R70 step 1). -/
  | unknownOpcode
  /-- A must-be-zero bit or a field the command does not use is not zero (R70 step 3, R67). -/
  | nonzeroUnused
  /-- A value restriction fails: a polynomial register number above 7, `PDIV` with `A = B`, `LANE` with `imm8 > 1`,
  `RDCR` with `imm8 > 4` (R70 step 4, R68). -/
  | badValue
deriving DecidableEq, Repr

/-! ### The fields of a word (R66) -/

/-- `c[31:24]`. -/
def opField (c : Word) : BitVec 8 := c.extractLsb' 24 8
/-- `A = c[23:20]` (formats R, I, M). -/
def aField (c : Word) : BitVec 4 := c.extractLsb' 20 4
/-- `B = c[19:16]` (formats R, I, M). -/
def bField (c : Word) : BitVec 4 := c.extractLsb' 16 4
/-- `C = c[15:12]` (format R). -/
def cField (c : Word) : BitVec 4 := c.extractLsb' 12 4
/-- `D = c[11:8]` (format R). -/
def dField (c : Word) : BitVec 4 := c.extractLsb' 8 4
/-- `c[7:5]`, must be zero (format R). -/
def zeroR (c : Word) : BitVec 3 := c.extractLsb' 5 3
/-- `m = c[4:0]` (formats R, S). -/
def mField (c : Word) : BitVec 5 := c.extractLsb' 0 5
/-- `c[15:8]`, must be zero (format I). -/
def zeroI (c : Word) : BitVec 8 := c.extractLsb' 8 8
/-- `imm8 = c[7:0]` (format I). -/
def immField (c : Word) : BitVec 8 := c.extractLsb' 0 8
/-- `c[15]`, must be zero (formats M, W). -/
def zeroM (c : Word) : BitVec 1 := c.extractLsb' 15 1
/-- `addr = c[14:0]` (formats M, W). -/
def addrField (c : Word) : BitVec 15 := c.extractLsb' 0 15
/-- `imm8 = c[23:16]` (format W). -/
def immFieldW (c : Word) : BitVec 8 := c.extractLsb' 16 8
/-- `sd = c[23:17]` (formats S, T). -/
def sdField (c : Word) : BitVec 7 := c.extractLsb' 17 7
/-- `ss = c[16:10]` (format S), `sa = c[16:10]` (format T). -/
def ssField (c : Word) : BitVec 7 := c.extractLsb' 10 7
/-- `c[9]`, must be zero (format S). -/
def zeroS (c : Word) : BitVec 1 := c.extractLsb' 9 1
/-- `bf = c[8:5]` (format S). -/
def bfField (c : Word) : BitVec 4 := c.extractLsb' 5 4
/-- `sb = c[9:3]` (format T). -/
def sbField (c : Word) : BitVec 7 := c.extractLsb' 3 7
/-- `c[2:0]`, must be zero (format T). -/
def zeroT (c : Word) : BitVec 3 := c.extractLsb' 0 3
/-- `setd = c[23:21]` (format X). -/
def setdField (c : Word) : BitVec 3 := c.extractLsb' 21 3
/-- `sets = c[20:18]` (format X). -/
def setsField (c : Word) : BitVec 3 := c.extractLsb' 18 3
/-- `dir = c[17]` (format X). -/
def dirField (c : Word) : BitVec 1 := c.extractLsb' 17 1
/-- `k = c[16:13]` (format X). -/
def kField (c : Word) : BitVec 4 := c.extractLsb' 13 4
/-- `c[12:10]`, must be zero (format X). -/
def zeroX (c : Word) : BitVec 3 := c.extractLsb' 10 3
/-- `mb = c[9:0]` (format X). -/
def mbField (c : Word) : BitVec 10 := c.extractLsb' 0 10
/-- `c[23:0]`, must be zero (format N). -/
def zeroN (c : Word) : BitVec 24 := c.extractLsb' 0 24

/-! ### Field values as operands (R68, R69) -/

/-- A byte register number. -/
def breg (f : BitVec 4) : BReg := f.toFin
/-- A polynomial register number; 8 to 15 name no register (R68). -/
def preg (f : BitVec 4) : Except Reject PReg :=
  if h : f.toNat < 8 then .ok ⟨f.toNat, h⟩ else .error .badValue
/-- A modulus index as it stands in the word; 30 and 31 are judged by R70 step 5, in the command's meaning. -/
def modIdx (f : BitVec 5) : ModIdx := f.toFin
/-- A slot number. -/
def slot (f : BitVec 7) : Slot := f.toFin
/-- A set number. -/
def slotSet (f : BitVec 3) : SlotSet := f.toFin
/-- A direction bit. -/
def dirBit (f : BitVec 1) : Dir := if f = 0#1 then .fwd else .bwd
/-- The `imm8` of `LANE` (R68: at most 1). -/
def dirImm (f : BitVec 8) : Except Reject Dir :=
  if f = 0#8 then .ok .fwd else if f = 1#8 then .ok .bwd else .error .badValue
/-- The `imm8` of `RDCR` (R68: at most 4). -/
def creg (f : BitVec 8) : Except Reject CReg :=
  if f = 0#8 then .ok .id else if f = 1#8 then .ok .cap else if f = 2#8 then .ok .fsr
  else if f = 3#8 then .ok .fcw else if f = 4#8 then .ok .finfo else .error .badValue

/-- R70 step 3 before step 4: the unused bits, gathered into `z`, are judged before any value restriction. -/
def unused {n : Nat} (z : BitVec n) (r : Except Reject Instr) : Except Reject Instr :=
  if z = 0 then r else .error .nonzeroUnused

/-- The command a word stands for, or why it is illegal (R70 steps 1 to 4, rows of R71 in order). -/
def decode (c : Word) : Except Reject Instr :=
  match (opField c).toNat with
  | 0x00 => unused (zeroN c) (.ok .nop)
  | 0x01 => unused (aField c ++ bField c ++ zeroI c) (do return .rdcr (← creg (immField c)))
  | 0x02 => unused (bField c ++ cField c ++ dField c ++ zeroR c ++ mField c) (.ok (.rdb (breg (aField c))))
  | 0x10 => unused (zeroM c) (.ok (.mwr (addrField c) (immFieldW c)))
  | 0x11 => unused (aField c ++ bField c ++ zeroM c) (.ok (.mrd (addrField c)))
  | 0x12 => unused (bField c ++ zeroM c) (.ok (.ldb (breg (aField c)) (addrField c)))
  | 0x13 => unused (bField c ++ zeroM c) (.ok (.stb (breg (aField c)) (addrField c)))
  | 0x14 => unused (zeroM c) (.ok (.ldbx (breg (aField c)) (addrField c) (breg (bField c))))
  | 0x15 => unused (zeroM c) (.ok (.stbx (breg (aField c)) (addrField c) (breg (bField c))))
  | 0x20 => unused (bField c ++ zeroI c) (.ok (.fldi (breg (aField c)) (immField c)))
  | 0x21 => unused (cField c ++ dField c ++ zeroR c ++ mField c) (.ok (.fmov (breg (aField c)) (breg (bField c))))
  | 0x22 => unused (dField c ++ zeroR c ++ mField c)
      (.ok (.fadd (breg (aField c)) (breg (bField c)) (breg (cField c))))
  | 0x23 => unused (dField c ++ zeroR c)
      (.ok (.fmul (breg (aField c)) (breg (bField c)) (breg (cField c)) (modIdx (mField c))))
  | 0x24 => unused (dField c ++ zeroR c)
      (.ok (.fdiv (breg (aField c)) (breg (bField c)) (breg (cField c)) (modIdx (mField c))))
  | 0x25 => unused (cField c ++ dField c ++ zeroR c)
      (.ok (.finv (breg (aField c)) (breg (bField c)) (modIdx (mField c))))
  | 0x26 => unused (dField c ++ zeroR c)
      (.ok (.fred (breg (aField c)) (breg (bField c)) (breg (cField c)) (modIdx (mField c))))
  | 0x27 => unused (aField c ++ bField c ++ cField c ++ dField c ++ zeroR c) (.ok (.modp (modIdx (mField c))))
  | 0x28 => unused (zeroI c) (do return .lane (breg (aField c)) (breg (bField c)) (← dirImm (immField c)))
  | 0x30 => unused (bField c ++ cField c ++ dField c ++ zeroR c ++ mField c) (do return .pclr (← preg (aField c)))
  | 0x31 => unused (cField c ++ dField c ++ zeroR c ++ mField c)
      (do return .pmov (← preg (aField c)) (← preg (bField c)))
  | 0x32 => unused (zeroI c) (do return .pput (← preg (aField c)) (immField c) (breg (bField c)))
  | 0x33 => unused (zeroI c) (do return .pget (breg (aField c)) (← preg (bField c)) (immField c))
  | 0x34 => unused (cField c ++ dField c ++ zeroR c ++ mField c)
      (do return .plen (breg (aField c)) (← preg (bField c)))
  | 0x35 => unused (zeroM c) (do return .pld (← preg (aField c)) (breg (bField c)) (addrField c))
  | 0x36 => unused (zeroM c) (do return .pst (← preg (aField c)) (breg (bField c)) (addrField c))
  | 0x37 => unused (dField c ++ zeroR c ++ mField c)
      (do return .pcmp (breg (aField c)) (← preg (bField c)) (← preg (cField c)))
  | 0x40 => unused (dField c ++ zeroR c ++ mField c)
      (do return .padd (← preg (aField c)) (← preg (bField c)) (← preg (cField c)))
  | 0x41 => unused (zeroI c) (do return .pshu (← preg (aField c)) (← preg (bField c)) (immField c))
  | 0x42 => unused (zeroI c) (do return .pshd (← preg (aField c)) (← preg (bField c)) (immField c))
  | 0x43 => unused (dField c ++ zeroR c)
      (do return .pmul (← preg (aField c)) (← preg (bField c)) (← preg (cField c)) (modIdx (mField c)))
  | 0x44 => unused (zeroR c) (do
      let pr ← preg (aField c)
      let pq ← preg (bField c)
      let pa ← preg (cField c)
      let pb ← preg (dField c)
      if pr = pq then .error .badValue else .ok (.pdiv pr pq pa pb (modIdx (mField c))))
  | 0x45 => unused (cField c ++ dField c ++ zeroR c)
      (do return .pmonic (← preg (aField c)) (← preg (bField c)) (modIdx (mField c)))
  | 0x46 => unused (dField c ++ zeroR c)
      (do return .pxeu (← preg (aField c)) (← preg (bField c)) (← preg (cField c)) (modIdx (mField c)))
  | 0x50 => unused (ssField c ++ zeroS c ++ bfField c ++ mField c) (.ok (.sbid (slot (sdField c))))
  | 0x51 => unused (sdField c ++ zeroS c ++ mField c) (.ok (.sbchk (breg (bfField c)) (slot (ssField c))))
  | 0x52 => unused (zeroS c ++ bfField c ++ mField c) (.ok (.sbinv (slot (sdField c)) (slot (ssField c))))
  | 0x53 => unused (zeroT c) (.ok (.sbcomp (slot (sdField c)) (slot (ssField c)) (slot (sbField c))))
  | 0x54 => unused (zeroS c)
      (.ok (.sbpre (slot (sdField c)) (slot (ssField c)) (breg (bfField c)) (modIdx (mField c))))
  | 0x55 => unused (zeroS c)
      (.ok (.sbpost (slot (sdField c)) (slot (ssField c)) (breg (bfField c)) (modIdx (mField c))))
  | 0x56 => unused (kField c ++ zeroX c ++ mbField c)
      (.ok (.sbinvs (slotSet (setdField c)) (slotSet (setsField c)) (dirBit (dirField c))))
  | 0x57 => unused (zeroX c)
      (.ok (.sbmix (slotSet (setdField c)) (slotSet (setsField c)) (dirBit (dirField c)) (kField c).toFin (mbField c).toFin))
  | _ => .error .unknownOpcode

/-! ### The encoder: the eight formats of R66, most significant field first -/

/-- Format N. -/
def formatN (op : BitVec 8) : Word := op ++ 0#24
/-- Format R. -/
def formatR (op : BitVec 8) (a b c d : BitVec 4) (m : BitVec 5) : Word := op ++ a ++ b ++ c ++ d ++ 0#3 ++ m
/-- Format I. -/
def formatI (op : BitVec 8) (a b : BitVec 4) (imm : BitVec 8) : Word := op ++ a ++ b ++ 0#8 ++ imm
/-- Format M. -/
def formatM (op : BitVec 8) (a b : BitVec 4) (addr : BitVec 15) : Word := op ++ a ++ b ++ 0#1 ++ addr
/-- Format W. -/
def formatW (op imm : BitVec 8) (addr : BitVec 15) : Word := op ++ imm ++ 0#1 ++ addr
/-- Format S. -/
def formatS (op : BitVec 8) (sd ss : BitVec 7) (bf : BitVec 4) (m : BitVec 5) : Word := op ++ sd ++ ss ++ 0#1 ++ bf ++ m
/-- Format T. -/
def formatT (op : BitVec 8) (sd sa sb : BitVec 7) : Word := op ++ sd ++ sa ++ sb ++ 0#3
/-- Format X. -/
def formatX (op : BitVec 8) (setd sets : BitVec 3) (dir : BitVec 1) (k : BitVec 4) (mb : BitVec 10) : Word :=
  op ++ setd ++ sets ++ dir ++ k ++ 0#3 ++ mb

/-- A byte register number as a 4-bit field. -/
def bregBits (r : BReg) : BitVec 4 := BitVec.ofFin r
/-- A polynomial register number as a 4-bit field, its high bit 0 (R39). -/
def pregBits (r : PReg) : BitVec 4 := BitVec.ofNat 4 r.val
/-- A modulus index as a 5-bit field. -/
def modBits (m : ModIdx) : BitVec 5 := BitVec.ofFin m
/-- A slot number as a 7-bit field. -/
def slotBits (s : Slot) : BitVec 7 := BitVec.ofFin s
/-- A set number as a 3-bit field. -/
def setBits (t : SlotSet) : BitVec 3 := BitVec.ofFin t
/-- A direction as a 1-bit field. -/
def dirBits : Dir → BitVec 1
  | .fwd => 0#1
  | .bwd => 1#1
/-- A control register's number (R74). -/
def cregBits : CReg → BitVec 8
  | .id => 0#8
  | .cap => 1#8
  | .fsr => 2#8
  | .fcw => 3#8
  | .finfo => 4#8

/-- The word of a command (R66, R71); a command has exactly one, since every bit is opcode, operand or zero (R67). -/
def encode : Instr → Word
  | .nop => formatN 0x00#8
  | .rdcr cr => formatI 0x01#8 0 0 (cregBits cr)
  | .rdb bs => formatR 0x02#8 (bregBits bs) 0 0 0 0
  | .mwr addr imm => formatW 0x10#8 imm addr
  | .mrd addr => formatM 0x11#8 0 0 addr
  | .ldb bd addr => formatM 0x12#8 (bregBits bd) 0 addr
  | .stb bs addr => formatM 0x13#8 (bregBits bs) 0 addr
  | .ldbx bd addr bi => formatM 0x14#8 (bregBits bd) (bregBits bi) addr
  | .stbx bs addr bi => formatM 0x15#8 (bregBits bs) (bregBits bi) addr
  | .fldi bd imm => formatI 0x20#8 (bregBits bd) 0 imm
  | .fmov bd ba => formatR 0x21#8 (bregBits bd) (bregBits ba) 0 0 0
  | .fadd bd ba bb => formatR 0x22#8 (bregBits bd) (bregBits ba) (bregBits bb) 0 0
  | .fmul bd ba bb m => formatR 0x23#8 (bregBits bd) (bregBits ba) (bregBits bb) 0 (modBits m)
  | .fdiv bd ba bb m => formatR 0x24#8 (bregBits bd) (bregBits ba) (bregBits bb) 0 (modBits m)
  | .finv bd ba m => formatR 0x25#8 (bregBits bd) (bregBits ba) 0 0 (modBits m)
  | .fred bd ba bb m => formatR 0x26#8 (bregBits bd) (bregBits ba) (bregBits bb) 0 (modBits m)
  | .modp m => formatR 0x27#8 0 0 0 0 (modBits m)
  | .lane bd ba dir => formatI 0x28#8 (bregBits bd) (bregBits ba) (0#7 ++ dirBits dir)
  | .pclr pd => formatR 0x30#8 (pregBits pd) 0 0 0 0
  | .pmov pd pa => formatR 0x31#8 (pregBits pd) (pregBits pa) 0 0 0
  | .pput pd idx bs => formatI 0x32#8 (pregBits pd) (bregBits bs) idx
  | .pget bd pa idx => formatI 0x33#8 (bregBits bd) (pregBits pa) idx
  | .plen bd pa => formatR 0x34#8 (bregBits bd) (pregBits pa) 0 0 0
  | .pld pd bn addr => formatM 0x35#8 (pregBits pd) (bregBits bn) addr
  | .pst ps bn addr => formatM 0x36#8 (pregBits ps) (bregBits bn) addr
  | .pcmp bd pa pb => formatR 0x37#8 (bregBits bd) (pregBits pa) (pregBits pb) 0 0
  | .padd pd pa pb => formatR 0x40#8 (pregBits pd) (pregBits pa) (pregBits pb) 0 0
  | .pshu pd pa n => formatI 0x41#8 (pregBits pd) (pregBits pa) n
  | .pshd pd pa n => formatI 0x42#8 (pregBits pd) (pregBits pa) n
  | .pmul pd pa pb m => formatR 0x43#8 (pregBits pd) (pregBits pa) (pregBits pb) 0 (modBits m)
  | .pdiv pr pq pa pb m => formatR 0x44#8 (pregBits pr) (pregBits pq) (pregBits pa) (pregBits pb) (modBits m)
  | .pmonic pd pa m => formatR 0x45#8 (pregBits pd) (pregBits pa) 0 0 (modBits m)
  | .pxeu pd pa pb m => formatR 0x46#8 (pregBits pd) (pregBits pa) (pregBits pb) 0 (modBits m)
  | .sbid sd => formatS 0x50#8 (slotBits sd) 0 0 0
  | .sbchk bd ss => formatS 0x51#8 0 (slotBits ss) (bregBits bd) 0
  | .sbinv sd ss => formatS 0x52#8 (slotBits sd) (slotBits ss) 0 0
  | .sbcomp sd sa sb => formatT 0x53#8 (slotBits sd) (slotBits sa) (slotBits sb)
  | .sbpre sd ss bm m => formatS 0x54#8 (slotBits sd) (slotBits ss) (bregBits bm) (modBits m)
  | .sbpost sd ss bm m => formatS 0x55#8 (slotBits sd) (slotBits ss) (bregBits bm) (modBits m)
  | .sbinvs td ts dir => formatX 0x56#8 (setBits td) (setBits ts) (dirBits dir) 0 0
  | .sbmix td ts dir k r => formatX 0x57#8 (setBits td) (setBits ts) (dirBits dir) (BitVec.ofFin k) (BitVec.ofFin r)

/-- The instruction the decoder reads from a table word: the low `nbits` bits of `w`, every bit above them 0. -/
def decodeTableWord (nbits w : Nat) : Option Instr :=
  match decode (BitVec.ofNat 32 (w % 2 ^ nbits)) with
  | .ok i => some i
  | .error _ => none

end Sys2Proof
end

