-- ==== Sys2Proof/Machine/State.lean ====
section
/-! DEFINITION. The state of WBGF as plain data (`10_state.md` R30): 16 byte registers, 8 polynomial registers, the three fault
registers, the local memory; and the four fields of the model itself: the parameter `MODTAB`, the host agent's events still to
come, the response port, and a counter for the one free value. There is no program counter (R32), no flag (R33), no mode
(R187) and no hidden state (R42). -/

namespace Sys2Proof.Machine

/-- The six fault causes (`60_exceptions.md` R171). -/
inductive Cause where
  /-- Code 1: an operation is asked to divide by, or invert, zero (R172). -/
  | domainError
  /-- Code 2: the command word is not a legal encoding (R173). -/
  | illegalCommand
  /-- Code 3: a modulus index is 30 or more (R174). -/
  | illegalModulus
  /-- Code 4: a memory access would go past address 32767 (R175). -/
  | addressRange
  /-- Code 5: a polynomial result would be longer than 32 (R176). -/
  | lengthOverflow
  /-- Code 6: a table to be inverted is not a permutation (R177). -/
  | notBijective
deriving DecidableEq, Repr

/-- One response on the `RSP` port (R41). -/
structure Response where
  /-- `RSTAT`, the value of `FSR` after the command. -/
  rstat : Byte
  /-- `RDATA`, the value given to `respond`, else 0. -/
  rdata : Word
deriving DecidableEq, Repr

/-- What the host can do to the unit (`00_scope.md` R7). -/
inductive HostEvent where
  /-- The host presents a command word on the `CMD` port (R41). -/
  | command (c : Word)
  /-- The host asserts `RESET` between two commands (R200, R201). -/
  | reset
  /-- The host asserts `RESET` while the command `c` executes, against its obligation of R204 (R201, U3). -/
  | resetDuring (c : Word)
deriving DecidableEq, Repr

/-- The bytes of local memory that differ from `Config.unwrittenByte`, addresses strictly rising (`20_memory.md` R50). -/
abbrev Memory := List Host.Cell

/-- The canonical form: addresses strictly rising and below `MEMSIZE`, no entry equal to what an unlisted address reads as. -/
abbrev Memory.wf (m : Memory) : Prop :=
  m.Pairwise (fun x y => x.1 < y.1) ∧ ∀ c ∈ m, c.1 < Config.memSize ∧ c.2 ≠ Config.unwrittenByte

/-- The complete state. -/
structure State where
  /-- `b0..b15` (R31). -/
  b : Vector Byte 16
  /-- `p0..p7`, each a canonical sequence of at most 32 coefficients (R39). -/
  p : Vector Poly 8
  /-- `FSR`: bit 7 `F`, bits 3:0 `CAUSE` (R36). -/
  fsr : Byte
  /-- `FCW`, the command word of the recorded fault (R37). -/
  fcw : Word
  /-- `FINFO`, the fault information (R38). -/
  finfo : Word
  /-- `M`, the local memory (R40). -/
  mem : Memory
  /-- MODEL'S FIELD: the parameter `MODTAB` (R8, R86). No command and no reset writes it (assumption log 2). -/
  modtab : Vector Modulus Config.nMod
  /-- MODEL'S FIELD: the events the host agent will present, in order (R7; assumption log 3). -/
  host : List HostEvent
  /-- MODEL'S FIELD: the `RSP` port, the response to the last command, none before the first one and after a reset (R41;
  assumption log 4). -/
  rsp : Option Response
  /-- MODEL'S FIELD: how many `resetDuring` events have happened, the argument of the free value of U3 (assumption log 5). -/
  cuts : Nat
deriving DecidableEq, Repr

/-- WBGF never stops with a fault of the model: an unlisted address reads as a value, an address outside memory raises
`AddressRange` (a next state, R175, R185), and every command terminates (R207). Nothing raises a `Fault`, so it has no
constructor (safe). -/
inductive Fault
deriving DecidableEq, Repr

/-- Why the model refuses to give a meaning. A command refused in the fault state (R186) is no `Refusal`: it is a next state
with a response. -/
inductive Refusal where
  /-- Raised by an arm of `exec` that has no meaning yet; no arm does (safe: the model stops where the machine goes on). -/
  | notModelled (mnemonic : String)
deriving DecidableEq, Repr

/-- The unit at power-up, when `M` holds `m0` (R43, R200; U1: the initial memory is a parameter). -/
def State.powerUp (m0 : Memory) : State where
  b := Vector.replicate 16 0#8
  p := Vector.replicate 8 []
  fsr := 0x00#8
  fcw := 0x00000000#32
  finfo := 0x00000000#32
  mem := m0
  modtab := Config.defaultModtab
  host := []
  rsp := none
  cuts := 0

/-- The machine right after the power-up reset with nothing listed in memory (R43; assumption log 1). -/
def State.reset : State := State.powerUp []

end Sys2Proof.Machine
end

