-- ==== Sys2Proof/Machine/Flags.lean ====
section
/-! DEFINITION. WBGF has no flags and no condition codes (`10_state.md` R33): no command computes one, and results that a flag
would carry go to a byte register. What a command leaves outside its destination is the fault record only; this file holds the
fields of its status register `FSR` (R36) and the `FAULT` port (R183). -/

namespace Sys2Proof.Machine

/-- The code of a cause, the value of `FSR.CAUSE` (`60_exceptions.md` R171). -/
def Cause.code : Cause → Byte
  | .domainError => 1#8
  | .illegalCommand => 2#8
  | .illegalModulus => 3#8
  | .addressRange => 4#8
  | .lengthOverflow => 5#8
  | .notBijective => 6#8

/-- What `FSR` reads after a fault: `F = 1`, `CAUSE` the code (R171, R185). -/
def faultStatus (x : Cause) : Byte := 0x80#8 ||| x.code

/-- `FSR.F`, bit 7: the unit is in the fault state (R36, R186). -/
def State.faulted (s : State) : Bool := s.fsr.getLsbD 7

/-- `FSR.CAUSE`, bits 3:0 (R36). -/
def State.causeCode (s : State) : BitVec 4 := s.fsr.extractLsb' 0 4

/-- The `FAULT` port, a level equal to `FSR.F` at all times (R41, R183). -/
def State.faultPort (s : State) : Bool := s.faulted

/-- Control register `cr` as `RDCR` reads it (R34 to R38, R156). -/
def State.controlReg (s : State) : CReg → Word
  | .id => Config.idReg
  | .cap => Config.capReg
  | .fsr => zext32 s.fsr
  | .fcw => s.fcw
  | .finfo => s.finfo

end Sys2Proof.Machine
end

