-- ==== Sys2Proof/Machine/Ops.lean ====
section
/-! DEFINITION. The named operations every meaning is written with: reading and writing memory, registers, the response
(`00_scope.md` R10), entering the fault state (`60_exceptions.md` R185), being refused in it (R186), and the only way out of it,
reset (`70_reset_and_hazards.md` R200, R201). -/

namespace Sys2Proof.Machine

/-- What a meaning answers. -/
abbrev Result := Host.Outcome State Fault Refusal

/-! ### Memory (R10, R50 to R59) -/

/-- `M[a]`. -/
def Memory.read : Memory → Nat → Byte
  | [], _ => Config.unwrittenByte
  | (k, v) :: m, a => if k = a then v else Memory.read m a

/-- The entries with an address in `a .. a+n-1`. -/
def Memory.window (m : Memory) (a n : Nat) : Memory := m.filter (fun c => decide (a ≤ c.1) && decide (c.1 < a + n))

/-- `MemRead(a, n)`: element `i` is `M[a+i]` (R10); the window is the part of the list that can hold those bytes. -/
def Memory.readBytes (m : Memory) (a n : Nat) : List Byte :=
  (List.range n).map (fun i => (m.window a n).read (a + i))

/-- The entries for the bytes `bs` at `a`, less those equal to what an unlisted address reads as. -/
def Memory.cells : Nat → List Byte → Memory
  | _, [] => []
  | a, v :: vs => if v = Config.unwrittenByte then Memory.cells (a + 1) vs else (a, v) :: Memory.cells (a + 1) vs

/-- `MemWrite(a, n, bs)` with `n = len(bs)`: `M[a+i] <- bs[i]` (R10). The canonical form is kept. -/
def Memory.writeBytes (m : Memory) (a : Nat) (bs : List Byte) : Memory :=
  m.filter (fun c => decide (c.1 < a)) ++ (Memory.cells a bs ++ m.filter (fun c => decide (a + bs.length ≤ c.1)))

/-! ### Registers and memory of a state -/

/-- `b[i]` (R31). -/
def State.readB (s : State) (i : BReg) : Byte := s.b[i]
/-- `b[i] <- v` (R31). -/
def State.writeB (s : State) (i : BReg) (v : Byte) : State := { s with b := s.b.set i v }
/-- `p[i]` (R39). -/
def State.readP (s : State) (i : PReg) : Poly := s.p[i]
/-- `p[i] <- q` (R39); the rules write canonical sequences of at most 32 coefficients. -/
def State.writeP (s : State) (i : PReg) (q : Poly) : State := { s with p := s.p.set i q }
/-- `M[a]` (R40). -/
def State.readM (s : State) (a : Nat) : Byte := s.mem.read a
/-- `M[a+i] <- bs[i]` (R40). -/
def State.writeM (s : State) (a : Nat) (bs : List Byte) : State := { s with mem := s.mem.writeBytes a bs }

/-! ### Completing a command -/

/-- The response to a command: `RSTAT` is `FSR` after it (R41). -/
def State.withResponse (s : State) (d : Word) : State := { s with rsp := some { rstat := s.fsr, rdata := d } }

/-- `respond(d)`: the command completes with `RDATA = d` (R10). -/
def respond (d : Word) (s : State) : Result := .next (s.withResponse d)

/-- A rule that does not say `respond` responds with `RDATA = 0` (R10). -/
def done (s : State) : Result := respond 0#32 s

/-! ### Faults: entry, the fault state, reset -/

/-- The state right after fault entry: the record is written, `b`, `p` and `M` are unchanged, `RDATA = 0` (R185). -/
def State.faultEntry (s : State) (c : Word) (x : Cause) (info : Word) : State :=
  { s with
    fsr := faultStatus x
    fcw := c
    finfo := info
    rsp := some { rstat := faultStatus x, rdata := 0#32 } }

/-- Taking a fault: `raise X(info)` of the command with word `c` (R10, R185). -/
def enterFault (c : Word) (x : Cause) (info : Word) (s : State) : Result := .next (s.faultEntry c x info)

/-- `raise X(info)` of the command `i`. `FCW` is its word; a command has exactly one (R67), the one it was presented as. -/
def raise (i : Instr) (x : Cause) (info : Nat) (s : State) : Result := enterFault (encode i) x (word info) s

/-- A command refused in the fault state: nothing changes, `RDATA = 0` (R186 (b)). -/
def refuse (s : State) : Result := respond 0#32 s

/-- R70 step 0 for every command but `RDCR`: in the fault state it is refused. -/
def whenReady (s : State) (k : Result) : Result := if s.faulted then refuse s else k

/-- Reset, the only exit from the fault state (R186 (c), R200): registers and fault record take their reset values, `M` is
unchanged, no response is produced. -/
def State.assertReset (s : State) : State :=
  { s with
    b := Vector.replicate 16 0#8
    p := Vector.replicate 8 []
    fsr := 0x00#8
    fcw := 0x00000000#32
    finfo := 0x00000000#32
    rsp := none }

end Sys2Proof.Machine
end

