-- ==== Sys2Proof/Machine/Operands.lean ====
section
/-! DEFINITION. Operand forms: modulus indices, effective addresses and their range rule, slots, sets and mix records
(`20_memory.md` R52 to R56, `30_encoding.md` R69). -/

namespace Sys2Proof.Machine

/-! ### Moduli -/

/-- `MODTAB[i]`, defined for `i` in `0..29` only (R69, R86). -/
def State.modulus? (s : State) (i : Nat) : Option Modulus := s.modtab[i]?

/-- R70 step 5: the command `i` uses the modulus index `m`; 30 and 31 raise `IllegalModulus` with `FINFO = m` (R174 (a)). -/
def withModulus (i : Instr) (m : ModIdx) (s : State) (k : Modulus → Result) : Result :=
  match s.modulus? m.val with
  | some P => k P
  | none => raise i .illegalModulus m.val s

/-! ### Addresses (unbounded unsigned integers, checked and never wrapped: R52, R69, R103) -/

/-- `ea = addr + zext(b[bi])` (R69). -/
def indexedAddress (s : State) (addr : Addr) (bi : BReg) : Nat := addr.toNat + (s.readB bi).toNat

/-- The range rule for `n` bytes at `a`; the empty range is always in range (R52). -/
def inRange (a n : Nat) : Bool := n == 0 || decide (a + n ≤ Config.memSize)

/-- Slot `s` starts at `256·s` (R53). -/
def slotAddr (s : Slot) : Nat := 256 * s.val
/-- Set `t` starts at `4096·t` (R54). -/
def setAddr (t : SlotSet) : Nat := 4096 * t.val
/-- Lane `i` of set `t` is slot `16·t + i` (R54). -/
def laneSlot (t : SlotSet) (i : Lane) : Slot := ⟨16 * t.val + i.val, by omega⟩
/-- Record `r` starts at `32·r` (R55). -/
def recordAddr (r : Nat) : Nat := 32 * r

/-- `SB(sl)`: the S-box in a slot (R10, R53). -/
def State.table (s : State) (sl : Slot) : Table := s.mem.readBytes (slotAddr sl) Config.sboxLen
/-- `SB(sl) <- t` (R10). -/
def State.writeTable (s : State) (sl : Slot) (t : Table) : State := s.writeM (slotAddr sl) t
/-- `SB(sl) <- t` for each pair of a list, in order. -/
def State.writeTables (s : State) (ts : List (Slot × Table)) : State := ts.foldl (fun s x => s.writeTable x.1 x.2) s

/-- `mult(L, i)` of the list of layers that starts at record `mb`: `M[32·(mb+L) + i]` (R55, R141). -/
def State.layerMult (s : State) (mb L i : Nat) : Byte := s.readM (recordAddr (mb + L) + i)
/-- `modi(L, i)`: `M[32·(mb+L) + 16 + i]` (R55, R141). -/
def State.layerModIdx (s : State) (mb L i : Nat) : Byte := s.readM (recordAddr (mb + L) + 16 + i)

end Sys2Proof.Machine
end

