-- ==== Sys2Proof/Machine/Field.lean ====
section
/-! DEFINITION. Field commands (`40_field.md` R93 to R101), under the gate of R70 step 0. -/

namespace Sys2Proof.Machine

/-- `FLDI bd, imm8` (R93). -/
def execFldi (bd : BReg) (imm : Byte) (s : State) : Result := whenReady s (done (s.writeB bd imm))

/-- `FMOV bd, ba` (R94). -/
def execFmov (bd ba : BReg) (s : State) : Result := whenReady s (done (s.writeB bd (s.readB ba)))

/-- `FADD bd, ba, bb`: XOR, no modulus (R95). -/
def execFadd (bd ba bb : BReg) (s : State) : Result := whenReady s (done (s.writeB bd (s.readB ba ^^^ s.readB bb)))

/-- `FMUL bd, ba, bb, m` (R96). -/
def execFmul (bd ba bb : BReg) (m : ModIdx) (s : State) : Result :=
  whenReady s <| withModulus (.fmul bd ba bb m) m s fun P => done (s.writeB bd (fmul (s.readB ba) (s.readB bb) P))

/-- `FDIV bd, ba, bb, m` (R97). -/
def execFdiv (bd ba bb : BReg) (m : ModIdx) (s : State) : Result :=
  whenReady s <| withModulus (.fdiv bd ba bb m) m s fun P =>
    if s.readB bb = 0#8 then raise (.fdiv bd ba bb m) .domainError 0 s
    else done (s.writeB bd (fdiv (s.readB ba) (s.readB bb) P))

/-- `FINV bd, ba, m` (R98). -/
def execFinv (bd ba : BReg) (m : ModIdx) (s : State) : Result :=
  whenReady s <| withModulus (.finv bd ba m) m s fun P =>
    if s.readB ba = 0#8 then raise (.finv bd ba m) .domainError 0 s
    else done (s.writeB bd (finv (s.readB ba) P))

/-- `FRED bd, ba, bb, m`: `b[ba] : b[bb]` reduced relative to the modulus (R99). -/
def execFred (bd ba bb : BReg) (m : ModIdx) (s : State) : Result :=
  whenReady s <| withModulus (.fred bd ba bb m) m s fun P => done (s.writeB bd (gfred (s.readB ba ++ s.readB bb) P))

/-- `MODP m` (R100). -/
def execModp (m : ModIdx) (s : State) : Result :=
  whenReady s <| withModulus (.modp m) m s fun P => respond (zext32 P) s

/-- `LANE bd, ba, dir`: bits 7:4 of the source are ignored (R101). -/
def execLane (bd ba : BReg) (dir : Dir) (s : State) : Result :=
  whenReady s (done (s.writeB bd (BitVec.ofNat 8 (laneMap dir ((s.readB ba).extractLsb' 0 4).toFin).val)))

end Sys2Proof.Machine
end

