-- ==== Sys2Proof/Machine/Ring.lean ====
section
/-! DEFINITION. The pure functions of the polynomial ring GF(2^8)[x] (`41_polynomial.md` R105 to R112). -/

namespace Sys2Proof.Machine

/-- A sequence is canonical when it is empty or its last element is not zero (R105). -/
def canonical (s : List Byte) : Bool := s.getLast? != some 0#8

/-- `trim(s)`: the zeros at the high end are removed (R105). -/
def trim : List Byte → Poly
  | [] => []
  | c :: s =>
    match trim s with
    | [] => if c = 0#8 then [] else [c]
    | d :: t => c :: d :: t

/-- The coefficient of `x^j`: zero at and beyond the length (R105). -/
def coef (p : List Byte) (j : Nat) : Byte := p.getD j 0#8

/-- Element-wise XOR, the shorter sequence continued with zeros (R106). -/
def xorSeq : List Byte → List Byte → List Byte
  | [], q => q
  | p, [] => p
  | a :: p, b :: q => (a ^^^ b) :: xorSeq p q

/-- `padd(p, q)` (R106). -/
def padd (p q : Poly) : Poly := trim (xorSeq p q)

/-- `pshu(p, n)`: multiply by `x^n` (R107). -/
def pshu (p : Poly) (n : Nat) : Poly := if p = [] then [] else List.replicate n 0#8 ++ p

/-- `pshd(p, n)`: drop the `n` lowest coefficients (R107). -/
def pshd (p : Poly) (n : Nat) : Poly := p.drop n

/-- `pscale(c, p, P)`: every coefficient times `c` (R108). -/
def pscale (c : Byte) (p : Poly) (P : Modulus) : Poly := trim (p.map (fun x => fmul c x P))

/-- The full convolution of two sequences, `len(p) + len(q) - 1` elements when both are not empty (R108). -/
def convolve (P : Modulus) : List Byte → List Byte → List Byte
  | [], _ => []
  | a :: p, q => xorSeq (q.map (fun x => fmul a x P)) (if p = [] then [] else 0#8 :: convolve P p q)

/-- `pmul(p, q, P)`, no implicit reduction (R108). -/
def pmul (p q : Poly) (P : Modulus) : Poly := if p = [] ∨ q = [] then [] else trim (convolve P p q)

/-- The leading coefficient, the last element (R109). -/
def lead (p : Poly) : Byte := p.getLastD 0#8

/-- The passes of long division by `q`, at most `n` of them: `r` is what is left, `t` the quotient so far (R109). -/
def divPasses (q : Poly) (P : Modulus) : Nat → Poly → List Byte → Poly × List Byte
  | 0, r, t => (r, t)
  | n + 1, r, t =>
    if r.length < q.length then (r, t)
    else
      let s := r.length - q.length
      let c := fdiv (lead r) (lead q) P
      divPasses q P n (padd r (pshu (pscale c q P) s)) (t.set s c)

/-- `pdivmod(p, q, P)` for `q` not zero: the remainder first, then the quotient. At most `len(p) - len(q) + 1` passes are made
(R109, R207). -/
def pdivmod (p q : Poly) (P : Modulus) : Poly × Poly :=
  let n := p.length + 1 - q.length
  let rt := divPasses q P n p (List.replicate n 0#8)
  (rt.1, trim rt.2)

/-- `pmonic(p, P)` for `p` not zero (R110). -/
def pmonic (p : Poly) (P : Modulus) : Poly := pscale (finv (lead p) P) p P

/-- The passes of the extended Euclidean algorithm, at most `n` of them: `(r0, s0)`, `(r1, s1)` to the final `(r0, s0)` (R111). -/
def euclidPasses (P : Modulus) : Nat → Poly → Poly → Poly → Poly → Poly × Poly
  | 0, r0, s0, _, _ => (r0, s0)
  | n + 1, r0, s0, r1, s1 =>
    if r1 = [] then (r0, s0)
    else
      let d := pdivmod r0 r1 P
      euclidPasses P n r1 s1 d.1 (padd s0 (pmul d.2 s1 P))

/-- `pxeu(p, q, P)` for `q` not zero: the inverse of `p` relative to `q`, or the zero polynomial (R111). The loop ends within
`len(q) - 1` passes (R207). -/
def pxeu (p q : Poly) (P : Modulus) : Poly :=
  if q.length = 1 then []
  else
    let e := euclidPasses P q.length q [] (pdivmod p q P).1 [0x01#8]
    if e.1.length ≠ 1 then []
    else (pdivmod (pscale (finv (lead e.1) P) e.2 P) q P).1

/-- Coefficients compared from the highest down, as unsigned integers (R112); the lists are highest first. -/
def cmpHighToLow : List Byte → List Byte → Ordering
  | a :: p, b :: q => if a.toNat < b.toNat then .lt else if b.toNat < a.toNat then .gt else cmpHighToLow p q
  | _, _ => .eq

/-- `pcmp(p, q)`: length first, then coefficients high to low (R112). -/
def pcmp (p q : Poly) : Ordering :=
  if p.length < q.length then .lt
  else if q.length < p.length then .gt
  else cmpHighToLow p.reverse q.reverse

end Sys2Proof.Machine
end

