-- ==== Sys2Proof/Machine/Polynomial.lean ====
section
/-! DEFINITION. Polynomial commands (`41_polynomial.md` R113 to R127), under the gate of R70 step 0. -/

namespace Sys2Proof.Machine

/-- The three result codes of `PCMP` (R120, D25). -/
def orderCode : Ordering → Byte
  | .eq => 0x00#8
  | .gt => 0x01#8
  | .lt => 0xFF#8

/-- `s` extended with zero bytes to length `max(len(s), n)` (R115). -/
def extendTo (s : List Byte) (n : Nat) : List Byte := s ++ List.replicate (n - s.length) 0#8

/-- `PCLR pd` (R113). -/
def execPclr (pd : PReg) (s : State) : Result := whenReady s (done (s.writeP pd []))

/-- `PMOV pd, pa` (R114). -/
def execPmov (pd pa : PReg) (s : State) : Result := whenReady s (done (s.writeP pd (s.readP pa)))

/-- `PPUT pd, idx, bs` (R115). DESIGN CHOICE (assumption log 18): for `idx = 255` the recorded length is 256, as R115 and R176 give it,
beyond the 255 of R178's table. -/
def execPput (pd : PReg) (idx : Byte) (bs : BReg) (s : State) : Result :=
  whenReady s <|
    if Config.pMax ≤ idx.toNat then raise (.pput pd idx bs) .lengthOverflow (idx.toNat + 1) s
    else done (s.writeP pd (trim ((extendTo (s.readP pd) (idx.toNat + 1)).set idx.toNat (s.readB bs))))

/-- `PGET bd, pa, idx`: zero at and beyond the length (R116). -/
def execPget (bd : BReg) (pa : PReg) (idx : Byte) (s : State) : Result :=
  whenReady s (done (s.writeB bd (coef (s.readP pa) idx.toNat)))

/-- `PLEN bd, pa` (R117). -/
def execPlen (bd : BReg) (pa : PReg) (s : State) : Result :=
  whenReady s (done (s.writeB bd (BitVec.ofNat 8 (s.readP pa).length)))

/-- `PLD pd, bn, [addr]`: the range is judged first, then the byte count, before trimming (R118). -/
def execPld (pd : PReg) (bn : BReg) (addr : Addr) (s : State) : Result :=
  whenReady s <|
    let n := (s.readB bn).toNat
    if inRange addr.toNat n = false then raise (.pld pd bn addr) .addressRange Config.memSize s
    else if Config.pMax < n then raise (.pld pd bn addr) .lengthOverflow n s
    else done (s.writeP pd (trim (s.mem.readBytes addr.toNat n)))

/-- The `n` bytes `PST` stores of a polynomial: its low coefficients, then zeros (R119). -/
def image (p : Poly) (n : Nat) : List Byte := (List.range n).map (coef p)

/-- `PST ps, bn, [addr]` (R119). -/
def execPst (ps : PReg) (bn : BReg) (addr : Addr) (s : State) : Result :=
  whenReady s <|
    let n := (s.readB bn).toNat
    if inRange addr.toNat n = false then raise (.pst ps bn addr) .addressRange Config.memSize s
    else done (s.writeM addr.toNat (image (s.readP ps) n))

/-- `PCMP bd, pa, pb` (R120). -/
def execPcmp (bd : BReg) (pa pb : PReg) (s : State) : Result :=
  whenReady s (done (s.writeB bd (orderCode (pcmp (s.readP pa) (s.readP pb)))))

/-- `PADD pd, pa, pb` (R121). -/
def execPadd (pd pa pb : PReg) (s : State) : Result :=
  whenReady s (done (s.writeP pd (padd (s.readP pa) (s.readP pb))))

/-- `PSHU pd, pa, n`: the zero polynomial never overflows (R122). DESIGN CHOICE (assumption log 18): a length of 256 to 287 is recorded
as it is, as R122 and R176 give it, beyond the 255 of R178's table. -/
def execPshu (pd pa : PReg) (n : Byte) (s : State) : Result :=
  whenReady s <|
    let len := (s.readP pa).length
    if 0 < len ∧ Config.pMax < len + n.toNat then raise (.pshu pd pa n) .lengthOverflow (len + n.toNat) s
    else done (s.writeP pd (pshu (s.readP pa) n.toNat))

/-- `PSHD pd, pa, n` (R123). -/
def execPshd (pd pa : PReg) (n : Byte) (s : State) : Result :=
  whenReady s (done (s.writeP pd (pshd (s.readP pa) n.toNat)))

/-- `PMUL pd, pa, pb, m` (R124). -/
def execPmul (pd pa pb : PReg) (m : ModIdx) (s : State) : Result :=
  whenReady s <| withModulus (.pmul pd pa pb m) m s fun P =>
    let la := (s.readP pa).length
    let lb := (s.readP pb).length
    if 0 < la ∧ 0 < lb ∧ Config.pMax < la + lb - 1 then raise (.pmul pd pa pb m) .lengthOverflow (la + lb - 1) s
    else done (s.writeP pd (pmul (s.readP pa) (s.readP pb) P))

/-- `PDIV pr, pq, pa, pb, m`: the remainder to `pr`, the quotient to `pq` (R125). No word decodes to a `PDIV` with `pr = pq`
(R68); the meaning still is that of the illegal command there. -/
def execPdiv (pr pq pa pb : PReg) (m : ModIdx) (s : State) : Result :=
  whenReady s <|
    if pr = pq then raise (.pdiv pr pq pa pb m) .illegalCommand 0 s
    else withModulus (.pdiv pr pq pa pb m) m s fun P =>
      if s.readP pb = [] then raise (.pdiv pr pq pa pb m) .domainError 0 s
      else
        let rt := pdivmod (s.readP pa) (s.readP pb) P
        done ((s.writeP pr rt.1).writeP pq rt.2)

/-- `PMONIC pd, pa, m` (R126). -/
def execPmonic (pd pa : PReg) (m : ModIdx) (s : State) : Result :=
  whenReady s <| withModulus (.pmonic pd pa m) m s fun P =>
    if s.readP pa = [] then raise (.pmonic pd pa m) .domainError 0 s
    else done (s.writeP pd (pmonic (s.readP pa) P))

/-- `PXEU pd, pa, pb, m`: not being coprime is no fault (R127). -/
def execPxeu (pd pa pb : PReg) (m : ModIdx) (s : State) : Result :=
  whenReady s <| withModulus (.pxeu pd pa pb m) m s fun P =>
    if s.readP pb = [] then raise (.pxeu pd pa pb m) .domainError 0 s
    else done (s.writeP pd (pxeu (s.readP pa) (s.readP pb) P))

end Sys2Proof.Machine
end

