-- ==== Sys2Proof/Machine/Sbox.lean ====
section
/-! DEFINITION. The pure functions on S-box tables and mix layers (`42_sbox.md` R140, R141). -/

namespace Sys2Proof.Machine

/-- `t[k]` of a 256-entry table (R140). -/
def entry (t : Table) (k : Byte) : Byte := t.getD k.toNat 0#8

/-- All bytes in index order: also the identity table (R142). -/
def allBytes : Table := (List.range Config.sboxLen).map (BitVec.ofNat 8)

/-- The table whose entry at `k` is `f k`. -/
def tableOf (f : Byte → Byte) : Table := allBytes.map f

/-- The set of the values that occur in a table, bit `v` for the value `v` (the seen-set of R42). -/
def seenSet (t : Table) : BitVec 256 := t.foldl (fun acc v => acc ||| (1#256 <<< v.toNat)) 0#256

/-- `is_perm(t)`: every byte value occurs (R140). -/
def isPerm (t : Table) : Bool := seenSet t == BitVec.allOnes 256

/-- `missing(t)`: the smallest byte value that does not occur; used only when `is_perm(t)` is false (R140). -/
def missing (t : Table) : Nat := ((List.range 256).find? (fun v => !(seenSet t).getLsbD v)).getD 0

/-- `perm_inv(t)`, the table `u` with `u[t[j]] = j`: entry `y` is the position of `y` in `t`; used only when `is_perm(t)`
(R140). -/
def permInv (t : Table) : Table := tableOf (fun y => BitVec.ofNat 8 (t.idxOf y))

/-- `compose(ta, tb)`: `tb` first, then `ta` (R141). -/
def compose (ta tb : Table) : Table := tableOf (fun k => entry ta (entry tb k))

/-- `premul(t, c, P)` for `c ≠ 0` (R141). -/
def premul (t : Table) (c : Byte) (P : Modulus) : Table := tableOf (fun k => entry t (fdiv k c P))

/-- `postmul(t, c, P)` (R141). -/
def postmul (t : Table) (c : Byte) (P : Modulus) : Table := tableOf (fun k => fmul (entry t k) c P)

/-- `mixapply`: `x` is multiplied by each layer's pair of one lane, first layer first (R141); `ls` lists those pairs. -/
def mixApply (ls : List (Byte × Modulus)) (x : Byte) : Byte := ls.foldl (fun x l => fmul x l.1 l.2) x

/-- `mixundo`: `v` is divided by each layer's multiplier, last layer first (R141). -/
def mixUndo (ls : List (Byte × Modulus)) (v : Byte) : Byte := ls.foldr (fun l v => fdiv v l.1 l.2) v

end Sys2Proof.Machine
end

