-- ==== Sys2Proof/Machine/SboxCommands.lean ====
section
/-! DEFINITION. S-box commands (`42_sbox.md` R142 to R149), under the gate of R70 step 0. Every source byte is read from the
state before the command (`00_scope.md` R10). -/

namespace Sys2Proof.Machine

/-- `SBID sd` (R142). -/
def execSbid (sd : Slot) (s : State) : Result := whenReady s (done (s.writeTable sd allBytes))

/-- `SBCHK bd, ss` (R143). -/
def execSbchk (bd : BReg) (ss : Slot) (s : State) : Result :=
  whenReady s (done (s.writeB bd (if isPerm (s.table ss) then 0x01#8 else 0x00#8)))

/-- `SBINV sd, ss` (R144). -/
def execSbinv (sd ss : Slot) (s : State) : Result :=
  whenReady s <|
    if isPerm (s.table ss) then done (s.writeTable sd (permInv (s.table ss)))
    else raise (.sbinv sd ss) .notBijective (missing (s.table ss)) s

/-- `SBCOMP sd, sa, sb`: the table in `sb` is applied first (R145). -/
def execSbcomp (sd sa sb : Slot) (s : State) : Result :=
  whenReady s (done (s.writeTable sd (compose (s.table sa) (s.table sb))))

/-- `SBPRE sd, ss, bm, m` (R146). -/
def execSbpre (sd ss : Slot) (bm : BReg) (m : ModIdx) (s : State) : Result :=
  whenReady s <| withModulus (.sbpre sd ss bm m) m s fun P =>
    if s.readB bm = 0#8 then raise (.sbpre sd ss bm m) .domainError 0 s
    else done (s.writeTable sd (premul (s.table ss) (s.readB bm) P))

/-- `SBPOST sd, ss, bm, m`: a zero multiplier is no fault (R147). -/
def execSbpost (sd ss : Slot) (bm : BReg) (m : ModIdx) (s : State) : Result :=
  whenReady s <| withModulus (.sbpost sd ss bm m) m s fun P =>
    done (s.writeTable sd (postmul (s.table ss) (s.readB bm) P))

/-- The lowest lane of a set whose table is not a permutation (R148, R177). -/
def firstBadLane (s : State) (ts : SlotSet) : Option Lane :=
  (List.finRange 16).find? (fun i => !isPerm (s.table (laneSlot ts i)))

/-- What `SBINVS` writes: the inverse of lane `i` goes to lane `lane(dir, i)` (R148). -/
def inverseTables (s : State) (td ts : SlotSet) (dir : Dir) : List (Slot × Table) :=
  (List.finRange 16).map (fun i => (laneSlot td (laneMap dir i), permInv (s.table (laneSlot ts i))))

/-- `SBINVS td, ts, dir` (R148). -/
def execSbinvs (td ts : SlotSet) (dir : Dir) (s : State) : Result :=
  whenReady s <|
    match firstBadLane s ts with
    | some i => raise (.sbinvs td ts dir) .notBijective ((i.val <<< 8) ||| missing (s.table (laneSlot ts i))) s
    | none => done (s.writeTables (inverseTables s td ts dir))

/-- What is wrong with the pair of layer `L`, lane `i`: the modulus index is judged before the multiplier (R149). -/
def badPair (s : State) (mb L i : Nat) : Option (Cause × Nat) :=
  if Config.nMod ≤ (s.layerModIdx mb L i).toNat then some (.illegalModulus, (s.layerModIdx mb L i).toNat)
  else if s.layerMult mb L i = 0#8 then some (.domainError, 0)
  else none

/-- The first bad pair of `k` layers from record `mb`: layers ascending, lanes ascending within a layer (R149, R179). -/
def firstBadPair (s : State) (mb k : Nat) : Option (Cause × Nat) :=
  (List.range k).findSome? (fun L => (List.range Config.lanes).findSome? (badPair s mb L))

/-- The pairs of one lane in `k` layers from record `mb`, first layer first (R141). `SBMIX` uses it only after `firstBadPair`
has found none, so that every index is in `0..29` and the value `0` for another index is never used. -/
def lanePairs (s : State) (mb k : Nat) (i : Lane) : List (Byte × Modulus) :=
  (List.range k).map (fun L => (s.layerMult mb L i.val, (s.modulus? (s.layerModIdx mb L i.val).toNat).getD 0#9))

/-- What `SBMIX` writes at position `pos`: the table there after undoing the pairs of lane `lane(dir, pos)` (R149). -/
def mixedTable (s : State) (ts : SlotSet) (dir : Dir) (mb k : Nat) (pos : Lane) : Table :=
  let ls := lanePairs s mb k (laneMap dir pos)
  let t := s.table (laneSlot ts pos)
  tableOf (fun v => entry t (mixUndo ls v))

/-- `SBMIX td, ts, dir, k, r` (R149). -/
def execSbmix (td ts : SlotSet) (dir : Dir) (k : LayerCount) (r : MixRec) (s : State) : Result :=
  whenReady s <|
    if 1 ≤ k.val ∧ Config.nMixRec < r.val + k.val then raise (.sbmix td ts dir k r) .addressRange Config.memSize s
    else
      match firstBadPair s r.val k.val with
      | some (x, info) => raise (.sbmix td ts dir k r) x info s
      | none => done (s.writeTables
          ((List.finRange 16).map (fun pos => (laneSlot td pos, mixedTable s ts dir r.val k.val pos))))

end Sys2Proof.Machine
end

