-- ==== Sys2Proof/Machine/System.lean ====
section
/-! DEFINITION. System and data-movement commands (`43_system_and_data_movement.md` R155 to R163). Each meaning is step 6 of R70
under the gate of its step 0: in the fault state every command but `RDCR` is refused (R186). -/

namespace Sys2Proof.Machine

/-- `NOP`: nothing; `respond(0)` (R155). -/
def execNop (s : State) : Result := whenReady s (done s)

/-- `RDCR cr`: the one command that executes in the fault state too (R156, R186 (a)). -/
def execRdcr (cr : CReg) (s : State) : Result := respond (s.controlReg cr) s

/-- `RDB bs` (R157). -/
def execRdb (bs : BReg) (s : State) : Result := whenReady s (respond (zext32 (s.readB bs)) s)

/-- `MWR [addr], imm8` (R158). -/
def execMwr (addr : Addr) (imm : Byte) (s : State) : Result := whenReady s (done (s.writeM addr.toNat [imm]))

/-- `MRD [addr]` (R159). -/
def execMrd (addr : Addr) (s : State) : Result := whenReady s (respond (zext32 (s.readM addr.toNat)) s)

/-- `LDB bd, [addr]` (R160). -/
def execLdb (bd : BReg) (addr : Addr) (s : State) : Result := whenReady s (done (s.writeB bd (s.readM addr.toNat)))

/-- `STB bs, [addr]` (R161). -/
def execStb (bs : BReg) (addr : Addr) (s : State) : Result := whenReady s (done (s.writeM addr.toNat [s.readB bs]))

/-- `LDBX bd, [addr + bi]` (R162). -/
def execLdbx (bd : BReg) (addr : Addr) (bi : BReg) (s : State) : Result :=
  whenReady s <|
    let ea := indexedAddress s addr bi
    if Config.memSize ≤ ea then raise (.ldbx bd addr bi) .addressRange ea s
    else done (s.writeB bd (s.readM ea))

/-- `STBX bs, [addr + bi]` (R163). -/
def execStbx (bs : BReg) (addr : Addr) (bi : BReg) (s : State) : Result :=
  whenReady s <|
    let ea := indexedAddress s addr bi
    if Config.memSize ≤ ea then raise (.stbx bs addr bi) .addressRange ea s
    else done (s.writeM ea [s.readB bs])

end Sys2Proof.Machine
end

