-- ==== Sys2Proof/Machine/Dispatch.lean ====
section
/-! DEFINITION. One arm per command: the meaning it calls (`30_encoding.md` R71, R70 steps 5 and 6). -/

namespace Sys2Proof.Machine

def exec (i : Instr) (s : State) : Host.Outcome State Fault Refusal :=
  match i with
  | .nop => Sys2Proof.Machine.execNop s
  | .rdcr cr => Sys2Proof.Machine.execRdcr cr s
  | .rdb bs => Sys2Proof.Machine.execRdb bs s
  | .mwr addr imm => Sys2Proof.Machine.execMwr addr imm s
  | .mrd addr => Sys2Proof.Machine.execMrd addr s
  | .ldb bd addr => Sys2Proof.Machine.execLdb bd addr s
  | .stb bs addr => Sys2Proof.Machine.execStb bs addr s
  | .ldbx bd addr bi => Sys2Proof.Machine.execLdbx bd addr bi s
  | .stbx bs addr bi => Sys2Proof.Machine.execStbx bs addr bi s
  | .fldi bd imm => Sys2Proof.Machine.execFldi bd imm s
  | .fmov bd ba => Sys2Proof.Machine.execFmov bd ba s
  | .fadd bd ba bb => Sys2Proof.Machine.execFadd bd ba bb s
  | .fmul bd ba bb m => Sys2Proof.Machine.execFmul bd ba bb m s
  | .fdiv bd ba bb m => Sys2Proof.Machine.execFdiv bd ba bb m s
  | .finv bd ba m => Sys2Proof.Machine.execFinv bd ba m s
  | .fred bd ba bb m => Sys2Proof.Machine.execFred bd ba bb m s
  | .modp m => Sys2Proof.Machine.execModp m s
  | .lane bd ba dir => Sys2Proof.Machine.execLane bd ba dir s
  | .pclr pd => Sys2Proof.Machine.execPclr pd s
  | .pmov pd pa => Sys2Proof.Machine.execPmov pd pa s
  | .pput pd idx bs => Sys2Proof.Machine.execPput pd idx bs s
  | .pget bd pa idx => Sys2Proof.Machine.execPget bd pa idx s
  | .plen bd pa => Sys2Proof.Machine.execPlen bd pa s
  | .pld pd bn addr => Sys2Proof.Machine.execPld pd bn addr s
  | .pst ps bn addr => Sys2Proof.Machine.execPst ps bn addr s
  | .pcmp bd pa pb => Sys2Proof.Machine.execPcmp bd pa pb s
  | .padd pd pa pb => Sys2Proof.Machine.execPadd pd pa pb s
  | .pshu pd pa n => Sys2Proof.Machine.execPshu pd pa n s
  | .pshd pd pa n => Sys2Proof.Machine.execPshd pd pa n s
  | .pmul pd pa pb m => Sys2Proof.Machine.execPmul pd pa pb m s
  | .pdiv pr pq pa pb m => Sys2Proof.Machine.execPdiv pr pq pa pb m s
  | .pmonic pd pa m => Sys2Proof.Machine.execPmonic pd pa m s
  | .pxeu pd pa pb m => Sys2Proof.Machine.execPxeu pd pa pb m s
  | .sbid sd => Sys2Proof.Machine.execSbid sd s
  | .sbchk bd ss => Sys2Proof.Machine.execSbchk bd ss s
  | .sbinv sd ss => Sys2Proof.Machine.execSbinv sd ss s
  | .sbcomp sd sa sb => Sys2Proof.Machine.execSbcomp sd sa sb s
  | .sbpre sd ss bm m => Sys2Proof.Machine.execSbpre sd ss bm m s
  | .sbpost sd ss bm m => Sys2Proof.Machine.execSbpost sd ss bm m s
  | .sbinvs td ts dir => Sys2Proof.Machine.execSbinvs td ts dir s
  | .sbmix td ts dir k r => Sys2Proof.Machine.execSbmix td ts dir k r s

end Sys2Proof.Machine
end

