-- ==== Sys2Proof/Machine/Issue.lean ====
section
/-! DEFINITION. What the unit does with one presented word (`30_encoding.md` R70), and with a `RESET` that cuts a command short
(`70_reset_and_hazards.md` R201, `93_implementation_defined.md` U3). -/

namespace Sys2Proof.Machine

/-- `decode_and_execute(c)` (R70). A word that is no legal command raises `IllegalCommand` with `FINFO = 0` (R173), unless the
unit is in the fault state, which refuses it (step 0, R186); the meanings hold the same gate for the legal ones. -/
def issue (c : Word) (s : State) : Result :=
  match decode c with
  | .ok i => exec i s
  | .error _ => whenReady s (enterFault c .illegalCommand 0#32 s)

/-- The destination range in memory of a command: its first address and its length in bytes, `none` where the command writes
no memory (R59). A range that does not lie in memory is no destination: the command would fault before any write (R52). -/
def destRange (i : Instr) (s : State) : Option (Nat × Nat) :=
  match i with
  | .mwr addr _ => some (addr.toNat, 1)
  | .stb _ addr => some (addr.toNat, 1)
  | .stbx _ addr bi => if indexedAddress s addr bi < Config.memSize then some (indexedAddress s addr bi, 1) else none
  | .pst _ bn addr => if inRange addr.toNat (s.readB bn).toNat then some (addr.toNat, (s.readB bn).toNat) else none
  | .sbid sd | .sbinv sd _ | .sbcomp sd _ _ | .sbpre sd _ _ _ | .sbpost sd _ _ _ => some (slotAddr sd, 256)
  | .sbinvs td _ _ | .sbmix td _ _ _ _ => some (setAddr td, 4096)
  | .nop | .rdcr _ | .rdb _ | .mrd _ | .ldb _ _ | .ldbx _ _ _
  | .fldi _ _ | .fmov _ _ | .fadd _ _ _ | .fmul _ _ _ _ | .fdiv _ _ _ _ | .finv _ _ _ | .fred _ _ _ _ | .modp _ | .lane _ _ _
  | .pclr _ | .pmov _ _ | .pput _ _ _ | .pget _ _ _ | .plen _ _ | .pld _ _ _ | .pcmp _ _ _
  | .padd _ _ _ | .pshu _ _ _ | .pshd _ _ _ | .pmul _ _ _ _ | .pdiv _ _ _ _ _ | .pmonic _ _ _ | .pxeu _ _ _ _
  | .sbchk _ _ => none

/-- The range a cut-short word may have written: none for an illegal word, and none in the fault state, where every word that
writes is refused (R186). -/
def cutRange (c : Word) (s : State) : Option (Nat × Nat) :=
  if s.faulted then none
  else
    match decode c with
    | .ok i => destRange i s
    | .error _ => none

/-- The free bytes of the `n`-th cut-short command at `a .. a+len-1` (assumption log 5). -/
def freeBytes (n a len : Nat) : List Byte := (List.range len).map (fun j => Config.cutShortByte n (a + j))

/-- `RESET` while the word `c` executes: the registers and the fault record take their reset values, the bytes of the
destination range are unspecified, no response is produced (R201, U3). -/
def State.resetCuttingShort (c : Word) (s : State) : State :=
  let m :=
    match cutRange c s with
    | some (a, len) => s.mem.writeBytes a (freeBytes s.cuts a len)
    | none => s.mem
  { s.assertReset with mem := m, cuts := s.cuts + 1 }

end Sys2Proof.Machine
end

