-- ==== Sys2Proof/Machine/Step.lean ====
section
/-! DEFINITION. One step: the unit takes the next event of the host (`00_scope.md` R3, R7). -/

namespace Sys2Proof.Machine

/-- One step takes the next event the host presents; with none, the unit holds its state (R7, R189). -/
def step (s : State) : Host.Outcome State Fault Refusal :=
  match s.host with
  | [] => .next s
  | .command c :: rest => issue c { s with host := rest }
  | .reset :: rest => .next (State.assertReset { s with host := rest })
  | .resetDuring c :: rest => .next (State.resetCuttingShort c { s with host := rest })

/-- `s` with the word `w` presented on the `CMD` port as the very next event (assumption log 3). -/
def State.withFetchWord (s : State) (nbits w : Nat) : State :=
  { s with host := .command (BitVec.ofNat 32 (w % 2 ^ nbits)) :: s.host }

end Sys2Proof.Machine
end

