-- ==== Sys2Proof/Safety.lean ====
section
/-! DEFINITION. The terms claims are stated in: when the unit accepts a command, what it means that a command completes with one
written destination and nothing else, the invariant of `10_state.md` R44, and what a clean run is. -/

namespace Sys2Proof.Machine

/-- The unit is not in the fault state: it executes every command (R186). -/
def State.ready (s : State) : Prop := s.faulted = false

/-! ### Frames -/

/-- No byte register changed. -/
def SameB (s t : State) : Prop := ∀ r, t.readB r = s.readB r
/-- No polynomial register changed. -/
def SameP (s t : State) : Prop := ∀ r, t.readP r = s.readP r
/-- No byte of memory changed. -/
def SameM (s t : State) : Prop := ∀ a, t.readM a = s.readM a
/-- The fault record (`FSR`, `FCW`, `FINFO`) did not change. -/
def SameRecord (s t : State) : Prop := t.fsr = s.fsr ∧ t.fcw = s.fcw ∧ t.finfo = s.finfo
/-- The model's own fields but the response did not change. -/
def SameModel (s t : State) : Prop := t.modtab = s.modtab ∧ t.host = s.host ∧ t.cuts = s.cuts

/-- The command `i` completes in `s`: byte register `bd` gets `v`, nothing else changes, `RDATA = 0`. -/
def CompletesB (i : Instr) (s : State) (bd : BReg) (v : Byte) : Prop :=
  ∃ t, exec i s = .next t ∧ t.readB bd = v ∧ (∀ r, r ≠ bd → t.readB r = s.readB r) ∧
    SameP s t ∧ SameM s t ∧ SameRecord s t ∧ SameModel s t ∧ t.rsp = some ⟨s.fsr, 0#32⟩

/-- The command `i` completes in `s`: polynomial register `pd` gets `q`, nothing else changes, `RDATA = 0`. -/
def CompletesP (i : Instr) (s : State) (pd : PReg) (q : Poly) : Prop :=
  ∃ t, exec i s = .next t ∧ t.readP pd = q ∧ (∀ r, r ≠ pd → t.readP r = s.readP r) ∧
    SameB s t ∧ SameM s t ∧ SameRecord s t ∧ SameModel s t ∧ t.rsp = some ⟨s.fsr, 0#32⟩

/-- The command `i` completes in `s`: the byte of memory at every address `x` in `a .. a+n-1` becomes `v (x - a)`, nothing else
changes, `RDATA = 0`. -/
def CompletesM (i : Instr) (s : State) (a n : Nat) (v : Nat → Byte) : Prop :=
  ∃ t, exec i s = .next t ∧ (∀ x, t.readM x = if a ≤ x ∧ x < a + n then v (x - a) else s.readM x) ∧
    SameB s t ∧ SameP s t ∧ SameRecord s t ∧ SameModel s t ∧ t.rsp = some ⟨s.fsr, 0#32⟩

/-- The command `i` completes in `s`: nothing changes, `RDATA = d`. -/
def CompletesR (i : Instr) (s : State) (d : Word) : Prop :=
  ∃ t, exec i s = .next t ∧ SameB s t ∧ SameP s t ∧ SameM s t ∧ SameRecord s t ∧ SameModel s t ∧ t.rsp = some ⟨s.fsr, d⟩

/-- The command `i` faults in `s` with cause `x` and `FINFO = info`: the record is written as R185 says with the command's own
word in `FCW`, no register and no byte of memory changes, `RDATA = 0`. -/
def Faults (i : Instr) (s : State) (x : Cause) (info : Nat) : Prop :=
  ∃ t, exec i s = .next t ∧ t.fsr = 0x80#8 ||| x.code ∧ t.fcw = encode i ∧ t.finfo = BitVec.ofNat 32 info ∧
    SameB s t ∧ SameP s t ∧ SameM s t ∧ SameModel s t ∧ t.rsp = some ⟨0x80#8 ||| x.code, 0#32⟩

/-! ### Tables in memory, in the terms of `20_memory.md` R53 to R55 -/

/-- Entry `k` of the S-box in slot `sl`: `M[256·sl + k]` (R53). -/
def slotEntry (s : State) (sl : Slot) (k : Byte) : Byte := s.readM (256 * sl.val + k.toNat)
/-- Entry `k` of lane `i` of set `t`: `M[4096·t + 256·i + k]` (R53, R54). -/
def laneEntry (s : State) (t : SlotSet) (i : Lane) (k : Byte) : Byte := s.readM (4096 * t.val + 256 * i.val + k.toNat)
/-- A table, as a function, is a permutation of the bytes: every value occurs (R140). -/
def IsBijection (f : Byte → Byte) : Prop := ∀ v, ∃ k, f k = v
/-- Multiplier of layer `L`, lane `i`, of the list of layers at record `r`: `M[32·(r+L) + i]` (R55). -/
def mixMult (s : State) (r L : Nat) (i : Lane) : Byte := s.readM (32 * (r + L) + i.val)
/-- Modulus index of layer `L`, lane `i`, of the list of layers at record `r`: `M[32·(r+L) + 16 + i]` (R55). -/
def mixIndex (s : State) (r L : Nat) (i : Lane) : Byte := s.readM (32 * (r + L) + 16 + i.val)

/-! ### What each command may write and raise -/

/-- The rows of R180, less `IllegalCommand`, which is judged before there is a command. -/
def listedFaults : Instr → List Cause
  | .ldbx _ _ _ | .stbx _ _ _ | .pst _ _ _ => [.addressRange]
  | .fmul _ _ _ _ | .fred _ _ _ _ | .modp _ | .sbpost _ _ _ _ => [.illegalModulus]
  | .fdiv _ _ _ _ | .finv _ _ _ | .pdiv _ _ _ _ _ | .pmonic _ _ _ | .pxeu _ _ _ _ | .sbpre _ _ _ _ =>
      [.illegalModulus, .domainError]
  | .pput _ _ _ | .pshu _ _ _ => [.lengthOverflow]
  | .pld _ _ _ => [.addressRange, .lengthOverflow]
  | .pmul _ _ _ _ => [.illegalModulus, .lengthOverflow]
  | .sbinv _ _ | .sbinvs _ _ _ => [.notBijective]
  | .sbmix _ _ _ _ _ => [.addressRange, .illegalModulus, .domainError]
  | _ => []

/-- The commands R31 lists as writing a byte register. -/
def writesByteRegister : Instr → Bool
  | .fldi _ _ | .fmov _ _ | .fadd _ _ _ | .fmul _ _ _ _ | .fdiv _ _ _ _ | .finv _ _ _ | .fred _ _ _ _ | .lane _ _ _
  | .pget _ _ _ | .plen _ _ | .pcmp _ _ _ | .sbchk _ _ | .ldb _ _ | .ldbx _ _ _ => true
  | _ => false

/-- The commands R39 lists as writing a polynomial register. -/
def writesPolynomialRegister : Instr → Bool
  | .pclr _ | .pmov _ _ | .pput _ _ _ | .pld _ _ _ | .padd _ _ _ | .pshu _ _ _ | .pshd _ _ _ | .pmul _ _ _ _
  | .pdiv _ _ _ _ _ | .pmonic _ _ _ | .pxeu _ _ _ _ => true
  | _ => false

/-- The commands that write memory (R59, R202). -/
def writesMemory : Instr → Bool
  | .mwr _ _ | .stb _ _ | .stbx _ _ _ | .pst _ _ _ | .sbid _ | .sbinv _ _ | .sbcomp _ _ _ | .sbpre _ _ _ _
  | .sbpost _ _ _ _ | .sbinvs _ _ _ | .sbmix _ _ _ _ _ => true
  | _ => false

/-! ### The invariant (R44) -/

/-- `FSR` is one of its seven values: 0, or `F = 1` with a cause code of 1 to 6 (R36). -/
def fsrLegal (v : Byte) : Prop := v = 0x00#8 ∨ ∃ x : Cause, v = 0x80#8 ||| x.code

/-- What holds in every state a run reaches: the polynomial registers are canonical and at most 32 long (R44 (a)); `FSR` takes
one of its seven values (R44 (b), R36); with no fault the record is zero (R44 (c)); with one, `FCW` is not the all-zero word
(R44 (d)); memory is in canonical form; `MODTAB` is a legal table; a response carries the current `FSR` (R41). -/
structure State.Inv (s : State) : Prop where
  polys : ∀ r, canonical (s.readP r) = true ∧ (s.readP r).length ≤ Config.pMax
  status : fsrLegal s.fsr
  cleanRecord : s.faulted = false → s.fcw = 0#32 ∧ s.finfo = 0#32
  faultWord : s.faulted = true → s.fcw ≠ 0#32
  memory : s.mem.wf
  moduli : modtabLegal s.modtab = true
  response : ∀ r, s.rsp = some r → r.rstat = s.fsr

/-! ### Runs -/

/-- The unit is in no fault after each of the first `k` steps from `s`. -/
def cleanRun (k : Nat) (s : State) : Prop := ∀ j ≤ k, ∃ t, Host.Core.run Sys2Proof.core j s = .next t ∧ t.ready

/-- The host asserts no `RESET` among the events it will present. -/
def onlyCommands (s : State) : Prop := ∀ e ∈ s.host, ∃ c, e = HostEvent.command c

end Sys2Proof.Machine
end

