-- ==== Sys2Proof/Certificates/Slice0/Obligations.lean ====
section
/-! DEFINITION. What is claimed of the model, for the provers. `UPPER` commands are named as in `30_encoding.md` R71; `ready` is
"not in the fault state"; `CompletesB`, `CompletesP`, `CompletesM`, `CompletesR` and `Faults` (`Sys2Proof/Safety.lean`) each say
that `exec` answers a next state, what that state holds, and that everything else is unchanged. -/

open Sys2Proof Sys2Proof.Machine

namespace Sys2Proof.Claims

/-! ### Vocabulary of the statements -/

/-- `(match, mask)` of the 41 rows of `spec/opcode_table.json`, in its order. -/
def tableRows : List (Word × Word) := [
    (0x00000000#32, 0xFFFFFFFF#32),
    (0x01000000#32, 0xFFFFFFF8#32),
    (0x02000000#32, 0xFF0FFFFF#32),
    (0x10000000#32, 0xFF008000#32),
    (0x11000000#32, 0xFFFF8000#32),
    (0x12000000#32, 0xFF0F8000#32),
    (0x13000000#32, 0xFF0F8000#32),
    (0x14000000#32, 0xFF008000#32),
    (0x15000000#32, 0xFF008000#32),
    (0x20000000#32, 0xFF0FFF00#32),
    (0x21000000#32, 0xFF00FFFF#32),
    (0x22000000#32, 0xFF000FFF#32),
    (0x23000000#32, 0xFF000FE0#32),
    (0x24000000#32, 0xFF000FE0#32),
    (0x25000000#32, 0xFF00FFE0#32),
    (0x26000000#32, 0xFF000FE0#32),
    (0x27000000#32, 0xFFFFFFE0#32),
    (0x28000000#32, 0xFF00FFFE#32),
    (0x30000000#32, 0xFF8FFFFF#32),
    (0x31000000#32, 0xFF88FFFF#32),
    (0x32000000#32, 0xFF80FF00#32),
    (0x33000000#32, 0xFF08FF00#32),
    (0x34000000#32, 0xFF08FFFF#32),
    (0x35000000#32, 0xFF808000#32),
    (0x36000000#32, 0xFF808000#32),
    (0x37000000#32, 0xFF088FFF#32),
    (0x40000000#32, 0xFF888FFF#32),
    (0x41000000#32, 0xFF88FF00#32),
    (0x42000000#32, 0xFF88FF00#32),
    (0x43000000#32, 0xFF888FE0#32),
    (0x44000000#32, 0xFF8888E0#32),
    (0x45000000#32, 0xFF88FFE0#32),
    (0x46000000#32, 0xFF888FE0#32),
    (0x50000000#32, 0xFF01FFFF#32),
    (0x51000000#32, 0xFFFE021F#32),
    (0x52000000#32, 0xFF0003FF#32),
    (0x53000000#32, 0xFF000007#32),
    (0x54000000#32, 0xFF000200#32),
    (0x55000000#32, 0xFF000200#32),
    (0x56000000#32, 0xFF01FFFF#32),
    (0x57000000#32, 0xFF001C00#32)]

/-- A legal command word: it matches a row of the table; for `RDCR` moreover `imm8 ≤ 4`, for `PDIV` moreover `A ≠ B` (R68). -/
def legalWord (c : Word) : Prop :=
  (∃ row ∈ tableRows, c &&& row.2 = row.1) ∧
  (c.extractLsb' 24 8 = 0x01#8 → (c.extractLsb' 0 8).toNat ≤ 4) ∧
  (c.extractLsb' 24 8 = 0x44#8 → c.extractLsb' 20 4 ≠ c.extractLsb' 16 4)

/-- A well-formed `RDCR`: opcode 0x01, `c[23:8] = 0`, `c[7:0] ≤ 4` (R70 step 0). -/
def rdcrWord (c : Word) : Prop :=
  c.extractLsb' 24 8 = 0x01#8 ∧ c.extractLsb' 8 16 = 0#16 ∧ (c.extractLsb' 0 8).toNat ≤ 4

/-- Nothing of the unit or the model changed but the response port. -/
def OnlyResponse (s t : State) (d : Word) : Prop :=
  SameB s t ∧ SameP s t ∧ SameM s t ∧ SameRecord s t ∧ SameModel s t ∧ t.rsp = some ⟨s.fsr, d⟩

/-- The pair of layer `L`, lane `i` is usable: index below 30 and multiplier not zero (R55). -/
def goodPair (s : State) (r L : Nat) (i : Lane) : Prop := (mixIndex s r L i).toNat < 30 ∧ mixMult s r L i ≠ 0#8

/-- Every pair before layer `L`, lane `i` in the scan of `SBMIX` is usable: layers ascending, lanes ascending (R149). -/
def goodBefore (s : State) (r L : Nat) (i : Lane) : Prop :=
  ∀ L' i', L' < L ∨ (L' = L ∧ i'.val < i.val) → goodPair s r L' i'

/-- The pairs of one lane in `k` layers from record `r`, first layer first (R141). -/
def pairsOf (s : State) (r k : Nat) (i : Lane) : List (Byte × Modulus) :=
  (List.range k).map (fun L => (mixMult s r L i, (s.modtab[(mixIndex s r L i).toNat]?).getD 0#9))

/-- `p` is below `q` in the ordering of R112: length first, then coefficients high to low, as unsigned integers. -/
def polyBelow (p q : Poly) : Prop :=
  p.length < q.length ∨
  (p.length = q.length ∧ ∃ j < p.length, (coef p j).toNat < (coef q j).toNat ∧
    ∀ k, j < k → k < p.length → coef p k = coef q k)

/-- When R172 and the priority order of R179 give `DomainError` for a command with distinct results. -/
def domainErrorOf (i : Instr) (s : State) : Prop :=
  match i with
  | .fdiv _ _ bb m => m.val < 30 ∧ s.readB bb = 0#8
  | .finv _ ba m => m.val < 30 ∧ s.readB ba = 0#8
  | .pdiv _ _ _ pb m => m.val < 30 ∧ (s.readP pb).length = 0
  | .pmonic _ pa m => m.val < 30 ∧ (s.readP pa).length = 0
  | .pxeu _ _ pb m => m.val < 30 ∧ (s.readP pb).length = 0
  | .sbpre _ _ bm m => m.val < 30 ∧ s.readB bm = 0#8
  | .sbmix _ _ _ k r => r.val + k.val ≤ 1024 ∧ ∃ L < k.val, ∃ i,
      (mixIndex s r.val L i).toNat < 30 ∧ mixMult s r.val L i = 0#8 ∧ goodBefore s r.val L i
  | _ => False

/-- When R174 and R179 give `IllegalModulus` with `FINFO = n`: the `m` field is 30 or 31, or `SBMIX` meets an index byte of 30
or more first. -/
def illegalModulusOf (i : Instr) (s : State) (n : Nat) : Prop :=
  match i with
  | .fmul _ _ _ m | .fdiv _ _ _ m | .finv _ _ m | .fred _ _ _ m | .modp m
  | .pmul _ _ _ m | .pdiv _ _ _ _ m | .pmonic _ _ m | .pxeu _ _ _ m | .sbpre _ _ _ m | .sbpost _ _ _ m =>
      30 ≤ m.val ∧ n = m.val
  | .sbmix _ _ _ k r => r.val + k.val ≤ 1024 ∧ ∃ L < k.val, ∃ i,
      30 ≤ (mixIndex s r.val L i).toNat ∧ n = (mixIndex s r.val L i).toNat ∧ goodBefore s r.val L i
  | _ => False

/-- When R175 gives `AddressRange` with `FINFO = n`. -/
def addressRangeOf (i : Instr) (s : State) (n : Nat) : Prop :=
  match i with
  | .ldbx _ addr bi | .stbx _ addr bi => 32768 ≤ n ∧ n = addr.toNat + (s.readB bi).toNat
  | .pld _ bn addr | .pst _ bn addr =>
      1 ≤ (s.readB bn).toNat ∧ 32768 < addr.toNat + (s.readB bn).toNat ∧ n = 32768
  | .sbmix _ _ _ k r => 1 ≤ k.val ∧ 1024 < r.val + k.val ∧ n = 32768
  | _ => False

/-- When R176 and R179 give `LengthOverflow` with `FINFO = n`, the length the result would have had. -/
def lengthOverflowOf (i : Instr) (s : State) (n : Nat) : Prop :=
  match i with
  | .pput _ idx _ => 32 ≤ idx.toNat ∧ n = idx.toNat + 1
  | .pld _ bn addr => addr.toNat + (s.readB bn).toNat ≤ 32768 ∧ 32 < (s.readB bn).toNat ∧ n = (s.readB bn).toNat
  | .pshu _ pa k => s.readP pa ≠ [] ∧ 32 < n ∧ n = (s.readP pa).length + k.toNat
  | .pmul _ pa pb m =>
      m.val < 30 ∧ s.readP pa ≠ [] ∧ s.readP pb ≠ [] ∧ 32 < n ∧ n + 1 = (s.readP pa).length + (s.readP pb).length
  | _ => False

/-- The value `v` is the smallest byte value that `f` does not take (R140). -/
def smallestMissing (f : Byte → Byte) (v : Byte) : Prop := (∀ k, f k ≠ v) ∧ ∀ w : Byte, w.toNat < v.toNat → ∃ k, f k = w

/-- When R177 gives `NotBijective` with `FINFO = n`: for `SBINVS`, `n` is `(lane << 8) | smallest missing value` of the lowest
lane that holds no permutation. -/
def notBijectiveOf (i : Instr) (s : State) (n : Nat) : Prop :=
  match i with
  | .sbinv _ ss => ∃ v, smallestMissing (slotEntry s ss) v ∧ n = v.toNat
  | .sbinvs _ ts _ => ∃ i v, (∀ j : Lane, j.val < i.val → IsBijection (laneEntry s ts j)) ∧
      smallestMissing (laneEntry s ts i) v ∧ n = 256 * i.val + v.toNat
  | _ => False

/-- The XOR of `f 0, ..., f (n-1)`. -/
def xorSum (f : Nat → Byte) (n : Nat) : Byte := (List.range n).foldl (fun acc i => acc ^^^ f i) 0#8

/-- The product of a byte and a 9-bit value over GF(2), before any reduction. -/
def clmulModulus (q : Byte) (P : Modulus) : BitVec 16 :=
  (List.range 8).foldl (fun acc i => if q.getLsbD i then acc ^^^ (P.setWidth 16 <<< i) else acc) 0#16

end Sys2Proof.Claims

open Sys2Proof.Claims

/-! ### The command word -/

/-- Decoding the word of a command gives the command back, for every command and every value of every operand. -/
def Obligations.DecodeOfEncodeIsIdentity : Prop :=
  ∀ i : Instr, i.distinctResults = true → decode (encode i) = .ok i

/-- A word that decodes to a command is that command's one word: no bit of a legal word is ignored. -/
def Obligations.EncodeOfDecodeIsIdentity : Prop :=
  ∀ (c : Word) (i : Instr), decode c = .ok i → encode i = c ∧ i.distinctResults = true

/-- The worked encodings of `30_encoding.md` section 9 (which the spec marks as derived from R66 and the opcode
map), one word per format. -/
def Obligations.WorkedEncodingsDecode : Prop :=
  decode 0x00000000#32 = .ok .nop ∧
  decode 0x23201000#32 = .ok (.fmul 2 0 1 0) ∧
  decode 0x20000053#32 = .ok (.fldi 0 0x53#8) ∧
  decode 0x14310200#32 = .ok (.ldbx 3 0x0200#15 1) ∧
  decode 0x10C37000#32 = .ok (.mwr 0x7000#15 0xC3#8) ∧
  decode 0x54020041#32 = .ok (.sbpre 1 0 2 1) ∧
  decode 0x53060410#32 = .ok (.sbcomp 3 1 2) ∧
  decode 0x57204380#32 = .ok (.sbmix 1 0 .fwd 2 896)

/-- A ready unit raises `IllegalCommand` exactly on the words that are no legal encoding, with `FCW` the word, `FINFO = 0` and
nothing else changed. -/
def Obligations.IllegalCommandExactlyOnIllegalWords : Prop :=
  ∀ (s : State) (c : Word) (rest : List HostEvent), s.ready → s.host = .command c :: rest →
    ∃ t, step s = .next t ∧ (t.fsr = 0x82#8 ↔ ¬ legalWord c) ∧
      (¬ legalWord c → t.fcw = c ∧ t.finfo = 0#32 ∧ SameB s t ∧ SameP s t ∧ SameM s t ∧
        t.modtab = s.modtab ∧ t.host = rest ∧ t.cuts = s.cuts ∧ t.rsp = some ⟨0x82#8, 0#32⟩)

/-! ### Steps -/

/-- When the next event is a word that decodes to `i`, the step is `exec i` with the event taken. That the words come from a list
of host events in the state is the model's choice (assumption log 3). -/
def Obligations.StepRunsTheDecodedCommand : Prop :=
  ∀ (s : State) (c : Word) (i : Instr), decode c = .ok i →
    (∀ rest, s.host = .command c :: rest → step s = exec i { s with host := rest }) ∧
    step (s.withFetchWord 32 c.toNat) = exec i s

/-- With no event presented the unit holds its state (R189). That a step happens then at all is the model's choice (assumption
log 3). -/
def Obligations.IdleUnitHoldsItsState : Prop :=
  ∀ s : State, s.host = [] → step s = .next s

/-- The reset event gives every register and the fault record its reset value, lowers the `FAULT` port, leaves memory as it was
and produces no response. The list of events and the response port are the model's fields (assumption logs 3 and 4). -/
def Obligations.ResetClearsEverythingButMemory : Prop :=
  ∀ (s : State) (rest : List HostEvent), s.host = .reset :: rest →
    ∃ t, step s = .next t ∧ (∀ r, t.readB r = 0#8) ∧ (∀ r, t.readP r = []) ∧
      t.fsr = 0x00#8 ∧ t.fcw = 0x00000000#32 ∧ t.finfo = 0x00000000#32 ∧ SameM s t ∧
      t.faultPort = false ∧ t.rsp = none ∧ t.modtab = s.modtab ∧ t.host = rest

/-- A `RESET` that cuts the word `c` short also gives every register and the record its reset value, and changes no byte of
memory outside `cutRange c`, the destination range of the command, which is empty for a word that writes no memory. The model's
choice (assumption log 5): U3 lets a model refuse this event; this one represents it with free bytes. -/
def Obligations.CutShortResetTouchesOnlyTheDestinationRange : Prop :=
  ∀ (s : State) (c : Word) (rest : List HostEvent), s.host = .resetDuring c :: rest →
    ∃ t, step s = .next t ∧ (∀ r, t.readB r = 0#8) ∧ (∀ r, t.readP r = []) ∧
      t.fsr = 0x00#8 ∧ t.fcw = 0x00000000#32 ∧ t.finfo = 0x00000000#32 ∧ t.rsp = none ∧
      (∀ x, (∀ a n, cutRange c s = some (a, n) → ¬ (a ≤ x ∧ x < a + n)) → t.readM x = s.readM x) ∧
      (∀ i, decode c = .ok i → writesMemory i = false → SameM s t)

/-- Every step from every state answers a next state: no command loops, stops or is left without a meaning (R207, which the spec
marks as derived from R109, R111, R148 and R149). -/
def Obligations.EveryStepAnswersANextState : Prop :=
  ∀ s : State, ∃ t, step s = .next t

/-- Every response carries the `FSR` of the state after the command. That the last response stays in the state is the model's
choice (assumption log 4). -/
def Obligations.EveryResponseCarriesFsr : Prop :=
  ∀ (s t : State) (c : Word) (rest : List HostEvent), s.host = .command c :: rest → step s = .next t →
    ∃ r, t.rsp = some r ∧ r.rstat = t.fsr

/-! ### Faults -/

/-- A word that takes a ready unit into the fault state has no other effect: the record holds one of the six causes and that very
word; no register and no byte of memory changes; the response is the new `FSR` and 0. -/
def Obligations.FaultsArePrecise : Prop :=
  ∀ (s t : State) (c : Word) (rest : List HostEvent), s.ready → s.host = .command c :: rest → step s = .next t →
    t.faulted = true →
      (∃ x : Cause, t.fsr = 0x80#8 ||| x.code) ∧ t.fcw = c ∧ SameB s t ∧ SameP s t ∧ SameM s t ∧
      t.modtab = s.modtab ∧ t.host = rest ∧ t.rsp = some ⟨t.fsr, 0#32⟩

/-- In the fault state a well-formed `RDCR` returns its control register, every other word is refused, nothing but the response
changes in either case, and the reset event leaves the fault state with everything but memory cleared. -/
def Obligations.FaultStateExecutesOnlyRdcrUntilReset : Prop :=
  ∀ s : State, s.faulted = true →
    (∀ c rest, s.host = .command c :: rest →
      (rdcrWord c → ∃ cr, cregBits cr = c.extractLsb' 0 8 ∧
        ∃ t, step s = .next t ∧ OnlyResponse { s with host := rest } t (s.controlReg cr)) ∧
      (¬ rdcrWord c → ∃ t, step s = .next t ∧ OnlyResponse { s with host := rest } t 0#32)) ∧
    (∀ rest, s.host = .reset :: rest → ∃ t, step s = .next t ∧ t.faulted = false ∧
      t.fsr = 0#8 ∧ t.fcw = 0#32 ∧ t.finfo = 0#32 ∧ (∀ r, t.readB r = 0#8) ∧ (∀ r, t.readP r = []) ∧ SameM s t)

/-- `DomainError` is raised by exactly the commands and conditions of R172, an earlier check of R179 permitting; `FINFO` is 0. -/
def Obligations.DomainErrorExactly : Prop :=
  ∀ (i : Instr) (s t : State), s.ready → i.distinctResults = true → exec i s = .next t →
    (t.fsr = 0x81#8 ↔ domainErrorOf i s) ∧ (domainErrorOf i s → t.finfo = 0#32)

/-- `IllegalModulus` is raised exactly for an `m` field of 30 or 31 and for the first bad mix pair with an index of 30 or more,
and `FINFO` is that index. -/
def Obligations.IllegalModulusExactly : Prop :=
  ∀ (i : Instr) (s t : State), s.ready → i.distinctResults = true → exec i s = .next t →
    (t.fsr = 0x83#8 ↔ ∃ n, illegalModulusOf i s n) ∧
    ∀ n, illegalModulusOf i s n → t.finfo = BitVec.ofNat 32 n

/-- `AddressRange` is raised exactly as R175 says, before any effect, with its `FINFO`. -/
def Obligations.AddressRangeExactly : Prop :=
  ∀ (i : Instr) (s t : State), s.ready → exec i s = .next t →
    (t.fsr = 0x84#8 ↔ ∃ n, addressRangeOf i s n) ∧
    ∀ n, addressRangeOf i s n → 32768 ≤ n ∧ n ≤ 33022 ∧ t.finfo = BitVec.ofNat 32 n ∧ SameB s t ∧ SameP s t ∧ SameM s t

/-- `LengthOverflow` is raised exactly where the result would be longer than 32, an earlier check of R179 permitting, and `FINFO`
is the length it would have had. For a length of 256 (`PPUT`) to 287 (`PSHU`) that `FINFO` is the model's choice between R176 and the
range of R178 (assumption log 18). -/
def Obligations.LengthOverflowExactly : Prop :=
  ∀ (i : Instr) (s t : State), s.ready → exec i s = .next t →
    (t.fsr = 0x85#8 ↔ ∃ n, lengthOverflowOf i s n) ∧
    ∀ n, lengthOverflowOf i s n → t.finfo = BitVec.ofNat 32 n ∧ SameB s t ∧ SameP s t ∧ SameM s t

/-- `NotBijective` is raised exactly by `SBINV` and `SBINVS` on a table that is no permutation, with the `FINFO` of R177. -/
def Obligations.NotBijectiveExactly : Prop :=
  ∀ (i : Instr) (s t : State), s.ready → exec i s = .next t →
    (t.fsr = 0x86#8 ↔ ∃ n, notBijectiveOf i s n) ∧
    ∀ n, notBijectiveOf i s n → t.finfo = BitVec.ofNat 32 n ∧ SameB s t ∧ SameP s t ∧ SameM s t

/-- A legal command raises no fault but those R180 lists for it; the spec marks R180 as derived from R172 to R177. -/
def Obligations.CommandsRaiseOnlyTheirListedFaults : Prop :=
  ∀ (i : Instr) (s t : State), s.ready → i.distinctResults = true → exec i s = .next t → t.faulted = true →
    ∃ x ∈ listedFaults i, t.fsr = 0x80#8 ||| x.code

/-! ### System and data movement -/

/-- `NOP`, `RDB`, `MRD` and `MODP` change nothing and respond with 0, the register, the byte, the modulus. -/
def Obligations.ResponseCommandsComplete : Prop :=
  ∀ s : State, s.ready →
    CompletesR .nop s 0#32 ∧
    (∀ bs, CompletesR (.rdb bs) s ((s.readB bs).setWidth 32)) ∧
    (∀ addr, CompletesR (.mrd addr) s ((s.readM addr.toNat).setWidth 32)) ∧
    (∀ (m : ModIdx) (h : m.val < 30), CompletesR (.modp m) s ((s.modtab[m.val]'h).setWidth 32))

/-- `RDCR` reads every control register in every state, the fault state too; `ID` and `CAP` are the constants, and `CAP` holds
the parameters in its fields. -/
def Obligations.RdcrReadsEveryControlRegister : Prop :=
  (∀ s : State, CompletesR (.rdcr .id) s 0x57424701#32 ∧ CompletesR (.rdcr .cap) s 0x108F1E20#32 ∧
    CompletesR (.rdcr .fsr) s (s.fsr.setWidth 32) ∧ CompletesR (.rdcr .fcw) s s.fcw ∧ CompletesR (.rdcr .finfo) s s.finfo) ∧
  (0x108F1E20#32).extractLsb' 0 8 = BitVec.ofNat 8 Config.pMax ∧ (0x108F1E20#32).extractLsb' 8 8 = BitVec.ofNat 8 Config.nMod ∧
  2 ^ ((0x108F1E20#32).extractLsb' 16 4).toNat = Config.memSize ∧ (0x108F1E20#32).extractLsb' 20 4 = 8#4 ∧
  (0x108F1E20#32).extractLsb' 24 5 = 16#5 ∧ (0x108F1E20#32).extractLsb' 29 3 = 0#3

/-- `LDB` and, for an effective address inside memory, `LDBX` load the byte and change nothing else. -/
def Obligations.LoadsComplete : Prop :=
  ∀ (s : State) (bd : BReg) (addr : Addr), s.ready →
    CompletesB (.ldb bd addr) s bd (s.readM addr.toNat) ∧
    ∀ bi, addr.toNat + (s.readB bi).toNat < 32768 →
      CompletesB (.ldbx bd addr bi) s bd (s.readM (addr.toNat + (s.readB bi).toNat))

/-- `MWR`, `STB` and, for an effective address inside memory, `STBX` store one byte at the address and change nothing else. -/
def Obligations.StoresComplete : Prop :=
  ∀ (s : State) (addr : Addr), s.ready →
    (∀ imm, CompletesM (.mwr addr imm) s addr.toNat 1 (fun _ => imm)) ∧
    (∀ bs, CompletesM (.stb bs addr) s addr.toNat 1 (fun _ => s.readB bs)) ∧
    ∀ bs bi, addr.toNat + (s.readB bi).toNat < 32768 →
      CompletesM (.stbx bs addr bi) s (addr.toNat + (s.readB bi).toNat) 1 (fun _ => s.readB bs)

/-! ### Field commands -/

/-- `FLDI`, `FMOV`, `FADD` and `LANE` write their destination; `LANE` uses the low four bits of its source and the remap formula
of its direction, over the integers. -/
def Obligations.FieldMovesComplete : Prop :=
  ∀ (s : State) (bd ba bb : BReg), s.ready →
    (∀ imm, CompletesB (.fldi bd imm) s bd imm) ∧
    CompletesB (.fmov bd ba) s bd (s.readB ba) ∧
    CompletesB (.fadd bd ba bb) s bd (s.readB ba ^^^ s.readB bb) ∧
    (∃ v, CompletesB (.lane bd ba .fwd) s bd v ∧
      (v.toNat : Int) = ((((s.readB ba).toNat % 16 : Nat) : Int) + 4 * ((s.readB ba).toNat % 4 : Nat)) % 16) ∧
    (∃ v, CompletesB (.lane bd ba .bwd) s bd v ∧
      (v.toNat : Int) = ((((s.readB ba).toNat % 16 : Nat) : Int) - 4 * ((s.readB ba).toNat % 4 : Nat)) % 16)

/-- `FMUL` writes the carry-less product reduced relative to `MODTAB[m]`, `FRED` the 16-bit value `b[ba] : b[bb]` reduced. -/
def Obligations.FmulAndFredComplete : Prop :=
  ∀ (s : State) (bd ba bb : BReg) (m : ModIdx) (h : m.val < 30), s.ready →
    CompletesB (.fmul bd ba bb m) s bd (gfred ((clmul8 (s.readB ba) (s.readB bb)).setWidth 16) (s.modtab[m.val]'h)) ∧
    CompletesB (.fred bd ba bb m) s bd (gfred (s.readB ba ++ s.readB bb) (s.modtab[m.val]'h))

/-- `FDIV` by a non-zero register writes the one byte whose product with the divisor is the dividend. -/
def Obligations.FdivWritesTheUniqueQuotient : Prop :=
  ∀ (s : State) (bd ba bb : BReg) (m : ModIdx) (h : m.val < 30), s.ready → irreducible8 (s.modtab[m.val]'h) = true →
    s.readB bb ≠ 0#8 →
    ∃ y, CompletesB (.fdiv bd ba bb m) s bd y ∧ fmul y (s.readB bb) (s.modtab[m.val]'h) = s.readB ba ∧
      ∀ z, fmul z (s.readB bb) (s.modtab[m.val]'h) = s.readB ba → z = y

/-- `FINV` of a non-zero register writes the one byte whose product with it is 1. -/
def Obligations.FinvWritesTheUniqueInverse : Prop :=
  ∀ (s : State) (bd ba : BReg) (m : ModIdx) (h : m.val < 30), s.ready → irreducible8 (s.modtab[m.val]'h) = true →
    s.readB ba ≠ 0#8 →
    ∃ y, CompletesB (.finv bd ba m) s bd y ∧ fmul (s.readB ba) y (s.modtab[m.val]'h) = 0x01#8 ∧
      ∀ z, fmul (s.readB ba) z (s.modtab[m.val]'h) = 0x01#8 → z = y

/-- `clmul8` is the XOR of shifted copies, bit `k` the XOR over `i` of `b[i]` and `a[k-i]`: the product of two polynomials over
GF(2) of degree at most 7, symmetric, with 0 and 1 as they should be (R87, which the spec marks as derived from R85). -/
def Obligations.ClmulIsThePolynomialProduct : Prop :=
  ∀ a b : Byte,
    (clmul8 a b = (List.range 8).foldl (fun acc i => acc ^^^ (if b.getLsbD i then a.setWidth 15 <<< i else 0#15)) 0#15) ∧
    (∀ k, (clmul8 a b).getLsbD k =
      (List.range 8).foldl (fun acc i => xor acc (b.getLsbD i && (decide (i ≤ k) && a.getLsbD (k - i)))) false) ∧
    clmul8 a b = clmul8 b a ∧ clmul8 a 0#8 = 0#15 ∧ clmul8 a 1#8 = a.setWidth 15

/-- `gfred(v, P)` is the loop of R88, whose pass `i` clears bit `i` and touches only bits below it, so that no high bit is left; it
is the one byte congruent to `v` modulo `P`, fixes bytes, sends `z^8` to `P[7:0]` and is linear. -/
def Obligations.GfredIsReductionRelativeToTheModulus : Prop :=
  ∀ P : Modulus, P.getLsbD 8 = true →
    (∀ v, ([15, 14, 13, 12, 11, 10, 9, 8].foldl (gfredStep P) v) = (gfred v P).setWidth 16) ∧
    (∀ v i, 8 ≤ i → i < 16 → (gfredStep P v i).getLsbD i = false ∧ ∀ j, i < j → (gfredStep P v i).getLsbD j = v.getLsbD j) ∧
    (∀ v, ∃ q, v = clmulModulus q P ^^^ (gfred v P).setWidth 16) ∧
    (∀ (v : BitVec 16) (q r : Byte), v = clmulModulus q P ^^^ r.setWidth 16 → r = gfred v P) ∧
    (∀ v : BitVec 16, v.toNat < 256 → gfred v P = v.setWidth 8) ∧
    gfred 0x0100#16 P = P.setWidth 8 ∧
    (∀ v w, gfred (v ^^^ w) P = gfred v P ^^^ gfred w P)

/-- Reducing `h : l` is multiplying `h` by `P[7:0]` and adding `l` (the identity R99 marks as derived from R88 and R89). -/
def Obligations.ReductionIsMultiplyAndAdd : Prop :=
  ∀ (P : Modulus) (h l : Byte), P.getLsbD 8 = true → gfred (h ++ l) P = fmul h (P.setWidth 8) P ^^^ l

/-- The laws of the field, for every irreducible modulus of degree 8 and all bytes: R102, which the spec marks as derived from R89,
R90, R91 and the field axioms. -/
def Obligations.FieldLawsUnderEveryModulus : Prop :=
  ∀ P : Modulus, irreducible8 P = true → ∀ a b c : Byte,
    fmul a b P = fmul b a P ∧
    (a ≠ 0#8 → fmul a (finv a P) P = 0x01#8) ∧
    fmul (fmul a b P) c P = fmul a (fmul b c P) P ∧
    fmul a (b ^^^ c) P = fmul a b P ^^^ fmul a c P ∧
    fmul a 0x01#8 P = a ∧
    (b ≠ 0#8 → fdiv (fmul a b P) b P = a) ∧
    (a ≠ 0#8 → Function.Bijective (fun k => fmul k a P) ∧
      Function.LeftInverse (fun k => fdiv k a P) (fun k => fmul k a P) ∧
      Function.RightInverse (fun k => fdiv k a P) (fun k => fmul k a P))

/-- The lane remap: its two formulas, permutations that keep the column and undo each other, neither its own inverse. -/
def Obligations.LaneRemapLaws : Prop :=
  (∀ i : Lane, ((laneMap .fwd i).val : Int) = ((i.val : Int) + 4 * ((i.val : Int) % 4)) % 16 ∧
    ((laneMap .bwd i).val : Int) = ((i.val : Int) - 4 * ((i.val : Int) % 4)) % 16) ∧
  (∀ d, Function.Bijective (laneMap d) ∧ ∀ i, (laneMap d i).val % 4 = i.val % 4) ∧
  (∀ i, laneMap .bwd (laneMap .fwd i) = i ∧ laneMap .fwd (laneMap .bwd i) = i) ∧
  (∀ i, (laneMap .fwd (laneMap .fwd i)).val = (i.val + 8 * (i.val % 4)) % 16) ∧
  (∀ i : Lane, i.val % 4 = 1 ∨ i.val % 4 = 3 → (laneMap .fwd (laneMap .fwd i)).val = (i.val + 8) % 16) ∧
  (∀ i : Lane, (laneMap .fwd i).val = 4 * ((i.val / 4 + i.val % 4) % 4) + i.val % 4) ∧
  (List.finRange 16).map (fun i => (laneMap .fwd i).val) = [0, 5, 10, 15, 4, 9, 14, 3, 8, 13, 2, 7, 12, 1, 6, 11] ∧
  (List.finRange 16).map (fun i => (laneMap .bwd i).val) = [0, 13, 10, 7, 4, 1, 14, 11, 8, 5, 2, 15, 12, 9, 6, 3]

/-- The default `MODTAB` lists, in ascending order, exactly the 9-bit values that pass the irreducibility test of R86. -/
def Obligations.DefaultModtabIsEveryIrreducibleInOrder : Prop :=
  Config.defaultModtab.toList = ((List.range 512).map (BitVec.ofNat 9)).filter irreducible8

/-! ### Polynomial commands -/

/-- `PCLR`, `PMOV`, `PSHU` and `PSHD` write their destination: nothing, the source, the source moved up by `n` places with zeros
below (when it fits, and always for the zero polynomial), the source without its `n` lowest coefficients. -/
def Obligations.PolynomialMovesComplete : Prop :=
  ∀ (s : State) (pd pa : PReg) (n : Byte), s.ready →
    CompletesP (.pclr pd) s pd [] ∧
    CompletesP (.pmov pd pa) s pd (s.readP pa) ∧
    (s.readP pa = [] → CompletesP (.pshu pd pa n) s pd []) ∧
    (s.readP pa ≠ [] → (s.readP pa).length + n.toNat ≤ 32 →
      ∃ q, CompletesP (.pshu pd pa n) s pd q ∧ q.length = (s.readP pa).length + n.toNat ∧
        (∀ j < n.toNat, coef q j = 0#8) ∧ ∀ j, coef q (j + n.toNat) = coef (s.readP pa) j) ∧
    ∃ q, CompletesP (.pshd pd pa n) s pd q ∧ q.length = (s.readP pa).length - n.toNat ∧
      ∀ j, coef q j = coef (s.readP pa) (j + n.toNat)

/-- `PGET` reads a coefficient (zero beyond the length), `PLEN` the length, `PCMP` the order code: length first, then
coefficients high to low as unsigned integers. -/
def Obligations.PolynomialReadsComplete : Prop :=
  ∀ (s : State) (bd : BReg) (pa pb : PReg), s.ready →
    (∀ idx, CompletesB (.pget bd pa idx) s bd (if h : idx.toNat < (s.readP pa).length then (s.readP pa)[idx.toNat] else 0#8)) ∧
    CompletesB (.plen bd pa) s bd (BitVec.ofNat 8 (s.readP pa).length) ∧
    ∃ v, CompletesB (.pcmp bd pa pb) s bd v ∧ (v = 0x00#8 ↔ s.readP pa = s.readP pb) ∧
      (v = 0x01#8 ↔ polyBelow (s.readP pb) (s.readP pa)) ∧ (v = 0xFF#8 ↔ polyBelow (s.readP pa) (s.readP pb))

/-- `PADD`, `PPUT` and `PLD` write a canonical polynomial, given by its coefficients: the XOR of two; one coefficient replaced; the
bytes of the image in memory. -/
def Obligations.PolynomialBuildersComplete : Prop :=
  ∀ (s : State) (pd : PReg), s.ready →
    (∀ pa pb, ∃ q, CompletesP (.padd pd pa pb) s pd q ∧ canonical q = true ∧
      ∀ j, coef q j = coef (s.readP pa) j ^^^ coef (s.readP pb) j) ∧
    (∀ (idx : Byte) (bs : BReg), idx.toNat < 32 → ∃ q, CompletesP (.pput pd idx bs) s pd q ∧ canonical q = true ∧
      ∀ j, coef q j = if j = idx.toNat then s.readB bs else coef (s.readP pd) j) ∧
    (∀ (bn : BReg) (addr : Addr), (s.readB bn).toNat ≤ 32 → addr.toNat + (s.readB bn).toNat ≤ 32768 →
      ∃ q, CompletesP (.pld pd bn addr) s pd q ∧ canonical q = true ∧
        ∀ j, coef q j = if j < (s.readB bn).toNat then s.readM (addr.toNat + j) else 0#8)

/-- `PST` stores `n` bytes: the low coefficients, then zeros; `n = 0` stores nothing at any address. -/
def Obligations.PstStoresTheImage : Prop :=
  ∀ (s : State) (ps : PReg) (bn : BReg) (addr : Addr), s.ready →
    addr.toNat + (s.readB bn).toNat ≤ 32768 →
    CompletesM (.pst ps bn addr) s addr.toNat (s.readB bn).toNat (fun j => coef (s.readP ps) j)

/-- `PMUL` writes the full convolution: coefficient `k` is the XOR over `i ≤ k` of the field products of coefficients `i` and
`k - i`; the product of two non-zero canonical polynomials has exactly `len + len - 1` coefficients. -/
def Obligations.PmulIsTheFullConvolution : Prop :=
  ∀ (s : State) (pd pa pb : PReg) (m : ModIdx) (h : m.val < 30), s.ready →
    (s.readP pa = [] ∨ s.readP pb = [] ∨ (s.readP pa).length + (s.readP pb).length ≤ 33) →
    ∃ q, CompletesP (.pmul pd pa pb m) s pd q ∧ canonical q = true ∧
      (∀ k, coef q k =
        xorSum (fun i => fmul (coef (s.readP pa) i) (coef (s.readP pb) (k - i)) (s.modtab[m.val]'h)) (k + 1)) ∧
      (irreducible8 (s.modtab[m.val]'h) = true → canonical (s.readP pa) = true → canonical (s.readP pb) = true →
        s.readP pa ≠ [] → s.readP pb ≠ [] → q.length + 1 = (s.readP pa).length + (s.readP pb).length)

/-- `PDIV` writes the one pair of remainder and quotient: the dividend is quotient times divisor plus remainder, and the
remainder is shorter than the divisor; nothing else changes. -/
def Obligations.PdivIsDivisionWithRemainder : Prop :=
  ∀ (s : State) (pr pq pa pb : PReg) (m : ModIdx) (h : m.val < 30), s.ready →
    irreducible8 (s.modtab[m.val]'h) = true → pr ≠ pq →
    canonical (s.readP pa) = true → canonical (s.readP pb) = true → s.readP pb ≠ [] →
    ∃ t, exec (.pdiv pr pq pa pb m) s = .next t ∧
      canonical (t.readP pr) = true ∧ canonical (t.readP pq) = true ∧
      (t.readP pr).length < (s.readP pb).length ∧
      padd (pmul (t.readP pq) (s.readP pb) (s.modtab[m.val]'h)) (t.readP pr) = s.readP pa ∧
      (∀ r q, canonical r = true → canonical q = true → r.length < (s.readP pb).length →
        padd (pmul q (s.readP pb) (s.modtab[m.val]'h)) r = s.readP pa → r = t.readP pr ∧ q = t.readP pq) ∧
      (∀ x, x ≠ pr → x ≠ pq → t.readP x = s.readP x) ∧
      SameB s t ∧ SameM s t ∧ SameRecord s t ∧ SameModel s t ∧ t.rsp = some ⟨s.fsr, 0#32⟩

/-- `PMONIC` of a non-zero polynomial writes the polynomial of the same length with leading coefficient 1 that is a non-zero
constant times the operand; a monic operand is copied. -/
def Obligations.PmonicScalesToLeadingOne : Prop :=
  ∀ (s : State) (pd pa : PReg) (m : ModIdx) (h : m.val < 30), s.ready →
    irreducible8 (s.modtab[m.val]'h) = true → canonical (s.readP pa) = true → s.readP pa ≠ [] →
    ∃ q c, CompletesP (.pmonic pd pa m) s pd q ∧ q.length = (s.readP pa).length ∧ q.getLast? = some 0x01#8 ∧ c ≠ 0#8 ∧
      (∀ j, coef q j = fmul c (coef (s.readP pa) j) (s.modtab[m.val]'h)) ∧
      ((s.readP pa).getLast? = some 0x01#8 → q = s.readP pa)

/-- `PXEU` writes the one inverse of `p` relative to `q` that is shorter than `q`, or the zero polynomial when there is none; it
completes in both cases. -/
def Obligations.PxeuWritesTheInverseOrZero : Prop :=
  ∀ (s : State) (pd pa pb : PReg) (m : ModIdx) (h : m.val < 30), s.ready →
    irreducible8 (s.modtab[m.val]'h) = true →
    canonical (s.readP pa) = true → canonical (s.readP pb) = true → s.readP pb ≠ [] →
    ∃ d, CompletesP (.pxeu pd pa pb m) s pd d ∧ canonical d = true ∧ d.length < (s.readP pb).length ∧
      (d ≠ [] → (pdivmod (pmul (s.readP pa) d (s.modtab[m.val]'h)) (s.readP pb) (s.modtab[m.val]'h)).1 = [0x01#8]) ∧
      (∀ e, canonical e = true → e.length < (s.readP pb).length →
        (pdivmod (pmul (s.readP pa) e (s.modtab[m.val]'h)) (s.readP pb) (s.modtab[m.val]'h)).1 = [0x01#8] → e = d)

/-- The canonical polynomials are closed under `padd` and `pmul` and a commutative ring under them, in which every element is its own
negative: R128, which the spec marks as derived from R106 to R111 and the ring axioms. -/
def Obligations.PolynomialsFormARing : Prop :=
  ∀ P : Modulus, irreducible8 P = true → ∀ p q r : Poly,
    canonical p = true → canonical q = true → canonical r = true →
    canonical (padd p q) = true ∧ canonical (pmul p q P) = true ∧ canonical [] = true ∧ canonical [0x01#8] = true ∧
    padd p q = padd q p ∧ padd (padd p q) r = padd p (padd q r) ∧ padd p [] = p ∧ padd p p = [] ∧
    pmul p q P = pmul q p P ∧ pmul (pmul p q P) r P = pmul p (pmul q r P) P ∧
    pmul p (padd q r) P = padd (pmul p q P) (pmul p r P) ∧ pmul p [0x01#8] P = p

/-! ### S-box commands -/

/-- `SBID` writes the identity, `SBCOMP` the composition (`sb` first, then `sa`), `SBPOST` every entry times the multiplier, a
zero multiplier included; each writes its slot only. -/
def Obligations.SlotWritersComplete : Prop :=
  ∀ (s : State) (sd : Slot), s.ready →
    CompletesM (.sbid sd) s (256 * sd.val) 256 (fun k => BitVec.ofNat 8 k) ∧
    (∀ sa sb, CompletesM (.sbcomp sd sa sb) s (256 * sd.val) 256
      (fun k => slotEntry s sa (slotEntry s sb (BitVec.ofNat 8 k)))) ∧
    (∀ ss bm (m : ModIdx) (h : m.val < 30), CompletesM (.sbpost sd ss bm m) s (256 * sd.val) 256
      (fun k => fmul (slotEntry s ss (BitVec.ofNat 8 k)) (s.readB bm) (s.modtab[m.val]'h)))

/-- `SBPRE` with a non-zero multiplier writes the table that takes `k` times the multiplier to what the source takes `k` to. -/
def Obligations.SbpreUndoesTheMultiplication : Prop :=
  ∀ (s : State) (sd ss : Slot) (bm : BReg) (m : ModIdx) (h : m.val < 30), s.ready →
    irreducible8 (s.modtab[m.val]'h) = true → s.readB bm ≠ 0#8 →
    ∃ f, CompletesM (.sbpre sd ss bm m) s (256 * sd.val) 256 f ∧
      ∀ k, f (fmul k (s.readB bm) (s.modtab[m.val]'h)).toNat = slotEntry s ss k

/-- `SBCHK` writes 1 for a permutation and 0 for any other table. -/
def Obligations.SbchkReportsBijectivity : Prop :=
  ∀ (s : State) (bd : BReg) (ss : Slot), s.ready →
    (IsBijection (slotEntry s ss) → CompletesB (.sbchk bd ss) s bd 0x01#8) ∧
    (¬ IsBijection (slotEntry s ss) → CompletesB (.sbchk bd ss) s bd 0x00#8)

/-- `SBINV` of a permutation writes the inverse permutation: entry `t[j]` of the result is `j`. -/
def Obligations.SbinvInvertsThePermutation : Prop :=
  ∀ (s : State) (sd ss : Slot), s.ready → IsBijection (slotEntry s ss) →
    ∃ f, CompletesM (.sbinv sd ss) s (256 * sd.val) 256 f ∧ ∀ j, f (slotEntry s ss j).toNat = j

/-- `SBINVS` of 16 permutations writes, at lane `lane(dir, i)` of the destination set, the inverse of lane `i`. -/
def Obligations.SbinvsInvertsAndRemapsEveryLane : Prop :=
  ∀ (s : State) (td ts : SlotSet) (dir : Dir), s.ready → (∀ i, IsBijection (laneEntry s ts i)) →
    ∃ f, CompletesM (.sbinvs td ts dir) s (4096 * td.val) 4096 f ∧
      ∀ (i : Lane) (j : Byte), f (256 * (laneMap dir i).val + (laneEntry s ts i j).toNat) = j

/-- Two `SBINVS` in a row bring lane `i` to lane `lane(e, lane(d, i))` with its table unchanged; one in each direction restore the
set of 16 permutations, byte for byte (R150, which the spec marks as derived from R140, R141, R148, R149 and R92). -/
def Obligations.SbinvsBothWaysRestoresTheSet : Prop :=
  ∀ (s : State) (ta tb tc : SlotSet) (d e : Dir), s.ready → (∀ i, IsBijection (laneEntry s ta i)) →
    ∃ u v, exec (.sbinvs tb ta d) s = .next u ∧ exec (.sbinvs tc tb e) u = .next v ∧
      ∀ i k, laneEntry v tc (laneMap e (laneMap d i)) k = laneEntry s ta i k ∧
        (d ≠ e → laneEntry v tc i k = laneEntry s ta i k)

/-- `SBMIX` writes the tables that undo the inherited layers: position `pos` takes `x`, multiplied by every layer's pair of lane
`lane(dir, pos)` in order, to what the clear S-box at `pos` takes `x` to (the last law of R150, marked
as derived). With `k = 0` it copies the set. -/
def Obligations.SbmixUndoesTheInheritedLayers : Prop :=
  ∀ (s : State) (td ts : SlotSet) (dir : Dir) (k : LayerCount) (r : MixRec), s.ready → modtabLegal s.modtab = true →
    (k.val = 0 ∨ r.val + k.val ≤ 1024) → (∀ L < k.val, ∀ i, goodPair s r.val L i) →
    ∃ f, CompletesM (.sbmix td ts dir k r) s (4096 * td.val) 4096 f ∧
      ∀ (pos : Lane) (x : Byte),
        f (256 * pos.val + (mixApply (pairsOf s r.val k.val (laneMap dir pos)) x).toNat) = laneEntry s ts pos x

/-- Composition and inversion of tables, and multiplying after against before, as R150 derives them. -/
def Obligations.SboxTableLaws : Prop :=
  (∀ t u : Table, t.length = 256 → u.length = 256 → isPerm t = true → isPerm u = true →
    compose t (permInv t) = allBytes ∧ compose (permInv t) t = allBytes ∧ permInv (permInv t) = t ∧
    permInv (compose t u) = compose (permInv u) (permInv t)) ∧
  (∀ (P : Modulus) (c : Byte), irreducible8 P = true → c ≠ 0#8 →
    compose (postmul allBytes c P) (premul allBytes c P) = allBytes)

/-! ### The whole machine -/

/-- Only the commands that the spec lists as writers of byte registers, of polynomial registers, of memory change them. -/
def Obligations.OnlyTheListedCommandsWrite : Prop :=
  ∀ (i : Instr) (s t : State), exec i s = .next t →
    (writesByteRegister i = false → SameB s t) ∧ (writesPolynomialRegister i = false → SameP s t) ∧
    (writesMemory i = false → SameM s t)

/-- Every step keeps the invariant of R44 (marked as derived from R39, R43, R185 and R186), whatever event the host
presents. Beyond R44 it holds the canonical form of memory, which rests on assumption log 1, and a legal `MODTAB`, assumption log 2. -/
def Obligations.EveryStepKeepsTheInvariant : Prop :=
  ∀ s t : State, s.Inv → step s = .next t → t.Inv

/-- The invariant holds after the power-up reset, for the model's reset state and for every canonical initial memory. The empty
list in the first part is the model's choice of power-up content (assumption log 1), the table of moduli the spec's default
(assumption log 2). -/
def Obligations.PowerUpHasTheInvariant : Prop :=
  State.reset.Inv ∧ ∀ m0 : Memory, m0.wf → (State.powerUp m0).Inv

/-- The reset values of R43, for every power-up content of memory. -/
def Obligations.ResetValues : Prop :=
  ∀ m0 : Memory, (∀ r, (State.powerUp m0).readB r = 0x00#8) ∧ (∀ r, (State.powerUp m0).readP r = []) ∧
    (State.powerUp m0).fsr = 0x00#8 ∧ (State.powerUp m0).fcw = 0x00000000#32 ∧ (State.powerUp m0).finfo = 0x00000000#32 ∧
    (State.powerUp m0).controlReg .id = 0x57424701#32 ∧ (State.powerUp m0).controlReg .cap = 0x108F1E20#32 ∧
    (∀ a, (State.powerUp m0).readM a = m0.read a) ∧ (State.powerUp m0).faultPort = false

/-- From a faulted state, while the host presents only commands, no number of steps changes a register, a byte of memory, the
fault record or the `FAULT` port. -/
def Obligations.FaultRecordHeldUntilReset : Prop :=
  ∀ (s : State) (n : Nat), s.faulted = true → onlyCommands s →
    ∃ t, Host.Core.run Sys2Proof.core n s = .next t ∧ SameB s t ∧ SameP s t ∧ SameM s t ∧ SameRecord s t ∧
      t.faultPort = true

/-- In the fault state no response depends on the registers or on memory: two faulted units with the same fault record answer
every word alike. -/
def Obligations.FaultStateHidesRegistersAndMemory : Prop :=
  ∀ (s u s' u' : State) (c : Word) (rs ru : List HostEvent), s.faulted = true → SameRecord s u →
    s.host = .command c :: rs → u.host = .command c :: ru → step s = .next s' → step u = .next u' → s'.rsp = u'.rsp

/-- No step changes the parameter `MODTAB`. That the parameter is a field of the state is the model's choice (assumption log 2). -/
def Obligations.NoStepChangesModtab : Prop :=
  ∀ s t : State, step s = .next t → t.modtab = s.modtab
end

