-- ==== Sys2Proof/Laws/Decode.lean ====
section
/-! SUPPORT. The fields of a formatted word are the fields it was formatted from, and a word is the format of its own fields
(`30_encoding.md` R66): what the round trips between `decode` and `encode` rest on. -/

namespace Sys2Proof

/-! ### Format N -/

theorem opField_formatN (op : BitVec 8) : opField (formatN op) = op := by
  unfold opField formatN
  ext i hi
  simp only [BitVec.getElem_extractLsb', BitVec.getLsbD_append]
  interval_cases i <;> rfl

theorem zeroN_formatN (op : BitVec 8) : zeroN (formatN op) = 0#24 := by
  unfold zeroN formatN
  ext i hi
  simp only [BitVec.getElem_extractLsb', BitVec.getLsbD_append]
  interval_cases i <;> (first | rfl | simp)

/-- A word whose must-be-zero bits are zero is the format N of its fields. -/
theorem formatN_fields (w : Word) (h : zeroN w = 0) : formatN (opField w) = w := by
  have e : formatN (opField w) = opField w ++ zeroN w := by rw [h]; rfl
  rw [e]
  unfold opField zeroN
  ext i hi
  simp only [BitVec.getElem_append, BitVec.getElem_extractLsb']
  interval_cases i <;> rfl

/-! ### Format R -/

theorem opField_formatR (op : BitVec 8) (a : BitVec 4) (b : BitVec 4) (c : BitVec 4) (d : BitVec 4) (m : BitVec 5) : opField (formatR op a b c d m) = op := by
  unfold opField formatR
  ext i hi
  simp only [BitVec.getElem_extractLsb', BitVec.getLsbD_append]
  interval_cases i <;> rfl

theorem aField_formatR (op : BitVec 8) (a : BitVec 4) (b : BitVec 4) (c : BitVec 4) (d : BitVec 4) (m : BitVec 5) : aField (formatR op a b c d m) = a := by
  unfold aField formatR
  ext i hi
  simp only [BitVec.getElem_extractLsb', BitVec.getLsbD_append]
  interval_cases i <;> rfl

theorem bField_formatR (op : BitVec 8) (a : BitVec 4) (b : BitVec 4) (c : BitVec 4) (d : BitVec 4) (m : BitVec 5) : bField (formatR op a b c d m) = b := by
  unfold bField formatR
  ext i hi
  simp only [BitVec.getElem_extractLsb', BitVec.getLsbD_append]
  interval_cases i <;> rfl

theorem cField_formatR (op : BitVec 8) (a : BitVec 4) (b : BitVec 4) (c : BitVec 4) (d : BitVec 4) (m : BitVec 5) : cField (formatR op a b c d m) = c := by
  unfold cField formatR
  ext i hi
  simp only [BitVec.getElem_extractLsb', BitVec.getLsbD_append]
  interval_cases i <;> rfl

theorem dField_formatR (op : BitVec 8) (a : BitVec 4) (b : BitVec 4) (c : BitVec 4) (d : BitVec 4) (m : BitVec 5) : dField (formatR op a b c d m) = d := by
  unfold dField formatR
  ext i hi
  simp only [BitVec.getElem_extractLsb', BitVec.getLsbD_append]
  interval_cases i <;> rfl

theorem zeroR_formatR (op : BitVec 8) (a : BitVec 4) (b : BitVec 4) (c : BitVec 4) (d : BitVec 4) (m : BitVec 5) : zeroR (formatR op a b c d m) = 0#3 := by
  unfold zeroR formatR
  ext i hi
  simp only [BitVec.getElem_extractLsb', BitVec.getLsbD_append]
  interval_cases i <;> (first | rfl | simp)

theorem mField_formatR (op : BitVec 8) (a : BitVec 4) (b : BitVec 4) (c : BitVec 4) (d : BitVec 4) (m : BitVec 5) : mField (formatR op a b c d m) = m := by
  unfold mField formatR
  ext i hi
  simp only [BitVec.getElem_extractLsb', BitVec.getLsbD_append]
  interval_cases i <;> rfl

/-- A word whose must-be-zero bits are zero is the format R of its fields. -/
theorem formatR_fields (w : Word) (h : zeroR w = 0) : formatR (opField w) (aField w) (bField w) (cField w) (dField w) (mField w) = w := by
  have e : formatR (opField w) (aField w) (bField w) (cField w) (dField w) (mField w) = opField w ++ aField w ++ bField w ++ cField w ++ dField w ++ zeroR w ++ mField w := by rw [h]; rfl
  rw [e]
  unfold opField aField bField cField dField zeroR mField
  ext i hi
  simp only [BitVec.getElem_append, BitVec.getElem_extractLsb']
  interval_cases i <;> rfl

/-! ### Format I -/

theorem opField_formatI (op : BitVec 8) (a : BitVec 4) (b : BitVec 4) (imm : BitVec 8) : opField (formatI op a b imm) = op := by
  unfold opField formatI
  ext i hi
  simp only [BitVec.getElem_extractLsb', BitVec.getLsbD_append]
  interval_cases i <;> rfl

theorem aField_formatI (op : BitVec 8) (a : BitVec 4) (b : BitVec 4) (imm : BitVec 8) : aField (formatI op a b imm) = a := by
  unfold aField formatI
  ext i hi
  simp only [BitVec.getElem_extractLsb', BitVec.getLsbD_append]
  interval_cases i <;> rfl

theorem bField_formatI (op : BitVec 8) (a : BitVec 4) (b : BitVec 4) (imm : BitVec 8) : bField (formatI op a b imm) = b := by
  unfold bField formatI
  ext i hi
  simp only [BitVec.getElem_extractLsb', BitVec.getLsbD_append]
  interval_cases i <;> rfl

theorem zeroI_formatI (op : BitVec 8) (a : BitVec 4) (b : BitVec 4) (imm : BitVec 8) : zeroI (formatI op a b imm) = 0#8 := by
  unfold zeroI formatI
  ext i hi
  simp only [BitVec.getElem_extractLsb', BitVec.getLsbD_append]
  interval_cases i <;> (first | rfl | simp)

theorem immField_formatI (op : BitVec 8) (a : BitVec 4) (b : BitVec 4) (imm : BitVec 8) : immField (formatI op a b imm) = imm := by
  unfold immField formatI
  ext i hi
  simp only [BitVec.getElem_extractLsb', BitVec.getLsbD_append]
  interval_cases i <;> rfl

/-- A word whose must-be-zero bits are zero is the format I of its fields. -/
theorem formatI_fields (w : Word) (h : zeroI w = 0) : formatI (opField w) (aField w) (bField w) (immField w) = w := by
  have e : formatI (opField w) (aField w) (bField w) (immField w) = opField w ++ aField w ++ bField w ++ zeroI w ++ immField w := by rw [h]; rfl
  rw [e]
  unfold opField aField bField zeroI immField
  ext i hi
  simp only [BitVec.getElem_append, BitVec.getElem_extractLsb']
  interval_cases i <;> rfl

/-! ### Format M -/

theorem opField_formatM (op : BitVec 8) (a : BitVec 4) (b : BitVec 4) (addr : BitVec 15) : opField (formatM op a b addr) = op := by
  unfold opField formatM
  ext i hi
  simp only [BitVec.getElem_extractLsb', BitVec.getLsbD_append]
  interval_cases i <;> rfl

theorem aField_formatM (op : BitVec 8) (a : BitVec 4) (b : BitVec 4) (addr : BitVec 15) : aField (formatM op a b addr) = a := by
  unfold aField formatM
  ext i hi
  simp only [BitVec.getElem_extractLsb', BitVec.getLsbD_append]
  interval_cases i <;> rfl

theorem bField_formatM (op : BitVec 8) (a : BitVec 4) (b : BitVec 4) (addr : BitVec 15) : bField (formatM op a b addr) = b := by
  unfold bField formatM
  ext i hi
  simp only [BitVec.getElem_extractLsb', BitVec.getLsbD_append]
  interval_cases i <;> rfl

theorem zeroM_formatM (op : BitVec 8) (a : BitVec 4) (b : BitVec 4) (addr : BitVec 15) : zeroM (formatM op a b addr) = 0#1 := by
  unfold zeroM formatM
  ext i hi
  simp only [BitVec.getElem_extractLsb', BitVec.getLsbD_append]
  interval_cases i
  simp

theorem addrField_formatM (op : BitVec 8) (a : BitVec 4) (b : BitVec 4) (addr : BitVec 15) : addrField (formatM op a b addr) = addr := by
  unfold addrField formatM
  ext i hi
  simp only [BitVec.getElem_extractLsb', BitVec.getLsbD_append]
  interval_cases i <;> rfl

/-- A word whose must-be-zero bits are zero is the format M of its fields. -/
theorem formatM_fields (w : Word) (h : zeroM w = 0) : formatM (opField w) (aField w) (bField w) (addrField w) = w := by
  have e : formatM (opField w) (aField w) (bField w) (addrField w) = opField w ++ aField w ++ bField w ++ zeroM w ++ addrField w := by rw [h]; rfl
  rw [e]
  unfold opField aField bField zeroM addrField
  ext i hi
  simp only [BitVec.getElem_append, BitVec.getElem_extractLsb']
  interval_cases i <;> rfl

/-! ### Format W -/

theorem opField_formatW (op : BitVec 8) (imm : BitVec 8) (addr : BitVec 15) : opField (formatW op imm addr) = op := by
  unfold opField formatW
  ext i hi
  simp only [BitVec.getElem_extractLsb', BitVec.getLsbD_append]
  interval_cases i <;> rfl

theorem immFieldW_formatW (op : BitVec 8) (imm : BitVec 8) (addr : BitVec 15) : immFieldW (formatW op imm addr) = imm := by
  unfold immFieldW formatW
  ext i hi
  simp only [BitVec.getElem_extractLsb', BitVec.getLsbD_append]
  interval_cases i <;> rfl

theorem zeroM_formatW (op : BitVec 8) (imm : BitVec 8) (addr : BitVec 15) : zeroM (formatW op imm addr) = 0#1 := by
  unfold zeroM formatW
  ext i hi
  simp only [BitVec.getElem_extractLsb', BitVec.getLsbD_append]
  interval_cases i
  simp

theorem addrField_formatW (op : BitVec 8) (imm : BitVec 8) (addr : BitVec 15) : addrField (formatW op imm addr) = addr := by
  unfold addrField formatW
  ext i hi
  simp only [BitVec.getElem_extractLsb', BitVec.getLsbD_append]
  interval_cases i <;> rfl

/-- A word whose must-be-zero bits are zero is the format W of its fields. -/
theorem formatW_fields (w : Word) (h : zeroM w = 0) : formatW (opField w) (immFieldW w) (addrField w) = w := by
  have e : formatW (opField w) (immFieldW w) (addrField w) = opField w ++ immFieldW w ++ zeroM w ++ addrField w := by rw [h]; rfl
  rw [e]
  unfold opField immFieldW zeroM addrField
  ext i hi
  simp only [BitVec.getElem_append, BitVec.getElem_extractLsb']
  interval_cases i <;> rfl

/-! ### Format S -/

theorem opField_formatS (op : BitVec 8) (sd : BitVec 7) (ss : BitVec 7) (bf : BitVec 4) (m : BitVec 5) : opField (formatS op sd ss bf m) = op := by
  unfold opField formatS
  ext i hi
  simp only [BitVec.getElem_extractLsb', BitVec.getLsbD_append]
  interval_cases i <;> rfl

theorem sdField_formatS (op : BitVec 8) (sd : BitVec 7) (ss : BitVec 7) (bf : BitVec 4) (m : BitVec 5) : sdField (formatS op sd ss bf m) = sd := by
  unfold sdField formatS
  ext i hi
  simp only [BitVec.getElem_extractLsb', BitVec.getLsbD_append]
  interval_cases i <;> rfl

theorem ssField_formatS (op : BitVec 8) (sd : BitVec 7) (ss : BitVec 7) (bf : BitVec 4) (m : BitVec 5) : ssField (formatS op sd ss bf m) = ss := by
  unfold ssField formatS
  ext i hi
  simp only [BitVec.getElem_extractLsb', BitVec.getLsbD_append]
  interval_cases i <;> rfl

theorem zeroS_formatS (op : BitVec 8) (sd : BitVec 7) (ss : BitVec 7) (bf : BitVec 4) (m : BitVec 5) : zeroS (formatS op sd ss bf m) = 0#1 := by
  unfold zeroS formatS
  ext i hi
  simp only [BitVec.getElem_extractLsb', BitVec.getLsbD_append]
  interval_cases i
  simp

theorem bfField_formatS (op : BitVec 8) (sd : BitVec 7) (ss : BitVec 7) (bf : BitVec 4) (m : BitVec 5) : bfField (formatS op sd ss bf m) = bf := by
  unfold bfField formatS
  ext i hi
  simp only [BitVec.getElem_extractLsb', BitVec.getLsbD_append]
  interval_cases i <;> rfl

theorem mField_formatS (op : BitVec 8) (sd : BitVec 7) (ss : BitVec 7) (bf : BitVec 4) (m : BitVec 5) : mField (formatS op sd ss bf m) = m := by
  unfold mField formatS
  ext i hi
  simp only [BitVec.getElem_extractLsb', BitVec.getLsbD_append]
  interval_cases i <;> rfl

/-- A word whose must-be-zero bits are zero is the format S of its fields. -/
theorem formatS_fields (w : Word) (h : zeroS w = 0) : formatS (opField w) (sdField w) (ssField w) (bfField w) (mField w) = w := by
  have e : formatS (opField w) (sdField w) (ssField w) (bfField w) (mField w) = opField w ++ sdField w ++ ssField w ++ zeroS w ++ bfField w ++ mField w := by rw [h]; rfl
  rw [e]
  unfold opField sdField ssField zeroS bfField mField
  ext i hi
  simp only [BitVec.getElem_append, BitVec.getElem_extractLsb']
  interval_cases i <;> rfl

/-! ### Format T -/

theorem opField_formatT (op : BitVec 8) (sd : BitVec 7) (sa : BitVec 7) (sb : BitVec 7) : opField (formatT op sd sa sb) = op := by
  unfold opField formatT
  ext i hi
  simp only [BitVec.getElem_extractLsb', BitVec.getLsbD_append]
  interval_cases i <;> rfl

theorem sdField_formatT (op : BitVec 8) (sd : BitVec 7) (sa : BitVec 7) (sb : BitVec 7) : sdField (formatT op sd sa sb) = sd := by
  unfold sdField formatT
  ext i hi
  simp only [BitVec.getElem_extractLsb', BitVec.getLsbD_append]
  interval_cases i <;> rfl

theorem ssField_formatT (op : BitVec 8) (sd : BitVec 7) (sa : BitVec 7) (sb : BitVec 7) : ssField (formatT op sd sa sb) = sa := by
  unfold ssField formatT
  ext i hi
  simp only [BitVec.getElem_extractLsb', BitVec.getLsbD_append]
  interval_cases i <;> rfl

theorem sbField_formatT (op : BitVec 8) (sd : BitVec 7) (sa : BitVec 7) (sb : BitVec 7) : sbField (formatT op sd sa sb) = sb := by
  unfold sbField formatT
  ext i hi
  simp only [BitVec.getElem_extractLsb', BitVec.getLsbD_append]
  interval_cases i <;> rfl

theorem zeroT_formatT (op : BitVec 8) (sd : BitVec 7) (sa : BitVec 7) (sb : BitVec 7) : zeroT (formatT op sd sa sb) = 0#3 := by
  unfold zeroT formatT
  ext i hi
  simp only [BitVec.getElem_extractLsb', BitVec.getLsbD_append]
  interval_cases i <;> (first | rfl | simp)

/-- A word whose must-be-zero bits are zero is the format T of its fields. -/
theorem formatT_fields (w : Word) (h : zeroT w = 0) : formatT (opField w) (sdField w) (ssField w) (sbField w) = w := by
  have e : formatT (opField w) (sdField w) (ssField w) (sbField w) = opField w ++ sdField w ++ ssField w ++ sbField w ++ zeroT w := by rw [h]; rfl
  rw [e]
  unfold opField sdField ssField sbField zeroT
  ext i hi
  simp only [BitVec.getElem_append, BitVec.getElem_extractLsb']
  interval_cases i <;> rfl

/-! ### Format X -/

theorem opField_formatX (op : BitVec 8) (setd : BitVec 3) (sets : BitVec 3) (dir : BitVec 1) (k : BitVec 4) (mb : BitVec 10) : opField (formatX op setd sets dir k mb) = op := by
  unfold opField formatX
  ext i hi
  simp only [BitVec.getElem_extractLsb', BitVec.getLsbD_append]
  interval_cases i <;> rfl

theorem setdField_formatX (op : BitVec 8) (setd : BitVec 3) (sets : BitVec 3) (dir : BitVec 1) (k : BitVec 4) (mb : BitVec 10) : setdField (formatX op setd sets dir k mb) = setd := by
  unfold setdField formatX
  ext i hi
  simp only [BitVec.getElem_extractLsb', BitVec.getLsbD_append]
  interval_cases i <;> rfl

theorem setsField_formatX (op : BitVec 8) (setd : BitVec 3) (sets : BitVec 3) (dir : BitVec 1) (k : BitVec 4) (mb : BitVec 10) : setsField (formatX op setd sets dir k mb) = sets := by
  unfold setsField formatX
  ext i hi
  simp only [BitVec.getElem_extractLsb', BitVec.getLsbD_append]
  interval_cases i <;> rfl

theorem dirField_formatX (op : BitVec 8) (setd : BitVec 3) (sets : BitVec 3) (dir : BitVec 1) (k : BitVec 4) (mb : BitVec 10) : dirField (formatX op setd sets dir k mb) = dir := by
  unfold dirField formatX
  ext i hi
  simp only [BitVec.getElem_extractLsb', BitVec.getLsbD_append]
  interval_cases i
  rfl

theorem kField_formatX (op : BitVec 8) (setd : BitVec 3) (sets : BitVec 3) (dir : BitVec 1) (k : BitVec 4) (mb : BitVec 10) : kField (formatX op setd sets dir k mb) = k := by
  unfold kField formatX
  ext i hi
  simp only [BitVec.getElem_extractLsb', BitVec.getLsbD_append]
  interval_cases i <;> rfl

theorem zeroX_formatX (op : BitVec 8) (setd : BitVec 3) (sets : BitVec 3) (dir : BitVec 1) (k : BitVec 4) (mb : BitVec 10) : zeroX (formatX op setd sets dir k mb) = 0#3 := by
  unfold zeroX formatX
  ext i hi
  simp only [BitVec.getElem_extractLsb', BitVec.getLsbD_append]
  interval_cases i <;> (first | rfl | simp)

theorem mbField_formatX (op : BitVec 8) (setd : BitVec 3) (sets : BitVec 3) (dir : BitVec 1) (k : BitVec 4) (mb : BitVec 10) : mbField (formatX op setd sets dir k mb) = mb := by
  unfold mbField formatX
  ext i hi
  simp only [BitVec.getElem_extractLsb', BitVec.getLsbD_append]
  interval_cases i <;> rfl

/-- A word whose must-be-zero bits are zero is the format X of its fields. -/
theorem formatX_fields (w : Word) (h : zeroX w = 0) : formatX (opField w) (setdField w) (setsField w) (dirField w) (kField w) (mbField w) = w := by
  have e : formatX (opField w) (setdField w) (setsField w) (dirField w) (kField w) (mbField w) = opField w ++ setdField w ++ setsField w ++ dirField w ++ kField w ++ zeroX w ++ mbField w := by rw [h]; rfl
  rw [e]
  unfold opField setdField setsField dirField kField zeroX mbField
  ext i hi
  simp only [BitVec.getElem_append, BitVec.getElem_extractLsb']
  interval_cases i <;> rfl

end Sys2Proof
end

