-- ==== Sys2Proof/Laws/State.lean ====
section
/-! SUPPORT. One lemma per field per update of the state, so that no later proof unfolds a record update. Each is true by `rfl`;
the parentheses in `(rfl)` make `simp` cite the lemma instead of leaving the kernel to compare two whole states (that
comparison does not end in practice when the state under the field is a set of 16 written tables). -/

namespace Sys2Proof.Machine

/-! ### writing a byte register -/

@[simp] theorem State.writeB_b (s : State) (i : BReg) (v : Byte) : (s.writeB i v).b = s.b.set i v := (rfl)
@[simp] theorem State.writeB_p (s : State) (i : BReg) (v : Byte) : (s.writeB i v).p = s.p := (rfl)
@[simp] theorem State.writeB_fsr (s : State) (i : BReg) (v : Byte) : (s.writeB i v).fsr = s.fsr := (rfl)
@[simp] theorem State.writeB_fcw (s : State) (i : BReg) (v : Byte) : (s.writeB i v).fcw = s.fcw := (rfl)
@[simp] theorem State.writeB_finfo (s : State) (i : BReg) (v : Byte) : (s.writeB i v).finfo = s.finfo := (rfl)
@[simp] theorem State.writeB_mem (s : State) (i : BReg) (v : Byte) : (s.writeB i v).mem = s.mem := (rfl)
@[simp] theorem State.writeB_modtab (s : State) (i : BReg) (v : Byte) : (s.writeB i v).modtab = s.modtab := (rfl)
@[simp] theorem State.writeB_host (s : State) (i : BReg) (v : Byte) : (s.writeB i v).host = s.host := (rfl)
@[simp] theorem State.writeB_rsp (s : State) (i : BReg) (v : Byte) : (s.writeB i v).rsp = s.rsp := (rfl)
@[simp] theorem State.writeB_cuts (s : State) (i : BReg) (v : Byte) : (s.writeB i v).cuts = s.cuts := (rfl)

/-! ### writing a polynomial register -/

@[simp] theorem State.writeP_b (s : State) (i : PReg) (q : Poly) : (s.writeP i q).b = s.b := (rfl)
@[simp] theorem State.writeP_p (s : State) (i : PReg) (q : Poly) : (s.writeP i q).p = s.p.set i q := (rfl)
@[simp] theorem State.writeP_fsr (s : State) (i : PReg) (q : Poly) : (s.writeP i q).fsr = s.fsr := (rfl)
@[simp] theorem State.writeP_fcw (s : State) (i : PReg) (q : Poly) : (s.writeP i q).fcw = s.fcw := (rfl)
@[simp] theorem State.writeP_finfo (s : State) (i : PReg) (q : Poly) : (s.writeP i q).finfo = s.finfo := (rfl)
@[simp] theorem State.writeP_mem (s : State) (i : PReg) (q : Poly) : (s.writeP i q).mem = s.mem := (rfl)
@[simp] theorem State.writeP_modtab (s : State) (i : PReg) (q : Poly) : (s.writeP i q).modtab = s.modtab := (rfl)
@[simp] theorem State.writeP_host (s : State) (i : PReg) (q : Poly) : (s.writeP i q).host = s.host := (rfl)
@[simp] theorem State.writeP_rsp (s : State) (i : PReg) (q : Poly) : (s.writeP i q).rsp = s.rsp := (rfl)
@[simp] theorem State.writeP_cuts (s : State) (i : PReg) (q : Poly) : (s.writeP i q).cuts = s.cuts := (rfl)

/-! ### writing memory -/

@[simp] theorem State.writeM_b (s : State) (a : Nat) (bs : List Byte) : (s.writeM a bs).b = s.b := (rfl)
@[simp] theorem State.writeM_p (s : State) (a : Nat) (bs : List Byte) : (s.writeM a bs).p = s.p := (rfl)
@[simp] theorem State.writeM_fsr (s : State) (a : Nat) (bs : List Byte) : (s.writeM a bs).fsr = s.fsr := (rfl)
@[simp] theorem State.writeM_fcw (s : State) (a : Nat) (bs : List Byte) : (s.writeM a bs).fcw = s.fcw := (rfl)
@[simp] theorem State.writeM_finfo (s : State) (a : Nat) (bs : List Byte) : (s.writeM a bs).finfo = s.finfo := (rfl)
@[simp] theorem State.writeM_mem (s : State) (a : Nat) (bs : List Byte) : (s.writeM a bs).mem = s.mem.writeBytes a bs := (rfl)
@[simp] theorem State.writeM_modtab (s : State) (a : Nat) (bs : List Byte) : (s.writeM a bs).modtab = s.modtab := (rfl)
@[simp] theorem State.writeM_host (s : State) (a : Nat) (bs : List Byte) : (s.writeM a bs).host = s.host := (rfl)
@[simp] theorem State.writeM_rsp (s : State) (a : Nat) (bs : List Byte) : (s.writeM a bs).rsp = s.rsp := (rfl)
@[simp] theorem State.writeM_cuts (s : State) (a : Nat) (bs : List Byte) : (s.writeM a bs).cuts = s.cuts := (rfl)

/-! ### producing a response -/

@[simp] theorem State.withResponse_b (s : State) (d : Word) : (s.withResponse d).b = s.b := (rfl)
@[simp] theorem State.withResponse_p (s : State) (d : Word) : (s.withResponse d).p = s.p := (rfl)
@[simp] theorem State.withResponse_fsr (s : State) (d : Word) : (s.withResponse d).fsr = s.fsr := (rfl)
@[simp] theorem State.withResponse_fcw (s : State) (d : Word) : (s.withResponse d).fcw = s.fcw := (rfl)
@[simp] theorem State.withResponse_finfo (s : State) (d : Word) : (s.withResponse d).finfo = s.finfo := (rfl)
@[simp] theorem State.withResponse_mem (s : State) (d : Word) : (s.withResponse d).mem = s.mem := (rfl)
@[simp] theorem State.withResponse_modtab (s : State) (d : Word) : (s.withResponse d).modtab = s.modtab := (rfl)
@[simp] theorem State.withResponse_host (s : State) (d : Word) : (s.withResponse d).host = s.host := (rfl)
@[simp] theorem State.withResponse_rsp (s : State) (d : Word) : (s.withResponse d).rsp = some { rstat := s.fsr, rdata := d } := (rfl)
@[simp] theorem State.withResponse_cuts (s : State) (d : Word) : (s.withResponse d).cuts = s.cuts := (rfl)

/-! ### fault entry -/

@[simp] theorem State.faultEntry_b (s : State) (c : Word) (x : Cause) (info : Word) : (s.faultEntry c x info).b = s.b := (rfl)
@[simp] theorem State.faultEntry_p (s : State) (c : Word) (x : Cause) (info : Word) : (s.faultEntry c x info).p = s.p := (rfl)
@[simp] theorem State.faultEntry_fsr (s : State) (c : Word) (x : Cause) (info : Word) : (s.faultEntry c x info).fsr = faultStatus x := (rfl)
@[simp] theorem State.faultEntry_fcw (s : State) (c : Word) (x : Cause) (info : Word) : (s.faultEntry c x info).fcw = c := (rfl)
@[simp] theorem State.faultEntry_finfo (s : State) (c : Word) (x : Cause) (info : Word) : (s.faultEntry c x info).finfo = info := (rfl)
@[simp] theorem State.faultEntry_mem (s : State) (c : Word) (x : Cause) (info : Word) : (s.faultEntry c x info).mem = s.mem := (rfl)
@[simp] theorem State.faultEntry_modtab (s : State) (c : Word) (x : Cause) (info : Word) : (s.faultEntry c x info).modtab = s.modtab := (rfl)
@[simp] theorem State.faultEntry_host (s : State) (c : Word) (x : Cause) (info : Word) : (s.faultEntry c x info).host = s.host := (rfl)
@[simp] theorem State.faultEntry_rsp (s : State) (c : Word) (x : Cause) (info : Word) : (s.faultEntry c x info).rsp = some { rstat := faultStatus x, rdata := 0#32 } := (rfl)
@[simp] theorem State.faultEntry_cuts (s : State) (c : Word) (x : Cause) (info : Word) : (s.faultEntry c x info).cuts = s.cuts := (rfl)

/-! ### reset -/

@[simp] theorem State.assertReset_b (s : State) : (s.assertReset).b = Vector.replicate 16 0#8 := (rfl)
@[simp] theorem State.assertReset_p (s : State) : (s.assertReset).p = Vector.replicate 8 [] := (rfl)
@[simp] theorem State.assertReset_fsr (s : State) : (s.assertReset).fsr = 0x00#8 := (rfl)
@[simp] theorem State.assertReset_fcw (s : State) : (s.assertReset).fcw = 0x00000000#32 := (rfl)
@[simp] theorem State.assertReset_finfo (s : State) : (s.assertReset).finfo = 0x00000000#32 := (rfl)
@[simp] theorem State.assertReset_mem (s : State) : (s.assertReset).mem = s.mem := (rfl)
@[simp] theorem State.assertReset_modtab (s : State) : (s.assertReset).modtab = s.modtab := (rfl)
@[simp] theorem State.assertReset_host (s : State) : (s.assertReset).host = s.host := (rfl)
@[simp] theorem State.assertReset_rsp (s : State) : (s.assertReset).rsp = none := (rfl)
@[simp] theorem State.assertReset_cuts (s : State) : (s.assertReset).cuts = s.cuts := (rfl)

/-! ### Reading after writing, through the accessors -/

@[simp] theorem State.readB_writeB_self (s : State) (i : BReg) (v : Byte) : (s.writeB i v).readB i = v := by
  simp [State.readB]

theorem State.readB_writeB_of_ne (s : State) {i r : BReg} (v : Byte) (h : r ≠ i) :
    (s.writeB i v).readB r = s.readB r := by
  have : (i : Nat) ≠ r := fun e => h (Fin.ext e.symm)
  simp [State.readB, this]

@[simp] theorem State.readP_writeP_self (s : State) (i : PReg) (q : Poly) : (s.writeP i q).readP i = q := by
  simp [State.readP]

theorem State.readP_writeP_of_ne (s : State) {i r : PReg} (q : Poly) (h : r ≠ i) :
    (s.writeP i q).readP r = s.readP r := by
  have : (i : Nat) ≠ r := fun e => h (Fin.ext e.symm)
  simp [State.readP, this]

@[simp] theorem State.readB_writeP (s : State) (i : PReg) (q : Poly) (r : BReg) : (s.writeP i q).readB r = s.readB r := (rfl)
@[simp] theorem State.readB_writeM (s : State) (a : Nat) (bs : List Byte) (r : BReg) :
    (s.writeM a bs).readB r = s.readB r := (rfl)
@[simp] theorem State.readB_withResponse (s : State) (d : Word) (r : BReg) : (s.withResponse d).readB r = s.readB r := (rfl)
@[simp] theorem State.readB_faultEntry (s : State) (c : Word) (x : Cause) (info : Word) (r : BReg) :
    (s.faultEntry c x info).readB r = s.readB r := (rfl)
@[simp] theorem State.readP_writeB (s : State) (i : BReg) (v : Byte) (r : PReg) : (s.writeB i v).readP r = s.readP r := (rfl)
@[simp] theorem State.readP_writeM (s : State) (a : Nat) (bs : List Byte) (r : PReg) :
    (s.writeM a bs).readP r = s.readP r := (rfl)
@[simp] theorem State.readP_withResponse (s : State) (d : Word) (r : PReg) : (s.withResponse d).readP r = s.readP r := (rfl)
@[simp] theorem State.readP_faultEntry (s : State) (c : Word) (x : Cause) (info : Word) (r : PReg) :
    (s.faultEntry c x info).readP r = s.readP r := (rfl)
@[simp] theorem State.readM_writeB (s : State) (i : BReg) (v : Byte) (a : Nat) : (s.writeB i v).readM a = s.readM a := (rfl)
@[simp] theorem State.readM_writeP (s : State) (i : PReg) (q : Poly) (a : Nat) : (s.writeP i q).readM a = s.readM a := (rfl)
@[simp] theorem State.readM_withResponse (s : State) (d : Word) (a : Nat) : (s.withResponse d).readM a = s.readM a := (rfl)
@[simp] theorem State.readM_faultEntry (s : State) (c : Word) (x : Cause) (info : Word) (a : Nat) :
    (s.faultEntry c x info).readM a = s.readM a := (rfl)
@[simp] theorem State.readM_assertReset (s : State) (a : Nat) : s.assertReset.readM a = s.readM a := (rfl)

@[simp] theorem State.readB_assertReset (s : State) (r : BReg) : s.assertReset.readB r = 0#8 := by
  simp [State.readB]
@[simp] theorem State.readP_assertReset (s : State) (r : PReg) : s.assertReset.readP r = [] := by
  simp [State.readP]

/-! ### The fault bit -/

@[simp] theorem State.faulted_writeB (s : State) (i : BReg) (v : Byte) : (s.writeB i v).faulted = s.faulted := (rfl)
@[simp] theorem State.faulted_writeP (s : State) (i : PReg) (q : Poly) : (s.writeP i q).faulted = s.faulted := (rfl)
@[simp] theorem State.faulted_writeM (s : State) (a : Nat) (bs : List Byte) : (s.writeM a bs).faulted = s.faulted := (rfl)
@[simp] theorem State.faulted_withResponse (s : State) (d : Word) : (s.withResponse d).faulted = s.faulted := (rfl)
@[simp] theorem State.faulted_assertReset (s : State) : s.assertReset.faulted = false := by
  simp [State.faulted]
@[simp] theorem State.faulted_faultEntry (s : State) (c : Word) (x : Cause) (info : Word) :
    (s.faultEntry c x info).faulted = true := by
  rw [State.faulted, State.faultEntry_fsr]
  cases x <;> decide

end Sys2Proof.Machine
end

