-- ==== Sys2Proof/Laws/Memory.lean ====
section
/-! SUPPORT. What the memory operations do (`00_scope.md` R10): a read after a write, and the canonical form, which every write
keeps and which makes equal memories equal data. -/

namespace Sys2Proof.Machine

theorem Memory.read_cons (k : Nat) (v : Byte) (m : Memory) (a : Nat) :
    Memory.read ((k, v) :: m) a = if k = a then v else Memory.read m a := rfl

/-- An address that no entry lists reads as an unwritten byte. -/
theorem Memory.read_of_not_listed {m : Memory} {a : Nat} (h : ∀ c ∈ m, c.1 ≠ a) : m.read a = Config.unwrittenByte := by
  induction m with
  | nil => rfl
  | cons c m ih =>
    rw [Memory.read_cons, if_neg (h c List.mem_cons_self)]
    exact ih fun d hd => h d (List.mem_cons_of_mem _ hd)

theorem Memory.read_append (m n : Memory) (a : Nat) :
    Memory.read (m ++ n) a = if ∃ c ∈ m, c.1 = a then m.read a else n.read a := by
  induction m with
  | nil => simp
  | cons c m ih =>
    rw [List.cons_append, Memory.read_cons, Memory.read_cons, ih]
    by_cases h : c.1 = a <;> simp [h]

/-- A filter that keeps the entries of an address keeps what the address reads as. -/
theorem Memory.read_filter {m : Memory} {f : Host.Cell → Bool} {a : Nat} (h : ∀ v, f (a, v) = true) :
    Memory.read (m.filter f) a = m.read a := by
  induction m with
  | nil => rfl
  | cons c m ih =>
    obtain ⟨k, v⟩ := c
    rw [List.filter_cons, Memory.read_cons]
    split
    · rw [Memory.read_cons, ih]
    · next hf =>
      rw [ih, if_neg]
      rintro rfl
      exact hf (h v)

/-- The bytes a command reads are the bytes at the addresses it names (R10). -/
theorem Memory.readBytes_eq (m : Memory) (a n : Nat) : m.readBytes a n = (List.range n).map (fun i => m.read (a + i)) := by
  unfold Memory.readBytes
  refine List.map_congr_left fun i hi => ?_
  rw [List.mem_range] at hi
  exact Memory.read_filter fun v => by simp [hi]

@[simp] theorem Memory.length_readBytes (m : Memory) (a n : Nat) : (m.readBytes a n).length = n := by
  simp [Memory.readBytes]

theorem Memory.getD_readBytes (m : Memory) {a n i : Nat} (h : i < n) (d : Byte) :
    (m.readBytes a n).getD i d = m.read (a + i) := by
  simp [Memory.readBytes_eq, h]

theorem Memory.cells_addr {a : Nat} {bs : List Byte} {c : Host.Cell} (h : c ∈ Memory.cells a bs) :
    a ≤ c.1 ∧ c.1 < a + bs.length ∧ c.2 ≠ Config.unwrittenByte := by
  induction bs generalizing a with
  | nil => cases h
  | cons v vs ih =>
    rw [Memory.cells] at h
    split at h
    · obtain ⟨h1, h2, h3⟩ := ih h
      exact ⟨by omega, by simp only [List.length_cons]; omega, h3⟩
    · next hv =>
      rcases List.mem_cons.mp h with rfl | h
      · exact ⟨le_rfl, by simp, hv⟩
      · obtain ⟨h1, h2, h3⟩ := ih h
        exact ⟨by omega, by simp only [List.length_cons]; omega, h3⟩

theorem Memory.read_cells (a : Nat) (bs : List Byte) (x : Nat) :
    (Memory.cells a bs).read x = if a ≤ x ∧ x < a + bs.length then bs.getD (x - a) 0#8 else Config.unwrittenByte := by
  induction bs generalizing a with
  | nil => simp [Memory.cells, Memory.read]
  | cons v vs ih =>
    have key : (Memory.cells a (v :: vs)).read x = if a = x then v else (Memory.cells (a + 1) vs).read x := by
      rw [Memory.cells]
      split
      · next hv =>
        split
        · next hx =>
          subst hx
          rw [Memory.read_of_not_listed fun c hc => by have := (Memory.cells_addr hc).1; omega, hv]
        · rfl
      · rw [Memory.read_cons]
    rw [key, ih, List.length_cons]
    by_cases h : a = x
    · subst h
      simp
    · by_cases h2 : a ≤ x ∧ x < a + (vs.length + 1)
      · rw [if_neg h, if_pos (by omega), if_pos h2]
        obtain ⟨j, hj⟩ : ∃ j, x - a = j + 1 := ⟨x - a - 1, by omega⟩
        rw [hj, show x - (a + 1) = j by omega]
        rfl
      · rw [if_neg h, if_neg (by omega), if_neg h2]

/-- What a write does, once and for every address (R10): the bytes written read back, every other byte reads as before. -/
theorem Memory.read_writeBytes (m : Memory) (a : Nat) (bs : List Byte) (x : Nat) :
    (m.writeBytes a bs).read x = if a ≤ x ∧ x < a + bs.length then bs.getD (x - a) 0#8 else m.read x := by
  unfold Memory.writeBytes
  rw [Memory.read_append, Memory.read_append]
  by_cases hlow : x < a
  · rw [if_neg (c := a ≤ x ∧ x < a + bs.length) (by omega)]
    have hf : Memory.read (m.filter (fun c => decide (c.1 < a))) x = m.read x := Memory.read_filter fun v => by simp [hlow]
    split
    · exact hf
    · next h =>
      have h1 : m.read x = Config.unwrittenByte := by
        rw [← hf]
        exact Memory.read_of_not_listed fun c hc e => h ⟨c, hc, e⟩
      rw [if_neg, h1]
      · refine Memory.read_of_not_listed fun c hc e => ?_
        have := of_decide_eq_true (List.mem_filter.mp hc).2
        omega
      · rintro ⟨c, hc, e⟩
        have := (Memory.cells_addr hc).1
        omega
  · rw [if_neg (c := ∃ c ∈ m.filter (fun c => decide (c.1 < a)), c.1 = x)]
    swap
    · rintro ⟨c, hc, e⟩
      have := of_decide_eq_true (List.mem_filter.mp hc).2
      omega
    by_cases hin : x < a + bs.length
    · rw [if_pos (c := a ≤ x ∧ x < a + bs.length) (by omega)]
      have hc := Memory.read_cells a bs x
      rw [if_pos (by omega)] at hc
      split
      · exact hc
      · next h =>
        rw [← hc, Memory.read_of_not_listed (m := Memory.cells a bs) fun c hc e => h ⟨c, hc, e⟩]
        refine Memory.read_of_not_listed fun c hc e => ?_
        have := of_decide_eq_true (List.mem_filter.mp hc).2
        omega
    · rw [if_neg (c := a ≤ x ∧ x < a + bs.length) (by omega), if_neg]
      · exact Memory.read_filter fun v => by simp; omega
      · rintro ⟨c, hc, e⟩
        have := (Memory.cells_addr hc).2.1
        omega

theorem Memory.cells_sorted (a : Nat) (bs : List Byte) : (Memory.cells a bs).Pairwise (fun x y => x.1 < y.1) := by
  induction bs generalizing a with
  | nil => exact List.Pairwise.nil
  | cons v vs ih =>
    rw [Memory.cells]
    split
    · exact ih _
    · exact List.Pairwise.cons (fun c hc => by have := (Memory.cells_addr hc).1; simp only; omega) (ih _)

/-- Every write inside memory keeps the canonical form. -/
theorem Memory.wf_writeBytes {m : Memory} (h : m.wf) {a : Nat} {bs : List Byte} (hr : a + bs.length ≤ Config.memSize) :
    (m.writeBytes a bs).wf := by
  obtain ⟨hs, hc⟩ := h
  refine ⟨?_, ?_⟩
  · unfold Memory.writeBytes
    rw [List.pairwise_append, List.pairwise_append]
    refine ⟨hs.filter _, ⟨Memory.cells_sorted a bs, hs.filter _, ?_⟩, ?_⟩
    · intro c hc d hd
      have h1 := (Memory.cells_addr hc).2.1
      have h2 := of_decide_eq_true (List.mem_filter.mp hd).2
      omega
    · intro c hc d hd
      have h1 := of_decide_eq_true (List.mem_filter.mp hc).2
      rcases List.mem_append.mp hd with hd | hd
      · have := (Memory.cells_addr hd).1
        omega
      · have := of_decide_eq_true (List.mem_filter.mp hd).2
        omega
  · intro c hm
    unfold Memory.writeBytes at hm
    rcases List.mem_append.mp hm with hm | hm
    · exact hc c (List.mem_filter.mp hm).1
    · rcases List.mem_append.mp hm with hm | hm
      · obtain ⟨_, h2, h3⟩ := Memory.cells_addr hm
        exact ⟨by omega, h3⟩
      · exact hc c (List.mem_filter.mp hm).1

/-- What an address of the first entry reads as, and of none before it. -/
theorem Memory.read_eq_unwritten_of_lt {m : Memory} {a : Nat} (h : ∀ c ∈ m, a < c.1) : m.read a = Config.unwrittenByte :=
  Memory.read_of_not_listed fun c hc e => by have := h c hc; omega

/-- Canonical memories that read the same are equal. -/
theorem Memory.ext_of_wf {m n : Memory} (hm : m.wf) (hn : n.wf) (h : ∀ a, m.read a = n.read a) : m = n := by
  induction m generalizing n with
  | nil =>
    cases n with
    | nil => rfl
    | cons d n =>
      exact absurd ((h d.1).symm.trans rfl) (by rw [Memory.read_cons, if_pos rfl]; exact (hn.2 d List.mem_cons_self).2)
  | cons c m ih =>
    obtain ⟨hms, hmc⟩ := hm
    rw [List.pairwise_cons] at hms
    cases n with
    | nil => exact absurd ((h c.1).trans rfl) (by rw [Memory.read_cons, if_pos rfl]; exact (hmc c List.mem_cons_self).2)
    | cons d n =>
      obtain ⟨hns, hnc⟩ := hn
      rw [List.pairwise_cons] at hns
      have hc2 := (hmc c List.mem_cons_self).2
      have hd2 := (hnc d List.mem_cons_self).2
      have haddr : c.1 = d.1 := by
        rcases Nat.lt_trichotomy c.1 d.1 with hlt | heq | hgt
        · have e := h c.1
          rw [Memory.read_cons, if_pos rfl, Memory.read_cons, if_neg (by omega),
            Memory.read_eq_unwritten_of_lt fun x hx => by have := hns.1 x hx; omega] at e
          exact absurd e hc2
        · exact heq
        · have e := h d.1
          rw [Memory.read_cons, if_neg (by omega), Memory.read_cons, if_pos rfl,
            Memory.read_eq_unwritten_of_lt fun x hx => by have := hms.1 x hx; omega] at e
          exact absurd e.symm hd2
      have hval : c.2 = d.2 := by
        have e := h c.1
        rw [Memory.read_cons, if_pos rfl, Memory.read_cons, if_pos haddr.symm] at e
        exact e
      have hcd : c = d := Prod.ext haddr hval
      subst hcd
      refine congrArg _ (ih ⟨hms.2, fun x hx => hmc x (List.mem_cons_of_mem _ hx)⟩
        ⟨hns.2, fun x hx => hnc x (List.mem_cons_of_mem _ hx)⟩ fun a => ?_)
      by_cases ha : c.1 = a
      · rw [Memory.read_eq_unwritten_of_lt fun x hx => by have := hms.1 x hx; omega,
          Memory.read_eq_unwritten_of_lt fun x hx => by have := hns.1 x hx; omega]
      · have e := h a
        rwa [Memory.read_cons, if_neg ha, Memory.read_cons, if_neg ha] at e

/-- The memory of the reset state has the canonical form. -/
theorem Memory.wf_reset : State.reset.mem.wf := by
  decide

theorem State.readM_writeM (s : State) (a : Nat) (bs : List Byte) (x : Nat) :
    (s.writeM a bs).readM x = if a ≤ x ∧ x < a + bs.length then bs.getD (x - a) 0#8 else s.readM x :=
  Memory.read_writeBytes s.mem a bs x

end Sys2Proof.Machine
end

