-- ==== Sys2Proof/Laws/Ops.lean ====
section
/-! SUPPORT. For each shared operation, once, everything it can do; provers cite these instead of unfolding the operation. -/

namespace Sys2Proof.Machine

/-- `respond` answers the state with the response, and nothing else. -/
theorem respond_next {d : Word} {s t : State} : respond d s = .next t ↔ t = s.withResponse d := by
  simp [respond, eq_comm]

/-- `done` responds with `RDATA = 0`. -/
theorem done_next {s t : State} : done s = .next t ↔ t = s.withResponse 0#32 := by
  simp [done, respond, eq_comm]

/-- `enterFault` answers the state right after fault entry, and nothing else. -/
theorem enterFault_next {c : Word} {x : Cause} {info : Word} {s t : State} :
    enterFault c x info s = .next t ↔ t = s.faultEntry c x info := by
  simp [enterFault, eq_comm]

/-- `raise` enters the fault with the command's own word. -/
theorem raise_next {i : Instr} {x : Cause} {info : Nat} {s t : State} :
    raise i x info s = .next t ↔ t = s.faultEntry (encode i) x (word info) := by
  simp [raise, enterFault, eq_comm]

/-- The gate of the fault state: either the command is refused or the meaning is what it answers. -/
theorem whenReady_next {s t : State} {k : Result} :
    whenReady s k = .next t ↔ (s.faulted = true ∧ t = s.withResponse 0#32) ∨ (s.faulted = false ∧ k = .next t) := by
  unfold whenReady refuse
  cases h : s.faulted <;> simp [respond, eq_comm]

theorem whenReady_of_ready {s : State} (h : s.faulted = false) (k : Result) : whenReady s k = k := by
  simp [whenReady, h]

theorem whenReady_of_faulted {s : State} (h : s.faulted = true) (k : Result) : whenReady s k = .next (s.withResponse 0#32) := by
  simp [whenReady, h, refuse, respond]

/-- `MODTAB[m]` is defined exactly for `m` below 30. -/
theorem modulus?_eq_some {s : State} {m : Nat} (h : m < 30) : s.modulus? m = some s.modtab[m] := by
  simp [State.modulus?, h]

theorem modulus?_eq_none {s : State} {m : Nat} : s.modulus? m = none ↔ 30 ≤ m := by
  simp [State.modulus?]

/-- The modulus check: either the index names a modulus and the meaning goes on with it, or the command faults. -/
theorem withModulus_next {i : Instr} {m : ModIdx} {s t : State} {k : Modulus → Result} :
    withModulus i m s k = .next t ↔
      (∃ P, s.modulus? m.val = some P ∧ k P = .next t) ∨
      (30 ≤ m.val ∧ t = s.faultEntry (encode i) .illegalModulus (word m.val)) := by
  unfold withModulus
  cases h : s.modulus? m.val with
  | none => simp [raise_next, modulus?_eq_none.mp h]
  | some P =>
    have : ¬ 30 ≤ m.val := fun hm => by rw [modulus?_eq_none.mpr hm] at h; cases h
    simp [this]

theorem withModulus_of_some {i : Instr} {m : ModIdx} {s : State} {k : Modulus → Result} {P : Modulus}
    (h : s.modulus? m.val = some P) : withModulus i m s k = k P := by
  simp [withModulus, h]

theorem withModulus_of_illegal {i : Instr} {m : ModIdx} {s : State} {k : Modulus → Result} (h : 30 ≤ m.val) :
    withModulus i m s k = .next (s.faultEntry (encode i) .illegalModulus (word m.val)) := by
  simp [withModulus, modulus?_eq_none.mpr h, raise, enterFault]

/-! ### Tables -/

/-- A slot lies inside memory. -/
theorem slotAddr_le (sl : Slot) : slotAddr sl + 256 ≤ Config.memSize := by
  have := sl.isLt
  simp only [slotAddr, Config.memSize]
  omega

/-- Two slots that are not the same share no byte. -/
theorem slotAddr_disjoint {a b : Slot} (h : a ≠ b) : slotAddr a + 256 ≤ slotAddr b ∨ slotAddr b + 256 ≤ slotAddr a := by
  have : a.val ≠ b.val := fun e => h (Fin.ext e)
  simp only [slotAddr]
  omega

@[simp] theorem length_table (s : State) (sl : Slot) : (s.table sl).length = 256 := by
  simp [State.table]

/-- Entry `k` of the S-box in a slot is the byte `k` places above the slot's address (R53). -/
theorem entry_table (s : State) (sl : Slot) (k : Byte) : entry (s.table sl) k = s.readM (slotAddr sl + k.toNat) := by
  have := k.isLt
  exact Memory.getD_readBytes _ (by simp only [Config.sboxLen]; omega) _

@[simp] theorem length_allBytes : allBytes.length = 256 := by
  simp [allBytes]

@[simp] theorem length_tableOf (f : Byte → Byte) : (tableOf f).length = 256 := by
  simp [tableOf]

/-- Entry `k` of `tableOf f` is `f k`. -/
theorem getD_tableOf (f : Byte → Byte) {k : Nat} (h : k < 256) (d : Byte) : (tableOf f).getD k d = f (BitVec.ofNat 8 k) := by
  simp [tableOf, allBytes, h]

theorem entry_tableOf (f : Byte → Byte) (k : Byte) : entry (tableOf f) k = f k := by
  rw [entry, getD_tableOf f k.isLt]
  simp

/-- Writing a table of 256 entries: what every address reads after. -/
theorem readM_writeTable (s : State) (sl : Slot) {t : Table} (h : t.length = 256) (x : Nat) :
    (s.writeTable sl t).readM x =
      if slotAddr sl ≤ x ∧ x < slotAddr sl + 256 then t.getD (x - slotAddr sl) 0#8 else s.readM x := by
  rw [State.writeTable, State.readM_writeM, h]

/-- Writing several tables changes memory only. -/
theorem writeTables_frame (ts : List (Slot × Table)) (s : State) :
    (s.writeTables ts).b = s.b ∧ (s.writeTables ts).p = s.p ∧ (s.writeTables ts).fsr = s.fsr ∧
    (s.writeTables ts).fcw = s.fcw ∧ (s.writeTables ts).finfo = s.finfo ∧ (s.writeTables ts).modtab = s.modtab ∧
    (s.writeTables ts).host = s.host ∧ (s.writeTables ts).rsp = s.rsp ∧ (s.writeTables ts).cuts = s.cuts := by
  unfold State.writeTables
  induction ts generalizing s with
  | nil => simp
  | cons x ts ih => simpa [State.writeTable] using ih (s.writeTable x.1 x.2)

@[simp] theorem State.writeTables_b (s : State) (ts : List (Slot × Table)) : (s.writeTables ts).b = s.b :=
  (writeTables_frame ts s).1
@[simp] theorem State.writeTables_p (s : State) (ts : List (Slot × Table)) : (s.writeTables ts).p = s.p :=
  (writeTables_frame ts s).2.1
@[simp] theorem State.writeTables_fsr (s : State) (ts : List (Slot × Table)) : (s.writeTables ts).fsr = s.fsr :=
  (writeTables_frame ts s).2.2.1
@[simp] theorem State.writeTables_fcw (s : State) (ts : List (Slot × Table)) : (s.writeTables ts).fcw = s.fcw :=
  (writeTables_frame ts s).2.2.2.1
@[simp] theorem State.writeTables_finfo (s : State) (ts : List (Slot × Table)) : (s.writeTables ts).finfo = s.finfo :=
  (writeTables_frame ts s).2.2.2.2.1
@[simp] theorem State.writeTables_modtab (s : State) (ts : List (Slot × Table)) : (s.writeTables ts).modtab = s.modtab :=
  (writeTables_frame ts s).2.2.2.2.2.1
@[simp] theorem State.writeTables_host (s : State) (ts : List (Slot × Table)) : (s.writeTables ts).host = s.host :=
  (writeTables_frame ts s).2.2.2.2.2.2.1
@[simp] theorem State.writeTables_rsp (s : State) (ts : List (Slot × Table)) : (s.writeTables ts).rsp = s.rsp :=
  (writeTables_frame ts s).2.2.2.2.2.2.2.1
@[simp] theorem State.writeTables_cuts (s : State) (ts : List (Slot × Table)) : (s.writeTables ts).cuts = s.cuts :=
  (writeTables_frame ts s).2.2.2.2.2.2.2.2
@[simp] theorem State.readB_writeTables (s : State) (ts : List (Slot × Table)) (r : BReg) :
    (s.writeTables ts).readB r = s.readB r := by
  simp [State.readB]
@[simp] theorem State.readP_writeTables (s : State) (ts : List (Slot × Table)) (r : PReg) :
    (s.writeTables ts).readP r = s.readP r := by
  simp [State.readP]
@[simp] theorem State.faulted_writeTables (s : State) (ts : List (Slot × Table)) : (s.writeTables ts).faulted = s.faulted := by
  simp [State.faulted]

/-- Writing several tables keeps the canonical form of memory. -/
theorem writeTables_wf {ts : List (Slot × Table)} {s : State} (h : s.mem.wf) (hl : ∀ x ∈ ts, x.2.length = 256) :
    (s.writeTables ts).mem.wf := by
  unfold State.writeTables
  induction ts generalizing s with
  | nil => exact h
  | cons x ts ih =>
    refine ih (s := s.writeTable x.1 x.2) ?_ fun y hy => hl y (List.mem_cons_of_mem _ hy)
    exact Memory.wf_writeBytes h (by rw [hl x List.mem_cons_self]; exact slotAddr_le x.1)

/-- An address outside every written slot reads as before. -/
theorem readM_writeTables_of_outside {ts : List (Slot × Table)} {s : State} {x : Nat} (hl : ∀ y ∈ ts, y.2.length = 256)
    (h : ∀ y ∈ ts, ¬ (slotAddr y.1 ≤ x ∧ x < slotAddr y.1 + 256)) : (s.writeTables ts).readM x = s.readM x := by
  unfold State.writeTables
  induction ts generalizing s with
  | nil => rfl
  | cons y ts ih =>
    refine (ih (s := s.writeTable y.1 y.2) (fun z hz => hl z (List.mem_cons_of_mem _ hz))
      fun z hz => h z (List.mem_cons_of_mem _ hz)).trans ?_
    rw [readM_writeTable s y.1 (hl y List.mem_cons_self), if_neg (h y List.mem_cons_self)]

/-- Of tables written to different slots, each reads back. -/
theorem readM_writeTables_of_mem {ts : List (Slot × Table)} {s : State} (hl : ∀ y ∈ ts, y.2.length = 256)
    (hd : ts.Pairwise (fun y z => y.1 ≠ z.1)) {y : Slot × Table} (hy : y ∈ ts) {k : Nat} (hk : k < 256) :
    (s.writeTables ts).readM (slotAddr y.1 + k) = y.2.getD k 0#8 := by
  induction ts generalizing s with
  | nil => cases hy
  | cons z ts ih =>
    rw [List.pairwise_cons] at hd
    have hl' := fun w hw => hl w (List.mem_cons_of_mem z hw)
    rcases List.mem_cons.mp hy with rfl | hy
    · have := readM_writeTables_of_outside (s := s.writeTable y.1 y.2) (x := slotAddr y.1 + k) hl' fun w hw => by
        have := slotAddr_disjoint (hd.1 w hw)
        omega
      refine this.trans ?_
      rw [readM_writeTable s y.1 (hl y List.mem_cons_self), if_pos (by omega), Nat.add_sub_cancel_left]
    · exact ih (s := s.writeTable z.1 z.2) hl' hd.2 hy

/-! ### One step -/

/-- Everything a step can do: the unit holds its state, executes a legal command, meets an illegal word, or is reset. -/
theorem step_cases {s t : State} (h : step s = .next t) :
    (s.host = [] ∧ t = s) ∨
    (∃ c rest i, s.host = .command c :: rest ∧ decode c = .ok i ∧ exec i { s with host := rest } = .next t) ∨
    (∃ c rest e, s.host = .command c :: rest ∧ decode c = .error e ∧
      whenReady { s with host := rest } (enterFault c .illegalCommand 0#32 { s with host := rest }) = .next t) ∨
    (∃ rest, s.host = .reset :: rest ∧ t = State.assertReset { s with host := rest }) ∨
    (∃ c rest, s.host = .resetDuring c :: rest ∧ t = State.resetCuttingShort c { s with host := rest }) := by
  unfold step at h
  split at h
  · next he => exact .inl ⟨he, by simpa using h.symm⟩
  · next c rest he =>
    unfold issue at h
    split at h
    · next i hd => exact .inr (.inl ⟨c, rest, i, he, hd, h⟩)
    · next e hd => exact .inr (.inr (.inl ⟨c, rest, e, he, hd, h⟩))
  · next rest he => exact .inr (.inr (.inr (.inl ⟨rest, he, by simpa using h.symm⟩)))
  · next c rest he => exact .inr (.inr (.inr (.inr ⟨c, rest, he, by simpa using h.symm⟩)))

end Sys2Proof.Machine
end

