-- ==== Sys2Proof/Laws/Sbox.lean ====
section
/-! SUPPORT. The S-box operations (`42_sbox.md` R140, R148, R149) against their meaning: tables in memory as functions, what
`isPerm` and `missing` decide, and where the scans of `SBINVS` and `SBMIX` stop. -/

namespace Sys2Proof.Machine

/-! ### Tables in memory -/

theorem entry_slot (s : State) (sl : Slot) (k : Byte) : entry (s.table sl) k = slotEntry s sl k := by
  rw [entry_table, slotEntry, slotAddr]

theorem entry_lane (s : State) (t : SlotSet) (i : Lane) (k : Byte) :
    entry (s.table (laneSlot t i)) k = laneEntry s t i k := by
  rw [entry_table, laneEntry]
  congr 1
  simp only [slotAddr, laneSlot]
  omega

/-! ### Permutations -/

theorem getLsbD_seen_fold (t : Table) (a : BitVec 256) (v : Nat) :
    (t.foldl (fun acc v => acc ||| (1#256 <<< v.toNat)) a).getLsbD v = (a.getLsbD v || t.any (fun x => x.toNat == v)) := by
  induction t generalizing a with
  | nil => simp
  | cons x t ih =>
    have hx := x.isLt
    have : (decide (v < 256) && !decide (v < x.toNat) && (1#256).getLsbD (v - x.toNat)) = (x.toNat == v) := by
      rcases Nat.lt_trichotomy v x.toNat with h | h | h
      · have : ¬ x.toNat = v := by omega
        simp [h, this]
      · subst h
        simp [hx]
      · have e1 : ¬ x.toNat = v := by omega
        have e2 : (1#256).getLsbD (v - x.toNat) = false := by
          have : v - x.toNat ≠ 0 := by omega
          simp [BitVec.getLsbD_one, this]
        simp [e1, e2]
    simp only [List.foldl_cons, ih, List.any_cons, BitVec.getLsbD_or, BitVec.getLsbD_shiftLeft, Bool.or_assoc]
    rw [this]

/-- Bit `v` of the seen-set says whether `v` is an entry. -/
theorem getLsbD_seenSet {t : Table} (h : t.length = 256) (v : Byte) :
    (seenSet t).getLsbD v.toNat = true ↔ ∃ k, entry t k = v := by
  rw [seenSet, getLsbD_seen_fold, BitVec.getLsbD_zero, Bool.false_or, List.any_eq_true]
  constructor
  · rintro ⟨x, hx, e⟩
    obtain ⟨j, hj, rfl⟩ := List.mem_iff_getElem.mp hx
    refine ⟨BitVec.ofNat 8 j, ?_⟩
    rw [entry, show (BitVec.ofNat 8 j).toNat = j by simp; omega, List.getD_eq_getElem _ _ hj]
    exact BitVec.eq_of_toNat_eq (by simpa using e)
  · rintro ⟨k, rfl⟩
    have hk : k.toNat < t.length := by have := k.isLt; omega
    refine ⟨t[k.toNat], List.getElem_mem _, ?_⟩
    rw [entry, List.getD_eq_getElem _ _ hk]
    simp

/-- `is_perm` decides whether the table is a bijection (R140). -/
theorem isPerm_iff {t : Table} (h : t.length = 256) : isPerm t = true ↔ IsBijection (entry t) := by
  rw [isPerm, IsBijection, beq_iff_eq]
  constructor
  · intro e v
    rw [← getLsbD_seenSet h, e, BitVec.getLsbD_allOnes]
    simpa using v.isLt
  · intro hb
    apply BitVec.eq_of_getLsbD_eq
    intro i hi
    have := (getLsbD_seenSet h (BitVec.ofNat 8 i)).mpr (hb _)
    rw [show (BitVec.ofNat 8 i).toNat = i by simp; omega] at this
    rw [this, BitVec.getLsbD_allOnes]
    simp [hi]

/-- `missing` of a table that is no permutation: no entry has that value, every smaller value is an entry (R140). -/
theorem missing_spec {t : Table} (h : t.length = 256) (hp : isPerm t = false) :
    ∃ v : Byte, missing t = v.toNat ∧ (∀ k, entry t k ≠ v) ∧ ∀ w : Byte, w.toNat < v.toNat → ∃ k, entry t k = w := by
  have hb : ¬ IsBijection (entry t) := fun hb => by rw [(isPerm_iff h).mpr hb] at hp; cases hp
  unfold missing
  cases e : (List.range 256).find? (fun v => !(seenSet t).getLsbD v) with
  | none =>
    rw [List.find?_eq_none] at e
    refine absurd (fun v => ?_) hb
    have := e v.toNat (by simpa using v.isLt)
    rw [← getLsbD_seenSet h]
    simpa using this
  | some n =>
    rw [List.find?_eq_some_iff_getElem] at e
    obtain ⟨h1, i, hi, h2, h3⟩ := e
    simp only [List.length_range, List.getElem_range] at hi h2
    subst h2
    have hn : (BitVec.ofNat 8 i).toNat = i := by simp; omega
    refine ⟨BitVec.ofNat 8 i, hn.symm, fun k hk => ?_, fun w hw => ?_⟩
    · have := (getLsbD_seenSet h (BitVec.ofNat 8 i)).mpr ⟨k, hk⟩
      rw [hn] at this
      simp [this] at h1
    · rw [hn] at hw
      rw [← getLsbD_seenSet h]
      simpa using h3 w.toNat hw

/-! ### The scan of SBINVS -/

theorem firstBadLane_eq_some {s : State} {ts : SlotSet} {i : Lane} (h : firstBadLane s ts = some i) :
    isPerm (s.table (laneSlot ts i)) = false ∧ ∀ j : Lane, j.val < i.val → isPerm (s.table (laneSlot ts j)) = true := by
  rw [firstBadLane, List.find?_eq_some_iff_getElem] at h
  obtain ⟨h1, n, hn, h2, h3⟩ := h
  simp only [List.getElem_finRange] at h2
  subst h2
  exact ⟨by simpa using h1, fun j hj => by simpa using h3 j.val hj⟩

theorem firstBadLane_eq_none {s : State} {ts : SlotSet} (h : firstBadLane s ts = none) (i : Lane) :
    isPerm (s.table (laneSlot ts i)) = true := by
  rw [firstBadLane, List.find?_eq_none] at h
  simpa using h i (by simp)

/-! ### The scan of SBMIX -/

/-- `badPair` in the terms of R55. -/
theorem badPair_eq (s : State) (r L : Nat) (i : Lane) :
    badPair s r L i.val = if 30 ≤ (mixIndex s r L i).toNat then some (.illegalModulus, (mixIndex s r L i).toNat)
      else if mixMult s r L i = 0#8 then some (.domainError, 0) else none := rfl

/-- A pair of a mix record is good when its index is below 30 and its multiplier is not zero (R55). -/
theorem badPair_eq_none {s : State} {r L : Nat} {i : Lane} :
    badPair s r L i.val = none ↔ (mixIndex s r L i).toNat < 30 ∧ mixMult s r L i ≠ 0#8 := by
  rw [badPair_eq]
  split
  · simp
    omega
  · split <;> simp_all

theorem badPair_domainError {s : State} {r L : Nat} {i : Lane} {n : Nat} :
    badPair s r L i.val = some (.domainError, n) ↔
      (mixIndex s r L i).toNat < 30 ∧ mixMult s r L i = 0#8 ∧ n = 0 := by
  rw [badPair_eq]
  split
  · simp
    omega
  · split <;> simp_all [eq_comm]

theorem badPair_illegalModulus {s : State} {r L : Nat} {i : Lane} {n : Nat} :
    badPair s r L i.val = some (.illegalModulus, n) ↔
      30 ≤ (mixIndex s r L i).toNat ∧ n = (mixIndex s r L i).toNat := by
  rw [badPair_eq]
  split
  · simp_all [eq_comm]
  · split <;> simp_all

/-- A bad pair raises one of two causes. -/
theorem badPair_cause {s : State} {r L i : Nat} {x : Cause} {n : Nat} (h : badPair s r L i = some (x, n)) :
    x = .domainError ∨ x = .illegalModulus := by
  unfold badPair at h
  split at h
  · simp only [Option.some.injEq, Prod.mk.injEq] at h
    exact .inr h.1.symm
  · split at h
    · simp only [Option.some.injEq, Prod.mk.injEq] at h
      exact .inl h.1.symm
    · cases h

/-- The first `some` of a function over `0 .. n-1`. -/
theorem findSome?_range_eq_some {α : Type} {f : Nat → Option α} {n : Nat} {y : α} :
    (List.range n).findSome? f = some y ↔ ∃ j < n, f j = some y ∧ ∀ k < j, f k = none := by
  induction n with
  | zero => simp
  | succ n ih =>
    rw [List.range_succ, List.findSome?_append, Option.or_eq_some_iff]
    constructor
    · rintro (h | ⟨h1, h2⟩)
      · obtain ⟨j, hj, h⟩ := ih.mp h
        exact ⟨j, by omega, h⟩
      · rw [List.findSome?_eq_none_iff] at h1
        exact ⟨n, by omega, by simpa using h2, fun k hk => h1 k (by simpa using hk)⟩
    · rintro ⟨j, hj, h1, h2⟩
      by_cases e : j = n
      · subst e
        refine .inr ⟨?_, by simpa using h1⟩
        rw [List.findSome?_eq_none_iff]
        exact fun k hk => h2 k (by simpa using hk)
      · exact .inl (ih.mpr ⟨j, by omega, h1, h2⟩)

/-- The scan stops at the first bad pair, layers ascending, lanes ascending within a layer (R149, R179). -/
theorem firstBadPair_eq_some {s : State} {mb k : Nat} {y : Cause × Nat} :
    firstBadPair s mb k = some y ↔
      ∃ L < k, ∃ i : Lane, badPair s mb L i.val = some y ∧
        ∀ (L' : Nat) (i' : Lane), L' < L ∨ (L' = L ∧ i'.val < i.val) → badPair s mb L' i'.val = none := by
  rw [firstBadPair, findSome?_range_eq_some]
  constructor
  · rintro ⟨L, hL, h1, h2⟩
    obtain ⟨i, hi, h3, h4⟩ := findSome?_range_eq_some.mp h1
    refine ⟨L, hL, ⟨i, hi⟩, h3, ?_⟩
    rintro L' i' (h | ⟨rfl, h⟩)
    · have := h2 L' h
      rw [List.findSome?_eq_none_iff] at this
      exact this i'.val (by simp)
    · exact h4 _ h
  · rintro ⟨L, hL, i, h1, h2⟩
    refine ⟨L, hL, findSome?_range_eq_some.mpr ⟨i.val, i.isLt, h1, fun j hj => h2 L ⟨j, by omega⟩ (.inr ⟨rfl, hj⟩)⟩, ?_⟩
    intro L' hL'
    rw [List.findSome?_eq_none_iff]
    exact fun j hj => h2 L' ⟨j, by simpa using hj⟩ (.inl hL')

/-- No pair is bad exactly when the scan finds none. -/
theorem firstBadPair_eq_none {s : State} {mb k : Nat} :
    firstBadPair s mb k = none ↔ ∀ L < k, ∀ i : Lane, badPair s mb L i.val = none := by
  simp only [firstBadPair, List.findSome?_eq_none_iff, List.mem_range]
  exact ⟨fun h L hL i => h L hL i.val i.isLt, fun h L hL i hi => h L hL ⟨i, hi⟩⟩

theorem firstBadPair_cause {s : State} {mb k : Nat} {x : Cause} {n : Nat} (h : firstBadPair s mb k = some (x, n)) :
    x = .domainError ∨ x = .illegalModulus := by
  obtain ⟨L, -, i, h, -⟩ := firstBadPair_eq_some.mp h
  exact badPair_cause h

/-! ### What SBMIX and SBINVS answer -/

theorem execSbmix_cases {td ts : SlotSet} {dir : Dir} {k : LayerCount} {r : MixRec} {s t : State} (hr : s.faulted = false)
    (h : execSbmix td ts dir k r s = .next t) :
    (1 ≤ k.val ∧ 1024 < r.val + k.val ∧ t = s.faultEntry (encode (.sbmix td ts dir k r)) .addressRange (word 32768)) ∨
    (r.val + k.val ≤ 1024 ∧ ∃ x n, firstBadPair s r.val k.val = some (x, n) ∧
      t = s.faultEntry (encode (.sbmix td ts dir k r)) x (word n)) ∨
    (r.val + k.val ≤ 1024 ∧ firstBadPair s r.val k.val = none ∧
      t = (s.writeTables
        ((List.finRange 16).map (fun pos => (laneSlot td pos, mixedTable s ts dir r.val k.val pos)))).withResponse 0#32) := by
  rw [execSbmix, whenReady_of_ready hr] at h
  split at h
  · next hc => exact .inl ⟨hc.1, hc.2, raise_next.mp h⟩
  · next hc =>
    have hle : r.val + k.val ≤ 1024 := by
      have : ¬ (1 ≤ k.val ∧ 1024 < r.val + k.val) := hc
      omega
    split at h
    · next x n e => exact .inr (.inl ⟨hle, x, n, e, raise_next.mp h⟩)
    · next e => exact .inr (.inr ⟨hle, e, done_next.mp h⟩)

theorem execSbinvs_cases {td ts : SlotSet} {dir : Dir} {s t : State} (hr : s.faulted = false)
    (h : execSbinvs td ts dir s = .next t) :
    (∃ i, firstBadLane s ts = some i ∧ t = s.faultEntry (encode (.sbinvs td ts dir)) .notBijective
      (word ((i.val <<< 8) ||| missing (s.table (laneSlot ts i))))) ∨
    (firstBadLane s ts = none ∧ t = (s.writeTables (inverseTables s td ts dir)).withResponse 0#32) := by
  rw [execSbinvs, whenReady_of_ready hr] at h
  split at h
  · next i e => exact .inl ⟨i, e, raise_next.mp h⟩
  · next e => exact .inr ⟨e, done_next.mp h⟩

end Sys2Proof.Machine
end

