-- ==== Sys2Proof/Laws/Exec.lean ====
section
/-! SUPPORT. Everything a command can answer, said once: `exec_cases`. A claim about every command cites it instead of unfolding
41 meanings. -/

namespace Sys2Proof.Machine

/-- The modulus check as one `if`. -/
theorem withModulus_eq (i : Instr) (m : ModIdx) (s : State) (k : Modulus → Result) :
    withModulus i m s k =
      if h : m.val < 30 then k s.modtab[m.val] else .next (s.faultEntry (encode i) .illegalModulus (word m.val)) := by
  split
  · next h => rw [withModulus_of_some (modulus?_eq_some h)]
  · next h => rw [withModulus_of_illegal (by omega)]

/-- What `exec i s` can be: one byte register, one or two polynomial registers, one range or several tables of memory written and
the response 0; only a response; or, in no fault state, fault entry with a cause listed for the command. -/
inductive Answers (i : Instr) (s t : State) : Prop where
  | byteRegister (bd : BReg) (v : Byte) (hw : writesByteRegister i = true) (eq : t = (s.writeB bd v).withResponse 0#32)
  | polynomialRegister (pd : PReg) (q : Poly) (hw : writesPolynomialRegister i = true)
      (eq : t = (s.writeP pd q).withResponse 0#32)
  | polynomialRegisters (pr pq : PReg) (r q : Poly) (hw : writesPolynomialRegister i = true)
      (eq : t = ((s.writeP pr r).writeP pq q).withResponse 0#32)
  | memory (a : Nat) (bs : List Byte) (hw : writesMemory i = true) (eq : t = (s.writeM a bs).withResponse 0#32)
  | tables (ts : List (Slot × Table)) (hw : writesMemory i = true) (hl : ∀ x ∈ ts, x.2.length = 256)
      (eq : t = (s.writeTables ts).withResponse 0#32)
  | response (d : Word) (eq : t = s.withResponse d)
  | fault (x : Cause) (info : Word) (hr : s.faulted = false)
      (hx : x ∈ listedFaults i ∨ (x = .illegalCommand ∧ i.distinctResults = false))
      (eq : t = s.faultEntry (encode i) x info)

/-- A command in the fault state only responds. -/
theorem exec_of_faulted {i : Instr} {s : State} (hf : s.faulted = true) : ∃ d, exec i s = .next (s.withResponse d) := by
  cases i
  case rdcr cr => exact ⟨s.controlReg cr, rfl⟩
  all_goals
    refine ⟨0#32, ?_⟩
    simp only [exec, execNop, execRdb, execMwr, execMrd, execLdb, execStb, execLdbx, execStbx, execFldi, execFmov, execFadd,
      execFmul, execFdiv, execFinv, execFred, execModp, execLane, execPclr, execPmov, execPput, execPget, execPlen, execPld,
      execPst, execPcmp, execPadd, execPshu, execPshd, execPmul, execPdiv, execPmonic, execPxeu, execSbid, execSbchk,
      execSbinv, execSbcomp, execSbpre, execSbpost, execSbinvs, execSbmix, whenReady_of_faulted hf]

/-- Everything a command can answer. -/
theorem exec_cases {i : Instr} {s t : State} (h : exec i s = .next t) : Answers i s t := by
  cases hf : s.faulted with
  | true =>
    obtain ⟨d, e⟩ := exec_of_faulted (i := i) hf
    rw [e] at h
    simp only [Host.Outcome.next.injEq] at h
    exact .response d h.symm
  | false =>
    cases i
    case sbmix td ts dir k r =>
      rcases execSbmix_cases hf h with ⟨_, _, e⟩ | ⟨_, x, n, hx, e⟩ | ⟨_, _, e⟩
      · exact .fault _ _ hf (.inl (by simp [listedFaults])) e
      · exact .fault _ _ hf (.inl (by rcases firstBadPair_cause hx with rfl | rfl <;> simp [listedFaults])) e
      · exact .tables _ rfl (by simp [mixedTable]) e
    case sbinvs td ts dir =>
      rcases execSbinvs_cases hf h with ⟨i, _, e⟩ | ⟨_, e⟩
      · exact .fault _ _ hf (.inl (by simp [listedFaults])) e
      · exact .tables _ rfl (by simp [inverseTables, permInv]) e
    all_goals
      simp only [exec, execNop, execRdcr, execRdb, execMwr, execMrd, execLdb, execStb, execLdbx, execStbx, execFldi, execFmov,
        execFadd, execFmul, execFdiv, execFinv, execFred, execModp, execLane, execPclr, execPmov, execPput, execPget, execPlen,
        execPld, execPst, execPcmp, execPadd, execPshu, execPshd, execPmul, execPdiv, execPmonic, execPxeu, execSbid, execSbchk,
        execSbinv, execSbcomp, execSbpre, execSbpost, whenReady_of_ready hf, withModulus_eq] at h
      repeat' split at h
      all_goals first
        | rw [raise_next] at h
        | rw [done_next] at h
        | rw [respond_next] at h
        | (simp only [Host.Outcome.next.injEq] at h; replace h := h.symm)
      all_goals first
        | exact .response _ h
        | exact .byteRegister _ _ rfl h
        | exact .polynomialRegister _ _ rfl h
        | exact .polynomialRegisters _ _ _ _ rfl h
        | exact .memory _ _ rfl h
        | (refine .fault _ _ hf (.inl ?_) h; simp [listedFaults]; done)
        | (refine .fault _ _ hf (.inr ⟨rfl, ?_⟩) h; clear h; simp_all [Instr.distinctResults])

end Sys2Proof.Machine
end

