-- ==== Sys2Proof/Laws/PerInstr.lean ====
section
/-! SUPPORT. Statements about every command as syntax, one lemma per constructor: the word of a command matches the row of
`spec/opcode_table.json` for its mnemonic (`30_encoding.md` R66, R67, R71). -/

namespace Sys2Proof.Laws

/-- The `(match, mask)` pair of the table's row for a command. -/
def rowOf : Instr → Word × Word
  | .nop => (0x00000000#32, 0xFFFFFFFF#32)
  | .rdcr _ => (0x01000000#32, 0xFFFFFFF8#32)
  | .rdb _ => (0x02000000#32, 0xFF0FFFFF#32)
  | .mwr _ _ => (0x10000000#32, 0xFF008000#32)
  | .mrd _ => (0x11000000#32, 0xFFFF8000#32)
  | .ldb _ _ => (0x12000000#32, 0xFF0F8000#32)
  | .stb _ _ => (0x13000000#32, 0xFF0F8000#32)
  | .ldbx _ _ _ => (0x14000000#32, 0xFF008000#32)
  | .stbx _ _ _ => (0x15000000#32, 0xFF008000#32)
  | .fldi _ _ => (0x20000000#32, 0xFF0FFF00#32)
  | .fmov _ _ => (0x21000000#32, 0xFF00FFFF#32)
  | .fadd _ _ _ => (0x22000000#32, 0xFF000FFF#32)
  | .fmul _ _ _ _ => (0x23000000#32, 0xFF000FE0#32)
  | .fdiv _ _ _ _ => (0x24000000#32, 0xFF000FE0#32)
  | .finv _ _ _ => (0x25000000#32, 0xFF00FFE0#32)
  | .fred _ _ _ _ => (0x26000000#32, 0xFF000FE0#32)
  | .modp _ => (0x27000000#32, 0xFFFFFFE0#32)
  | .lane _ _ _ => (0x28000000#32, 0xFF00FFFE#32)
  | .pclr _ => (0x30000000#32, 0xFF8FFFFF#32)
  | .pmov _ _ => (0x31000000#32, 0xFF88FFFF#32)
  | .pput _ _ _ => (0x32000000#32, 0xFF80FF00#32)
  | .pget _ _ _ => (0x33000000#32, 0xFF08FF00#32)
  | .plen _ _ => (0x34000000#32, 0xFF08FFFF#32)
  | .pld _ _ _ => (0x35000000#32, 0xFF808000#32)
  | .pst _ _ _ => (0x36000000#32, 0xFF808000#32)
  | .pcmp _ _ _ => (0x37000000#32, 0xFF088FFF#32)
  | .padd _ _ _ => (0x40000000#32, 0xFF888FFF#32)
  | .pshu _ _ _ => (0x41000000#32, 0xFF88FF00#32)
  | .pshd _ _ _ => (0x42000000#32, 0xFF88FF00#32)
  | .pmul _ _ _ _ => (0x43000000#32, 0xFF888FE0#32)
  | .pdiv _ _ _ _ _ => (0x44000000#32, 0xFF8888E0#32)
  | .pmonic _ _ _ => (0x45000000#32, 0xFF88FFE0#32)
  | .pxeu _ _ _ _ => (0x46000000#32, 0xFF888FE0#32)
  | .sbid _ => (0x50000000#32, 0xFF01FFFF#32)
  | .sbchk _ _ => (0x51000000#32, 0xFFFE021F#32)
  | .sbinv _ _ => (0x52000000#32, 0xFF0003FF#32)
  | .sbcomp _ _ _ => (0x53000000#32, 0xFF000007#32)
  | .sbpre _ _ _ _ => (0x54000000#32, 0xFF000200#32)
  | .sbpost _ _ _ _ => (0x55000000#32, 0xFF000200#32)
  | .sbinvs _ _ _ => (0x56000000#32, 0xFF01FFFF#32)
  | .sbmix _ _ _ _ _ => (0x57000000#32, 0xFF001C00#32)

/-- Bit 3 of a polynomial register field is 0 (R39, R68). -/
theorem pregBits_high (r : PReg) : (pregBits r)[3] = false := by
  revert r
  decide

/-- The word of the command matches its row of the table. -/
def TableRow.Statement (i : Instr) : Prop := encode i &&& (rowOf i).2 = (rowOf i).1

namespace TableRow

theorem nop : Statement (.nop) := by
  rfl

theorem rdcr (cr : CReg) : Statement (.rdcr cr) := by
  cases cr <;> rfl

theorem rdb (bs : BReg) : Statement (.rdb bs) := by
  unfold Statement rowOf encode formatR
  ext i hi
  simp only [BitVec.getElem_and, BitVec.getElem_append]
  interval_cases i <;> simp

theorem mwr (addr : Addr) (imm : Byte) : Statement (.mwr addr imm) := by
  unfold Statement rowOf encode formatW
  ext i hi
  simp only [BitVec.getElem_and, BitVec.getElem_append]
  interval_cases i <;> simp

theorem mrd (addr : Addr) : Statement (.mrd addr) := by
  unfold Statement rowOf encode formatM
  ext i hi
  simp only [BitVec.getElem_and, BitVec.getElem_append]
  interval_cases i <;> simp

theorem ldb (bd : BReg) (addr : Addr) : Statement (.ldb bd addr) := by
  unfold Statement rowOf encode formatM
  ext i hi
  simp only [BitVec.getElem_and, BitVec.getElem_append]
  interval_cases i <;> simp

theorem stb (bs : BReg) (addr : Addr) : Statement (.stb bs addr) := by
  unfold Statement rowOf encode formatM
  ext i hi
  simp only [BitVec.getElem_and, BitVec.getElem_append]
  interval_cases i <;> simp

theorem ldbx (bd : BReg) (addr : Addr) (bi : BReg) : Statement (.ldbx bd addr bi) := by
  unfold Statement rowOf encode formatM
  ext i hi
  simp only [BitVec.getElem_and, BitVec.getElem_append]
  interval_cases i <;> simp

theorem stbx (bs : BReg) (addr : Addr) (bi : BReg) : Statement (.stbx bs addr bi) := by
  unfold Statement rowOf encode formatM
  ext i hi
  simp only [BitVec.getElem_and, BitVec.getElem_append]
  interval_cases i <;> simp

theorem fldi (bd : BReg) (imm : Byte) : Statement (.fldi bd imm) := by
  unfold Statement rowOf encode formatI
  ext i hi
  simp only [BitVec.getElem_and, BitVec.getElem_append]
  interval_cases i <;> simp

theorem fmov (bd : BReg) (ba : BReg) : Statement (.fmov bd ba) := by
  unfold Statement rowOf encode formatR
  ext i hi
  simp only [BitVec.getElem_and, BitVec.getElem_append]
  interval_cases i <;> simp

theorem fadd (bd : BReg) (ba : BReg) (bb : BReg) : Statement (.fadd bd ba bb) := by
  unfold Statement rowOf encode formatR
  ext i hi
  simp only [BitVec.getElem_and, BitVec.getElem_append]
  interval_cases i <;> simp

theorem fmul (bd : BReg) (ba : BReg) (bb : BReg) (m : ModIdx) : Statement (.fmul bd ba bb m) := by
  unfold Statement rowOf encode formatR
  ext i hi
  simp only [BitVec.getElem_and, BitVec.getElem_append]
  interval_cases i <;> simp

theorem fdiv (bd : BReg) (ba : BReg) (bb : BReg) (m : ModIdx) : Statement (.fdiv bd ba bb m) := by
  unfold Statement rowOf encode formatR
  ext i hi
  simp only [BitVec.getElem_and, BitVec.getElem_append]
  interval_cases i <;> simp

theorem finv (bd : BReg) (ba : BReg) (m : ModIdx) : Statement (.finv bd ba m) := by
  unfold Statement rowOf encode formatR
  ext i hi
  simp only [BitVec.getElem_and, BitVec.getElem_append]
  interval_cases i <;> simp

theorem fred (bd : BReg) (ba : BReg) (bb : BReg) (m : ModIdx) : Statement (.fred bd ba bb m) := by
  unfold Statement rowOf encode formatR
  ext i hi
  simp only [BitVec.getElem_and, BitVec.getElem_append]
  interval_cases i <;> simp

theorem modp (m : ModIdx) : Statement (.modp m) := by
  unfold Statement rowOf encode formatR
  ext i hi
  simp only [BitVec.getElem_and, BitVec.getElem_append]
  interval_cases i <;> simp

theorem lane (bd : BReg) (ba : BReg) (dir : Dir) : Statement (.lane bd ba dir) := by
  unfold Statement rowOf encode formatI
  ext i hi
  simp only [BitVec.getElem_and, BitVec.getElem_append]
  interval_cases i <;> simp

theorem pclr (pd : PReg) : Statement (.pclr pd) := by
  unfold Statement rowOf encode formatR
  ext i hi
  simp only [BitVec.getElem_and, BitVec.getElem_append]
  interval_cases i <;> simp [pregBits_high]

theorem pmov (pd : PReg) (pa : PReg) : Statement (.pmov pd pa) := by
  unfold Statement rowOf encode formatR
  ext i hi
  simp only [BitVec.getElem_and, BitVec.getElem_append]
  interval_cases i <;> simp [pregBits_high]

theorem pput (pd : PReg) (idx : Byte) (bs : BReg) : Statement (.pput pd idx bs) := by
  unfold Statement rowOf encode formatI
  ext i hi
  simp only [BitVec.getElem_and, BitVec.getElem_append]
  interval_cases i <;> simp [pregBits_high]

theorem pget (bd : BReg) (pa : PReg) (idx : Byte) : Statement (.pget bd pa idx) := by
  unfold Statement rowOf encode formatI
  ext i hi
  simp only [BitVec.getElem_and, BitVec.getElem_append]
  interval_cases i <;> simp [pregBits_high]

theorem plen (bd : BReg) (pa : PReg) : Statement (.plen bd pa) := by
  unfold Statement rowOf encode formatR
  ext i hi
  simp only [BitVec.getElem_and, BitVec.getElem_append]
  interval_cases i <;> simp [pregBits_high]

theorem pld (pd : PReg) (bn : BReg) (addr : Addr) : Statement (.pld pd bn addr) := by
  unfold Statement rowOf encode formatM
  ext i hi
  simp only [BitVec.getElem_and, BitVec.getElem_append]
  interval_cases i <;> simp [pregBits_high]

theorem pst (ps : PReg) (bn : BReg) (addr : Addr) : Statement (.pst ps bn addr) := by
  unfold Statement rowOf encode formatM
  ext i hi
  simp only [BitVec.getElem_and, BitVec.getElem_append]
  interval_cases i <;> simp [pregBits_high]

theorem pcmp (bd : BReg) (pa : PReg) (pb : PReg) : Statement (.pcmp bd pa pb) := by
  unfold Statement rowOf encode formatR
  ext i hi
  simp only [BitVec.getElem_and, BitVec.getElem_append]
  interval_cases i <;> simp [pregBits_high]

theorem padd (pd : PReg) (pa : PReg) (pb : PReg) : Statement (.padd pd pa pb) := by
  unfold Statement rowOf encode formatR
  ext i hi
  simp only [BitVec.getElem_and, BitVec.getElem_append]
  interval_cases i <;> simp [pregBits_high]

theorem pshu (pd : PReg) (pa : PReg) (n : Byte) : Statement (.pshu pd pa n) := by
  unfold Statement rowOf encode formatI
  ext i hi
  simp only [BitVec.getElem_and, BitVec.getElem_append]
  interval_cases i <;> simp [pregBits_high]

theorem pshd (pd : PReg) (pa : PReg) (n : Byte) : Statement (.pshd pd pa n) := by
  unfold Statement rowOf encode formatI
  ext i hi
  simp only [BitVec.getElem_and, BitVec.getElem_append]
  interval_cases i <;> simp [pregBits_high]

theorem pmul (pd : PReg) (pa : PReg) (pb : PReg) (m : ModIdx) : Statement (.pmul pd pa pb m) := by
  unfold Statement rowOf encode formatR
  ext i hi
  simp only [BitVec.getElem_and, BitVec.getElem_append]
  interval_cases i <;> simp [pregBits_high]

theorem pdiv (pr : PReg) (pq : PReg) (pa : PReg) (pb : PReg) (m : ModIdx) : Statement (.pdiv pr pq pa pb m) := by
  unfold Statement rowOf encode formatR
  ext i hi
  simp only [BitVec.getElem_and, BitVec.getElem_append]
  interval_cases i <;> simp [pregBits_high]

theorem pmonic (pd : PReg) (pa : PReg) (m : ModIdx) : Statement (.pmonic pd pa m) := by
  unfold Statement rowOf encode formatR
  ext i hi
  simp only [BitVec.getElem_and, BitVec.getElem_append]
  interval_cases i <;> simp [pregBits_high]

theorem pxeu (pd : PReg) (pa : PReg) (pb : PReg) (m : ModIdx) : Statement (.pxeu pd pa pb m) := by
  unfold Statement rowOf encode formatR
  ext i hi
  simp only [BitVec.getElem_and, BitVec.getElem_append]
  interval_cases i <;> simp [pregBits_high]

theorem sbid (sd : Slot) : Statement (.sbid sd) := by
  unfold Statement rowOf encode formatS
  ext i hi
  simp only [BitVec.getElem_and, BitVec.getElem_append]
  interval_cases i <;> simp

theorem sbchk (bd : BReg) (ss : Slot) : Statement (.sbchk bd ss) := by
  unfold Statement rowOf encode formatS
  ext i hi
  simp only [BitVec.getElem_and, BitVec.getElem_append]
  interval_cases i <;> simp

theorem sbinv (sd : Slot) (ss : Slot) : Statement (.sbinv sd ss) := by
  unfold Statement rowOf encode formatS
  ext i hi
  simp only [BitVec.getElem_and, BitVec.getElem_append]
  interval_cases i <;> simp

theorem sbcomp (sd : Slot) (sa : Slot) (sb : Slot) : Statement (.sbcomp sd sa sb) := by
  unfold Statement rowOf encode formatT
  ext i hi
  simp only [BitVec.getElem_and, BitVec.getElem_append]
  interval_cases i <;> simp

theorem sbpre (sd : Slot) (ss : Slot) (bm : BReg) (m : ModIdx) : Statement (.sbpre sd ss bm m) := by
  unfold Statement rowOf encode formatS
  ext i hi
  simp only [BitVec.getElem_and, BitVec.getElem_append]
  interval_cases i <;> simp

theorem sbpost (sd : Slot) (ss : Slot) (bm : BReg) (m : ModIdx) : Statement (.sbpost sd ss bm m) := by
  unfold Statement rowOf encode formatS
  ext i hi
  simp only [BitVec.getElem_and, BitVec.getElem_append]
  interval_cases i <;> simp

theorem sbinvs (td : SlotSet) (ts : SlotSet) (dir : Dir) : Statement (.sbinvs td ts dir) := by
  unfold Statement rowOf encode formatX
  ext i hi
  simp only [BitVec.getElem_and, BitVec.getElem_append]
  interval_cases i <;> simp

theorem sbmix (td : SlotSet) (ts : SlotSet) (dir : Dir) (k : LayerCount) (r : MixRec) : Statement (.sbmix td ts dir k r) := by
  unfold Statement rowOf encode formatX
  ext i hi
  simp only [BitVec.getElem_and, BitVec.getElem_append]
  interval_cases i <;> simp

end TableRow

end Sys2Proof.Laws
end

