-- ==== Sys2Proof/Machine/Assembler.lean ====
section
/-! DEFINITION. The textual form of a command (`30_encoding.md` R74): its mnemonic and its operands, destination first. Nothing
that executes uses it. -/

namespace Sys2Proof.Machine

/-- One operand of the assembler form (R74). -/
inductive AsmOperand where
  | creg (cr : CReg)
  | breg (r : BReg)
  | preg (r : PReg)
  | slot (s : Slot)
  | set (t : SlotSet)
  | record (r : MixRec)
  | modulus (m : ModIdx)
  | dir (d : Dir)
  | number (n : Nat)
  | memory (addr : Addr)
  | indexed (addr : Addr) (bi : BReg)
deriving DecidableEq, Repr

/-- The mnemonic, as R71 spells it. -/
def mnemonic : Instr → String
  | .nop => "NOP"
  | .rdcr _ => "RDCR"
  | .rdb _ => "RDB"
  | .mwr _ _ => "MWR"
  | .mrd _ => "MRD"
  | .ldb _ _ => "LDB"
  | .stb _ _ => "STB"
  | .ldbx _ _ _ => "LDBX"
  | .stbx _ _ _ => "STBX"
  | .fldi _ _ => "FLDI"
  | .fmov _ _ => "FMOV"
  | .fadd _ _ _ => "FADD"
  | .fmul _ _ _ _ => "FMUL"
  | .fdiv _ _ _ _ => "FDIV"
  | .finv _ _ _ => "FINV"
  | .fred _ _ _ _ => "FRED"
  | .modp _ => "MODP"
  | .lane _ _ _ => "LANE"
  | .pclr _ => "PCLR"
  | .pmov _ _ => "PMOV"
  | .pput _ _ _ => "PPUT"
  | .pget _ _ _ => "PGET"
  | .plen _ _ => "PLEN"
  | .pld _ _ _ => "PLD"
  | .pst _ _ _ => "PST"
  | .pcmp _ _ _ => "PCMP"
  | .padd _ _ _ => "PADD"
  | .pshu _ _ _ => "PSHU"
  | .pshd _ _ _ => "PSHD"
  | .pmul _ _ _ _ => "PMUL"
  | .pdiv _ _ _ _ _ => "PDIV"
  | .pmonic _ _ _ => "PMONIC"
  | .pxeu _ _ _ _ => "PXEU"
  | .sbid _ => "SBID"
  | .sbchk _ _ => "SBCHK"
  | .sbinv _ _ => "SBINV"
  | .sbcomp _ _ _ => "SBCOMP"
  | .sbpre _ _ _ _ => "SBPRE"
  | .sbpost _ _ _ _ => "SBPOST"
  | .sbinvs _ _ _ => "SBINVS"
  | .sbmix _ _ _ _ _ => "SBMIX"

/-- The operands in the order of R74. -/
def asmOperands : Instr → List AsmOperand
  | .nop => []
  | .rdcr cr => [.creg cr]
  | .rdb bs => [.breg bs]
  | .mwr addr imm => [.memory addr, .number imm.toNat]
  | .mrd addr => [.memory addr]
  | .ldb bd addr => [.breg bd, .memory addr]
  | .stb bs addr => [.breg bs, .memory addr]
  | .ldbx bd addr bi => [.breg bd, .indexed addr bi]
  | .stbx bs addr bi => [.breg bs, .indexed addr bi]
  | .fldi bd imm => [.breg bd, .number imm.toNat]
  | .fmov bd ba => [.breg bd, .breg ba]
  | .fadd bd ba bb => [.breg bd, .breg ba, .breg bb]
  | .fmul bd ba bb m => [.breg bd, .breg ba, .breg bb, .modulus m]
  | .fdiv bd ba bb m => [.breg bd, .breg ba, .breg bb, .modulus m]
  | .finv bd ba m => [.breg bd, .breg ba, .modulus m]
  | .fred bd ba bb m => [.breg bd, .breg ba, .breg bb, .modulus m]
  | .modp m => [.modulus m]
  | .lane bd ba dir => [.breg bd, .breg ba, .dir dir]
  | .pclr pd => [.preg pd]
  | .pmov pd pa => [.preg pd, .preg pa]
  | .pput pd idx bs => [.preg pd, .number idx.toNat, .breg bs]
  | .pget bd pa idx => [.breg bd, .preg pa, .number idx.toNat]
  | .plen bd pa => [.breg bd, .preg pa]
  | .pld pd bn addr => [.preg pd, .breg bn, .memory addr]
  | .pst ps bn addr => [.preg ps, .breg bn, .memory addr]
  | .pcmp bd pa pb => [.breg bd, .preg pa, .preg pb]
  | .padd pd pa pb => [.preg pd, .preg pa, .preg pb]
  | .pshu pd pa n => [.preg pd, .preg pa, .number n.toNat]
  | .pshd pd pa n => [.preg pd, .preg pa, .number n.toNat]
  | .pmul pd pa pb m => [.preg pd, .preg pa, .preg pb, .modulus m]
  | .pdiv pr pq pa pb m => [.preg pr, .preg pq, .preg pa, .preg pb, .modulus m]
  | .pmonic pd pa m => [.preg pd, .preg pa, .modulus m]
  | .pxeu pd pa pb m => [.preg pd, .preg pa, .preg pb, .modulus m]
  | .sbid sd => [.slot sd]
  | .sbchk bd ss => [.breg bd, .slot ss]
  | .sbinv sd ss => [.slot sd, .slot ss]
  | .sbcomp sd sa sb => [.slot sd, .slot sa, .slot sb]
  | .sbpre sd ss bm m => [.slot sd, .slot ss, .breg bm, .modulus m]
  | .sbpost sd ss bm m => [.slot sd, .slot ss, .breg bm, .modulus m]
  | .sbinvs td ts dir => [.set td, .set ts, .dir dir]
  | .sbmix td ts dir k r => [.set td, .set ts, .dir dir, .number k.val, .record r]

/-- An operand as it is written: numbers in decimal (R74 allows decimal or hexadecimal). -/
def AsmOperand.text : AsmOperand → String
  | .creg .id => "ID"
  | .creg .cap => "CAP"
  | .creg .fsr => "FSR"
  | .creg .fcw => "FCW"
  | .creg .finfo => "FINFO"
  | .breg r => "b" ++ toString r.val
  | .preg r => "p" ++ toString r.val
  | .slot s => "s" ++ toString s.val
  | .set t => "t" ++ toString t.val
  | .record r => "r" ++ toString r.val
  | .modulus m => "m" ++ toString m.val
  | .dir .fwd => "fwd"
  | .dir .bwd => "bwd"
  | .number n => toString n
  | .memory addr => "[" ++ toString addr.toNat ++ "]"
  | .indexed addr bi => "[" ++ toString addr.toNat ++ " + b" ++ toString bi.val ++ "]"

/-- A command as a line of text: `MNEMONIC operand, operand, ...` (R74). -/
def asmText (i : Instr) : String :=
  match asmOperands i with
  | [] => mnemonic i
  | ops => mnemonic i ++ " " ++ ", ".intercalate (ops.map AsmOperand.text)

end Sys2Proof.Machine
end

