-- ==== Sys2Proof/Tests/Slice0.lean ====
section
/-! SUPPORT. The model against numbers from outside it: the words of `30_encoding.md` and the vectors of `95_test_vectors.md`
(named F, P, Y, B, X as there), and for every claim with hypotheses a state and operands that meet them all together. -/

open Sys2Proof Sys2Proof.Machine Sys2Proof.Claims

namespace Sys2Proof.Tests

-- One theorem after the other: some 150 kernel evaluations at once ask for more threads than the memory limit allows.
set_option Elab.async false

/-! ### States and results -/

/-- The reset state with some registers and bytes of memory set. -/
def start (bs : List (BReg × Byte)) (ps : List (PReg × Poly)) (ms : List (Nat × List Byte)) : State :=
  let s := bs.foldl (fun s x => s.writeB x.1 x.2) State.reset
  let s := ps.foldl (fun s x => s.writeP x.1 x.2) s
  ms.foldl (fun s x => s.writeM x.1 x.2) s

/-- What `f` reads in the state after one step on the word `w`. -/
def after {α : Type} (w : Word) (s : State) (f : State → α) : Option α :=
  match step (s.withFetchWord 32 w.toNat) with
  | .next t => some (f t)
  | _ => none

/-- `RSTAT`, `FCW` and `FINFO` after one step on the word `w`. -/
def record (w : Word) (s : State) : Option (Option Byte × Word × Word) :=
  after w s (fun t => (t.rsp.map Response.rstat, t.fcw, t.finfo))

/-! ### WellFormed: one ill-formed term for each check (R68, R69) -/

theorem test_illformed_same_results : (Instr.pdiv 3 3 2 1 0).wellFormed = false := by decide
theorem test_illformed_modulus_30 : (Instr.fmul 0 1 2 30).wellFormed = false := by decide
theorem test_illformed_modulus_31 : (Instr.sbpost 0 1 2 31).wellFormed = false := by decide
theorem test_wellformed_modulus_29 : (Instr.pdiv 3 4 2 1 29).wellFormed = true := by decide

/-! ### Decode: a word of the spec for every command (sections 2 to 6 of `95_test_vectors.md`) -/

theorem test_decode_nop : decode 0x00000000#32 = .ok (.nop) := by decide
theorem test_decode_rdcr : decode 0x01000004#32 = .ok (.rdcr .finfo) := by decide
theorem test_decode_rdb : decode 0x02400000#32 = .ok (.rdb 4) := by decide
theorem test_decode_mwr : decode 0x10C37000#32 = .ok (.mwr 0x7000#15 0xC3#8) := by decide
theorem test_decode_mrd : decode 0x11007000#32 = .ok (.mrd 0x7000#15) := by decide
theorem test_decode_ldb : decode 0x12407000#32 = .ok (.ldb 4 0x7000#15) := by decide
theorem test_decode_stb : decode 0x13407001#32 = .ok (.stb 4 0x7001#15) := by decide
theorem test_decode_ldbx : decode 0x14316FFF#32 = .ok (.ldbx 3 0x6FFF#15 1) := by decide
theorem test_decode_stbx : decode 0x15317F80#32 = .ok (.stbx 3 0x7F80#15 1) := by decide
theorem test_decode_fldi : decode 0x20F00010#32 = .ok (.fldi 15 0x10#8) := by decide
theorem test_decode_fmov : decode 0x21410000#32 = .ok (.fmov 4 1) := by decide
theorem test_decode_fadd : decode 0x22201000#32 = .ok (.fadd 2 0 1) := by decide
theorem test_decode_fmul : decode 0x2320101D#32 = .ok (.fmul 2 0 1 29) := by decide
theorem test_decode_fdiv : decode 0x24201000#32 = .ok (.fdiv 2 0 1 0) := by decide
theorem test_decode_finv : decode 0x25100011#32 = .ok (.finv 1 0 17) := by decide
theorem test_decode_fred : decode 0x26201005#32 = .ok (.fred 2 0 1 5) := by decide
theorem test_decode_modp : decode 0x2700001D#32 = .ok (.modp 29) := by decide
theorem test_decode_lane : decode 0x28100001#32 = .ok (.lane 1 0 .bwd) := by decide
theorem test_decode_pclr : decode 0x30300000#32 = .ok (.pclr 3) := by decide
theorem test_decode_pmov : decode 0x31100000#32 = .ok (.pmov 1 0) := by decide
theorem test_decode_pput : decode 0x32010010#32 = .ok (.pput 0 16#8 1) := by decide
theorem test_decode_pget : decode 0x332000C8#32 = .ok (.pget 2 0 200#8) := by decide
theorem test_decode_plen : decode 0x34230000#32 = .ok (.plen 2 3) := by decide
theorem test_decode_pld : decode 0x350F7000#32 = .ok (.pld 0 15 0x7000#15) := by decide
theorem test_decode_pst : decode 0x36107100#32 = .ok (.pst 1 0 0x7100#15) := by decide
theorem test_decode_pcmp : decode 0x37646000#32 = .ok (.pcmp 6 4 6) := by decide
theorem test_decode_padd : decode 0x40201000#32 = .ok (.padd 2 0 1) := by decide
theorem test_decode_pshu : decode 0x4171000F#32 = .ok (.pshu 7 1 15#8) := by decide
theorem test_decode_pshd : decode 0x42100002#32 = .ok (.pshd 1 0 2#8) := by decide
theorem test_decode_pmul : decode 0x43302000#32 = .ok (.pmul 3 0 2 0) := by decide
theorem test_decode_pdiv : decode 0x44342100#32 = .ok (.pdiv 3 4 2 1 0) := by decide
theorem test_decode_pmonic : decode 0x45600000#32 = .ok (.pmonic 6 0 0) := by decide
theorem test_decode_pxeu : decode 0x46761000#32 = .ok (.pxeu 7 6 1 0) := by decide
theorem test_decode_sbid : decode 0x50020000#32 = .ok (.sbid 1) := by decide
theorem test_decode_sbchk : decode 0x51003440#32 = .ok (.sbchk 2 13) := by decide
theorem test_decode_sbinv : decode 0x521C3400#32 = .ok (.sbinv 14 13) := by decide
theorem test_decode_sbcomp : decode 0x53121C40#32 = .ok (.sbcomp 9 7 8) := by decide
theorem test_decode_sbpre : decode 0x540A0020#32 = .ok (.sbpre 5 0 1 0) := by decide
theorem test_decode_sbpost : decode 0x550E0420#32 = .ok (.sbpost 7 1 1 0) := by decide
theorem test_decode_sbinvs : decode 0x56460000#32 = .ok (.sbinvs 2 1 .bwd) := by decide
theorem test_decode_sbmix : decode 0x57C24380#32 = .ok (.sbmix 6 0 .bwd 2 896) := by decide

/-! Words that are no command (X3 to X5, X9, X10, X23, X39 to X45). -/

theorem test_reject_unassigned_opcode : decode 0x29000000#32 = .error .unknownOpcode := by decide
theorem test_reject_must_be_zero_bit : decode 0x2320103E#32 = .error .nonzeroUnused := by decide
theorem test_reject_unused_field : decode 0x23201100#32 = .error .nonzeroUnused := by decide
theorem test_reject_polynomial_register_8 : decode 0x30800000#32 = .error .badValue := by decide
theorem test_reject_pdiv_same_results : decode 0x44332100#32 = .error .badValue := by decide
theorem test_reject_lane_2 : decode 0x28100002#32 = .error .badValue := by decide
theorem test_reject_rdcr_5 : decode 0x01000005#32 = .error .badValue := by decide
theorem test_reject_address_bit_15 : decode 0x11008000#32 = .error .nonzeroUnused := by decide
theorem test_reject_nop_low_bit : decode 0x00000001#32 = .error .nonzeroUnused := by decide
theorem test_table_word : decodeTableWord 32 0x2320101D = some (.fmul 2 0 1 29) := by decide
theorem test_text_sbmix : asmText (.sbmix 6 0 .bwd 2 896) = "SBMIX t6, t0, bwd, 2, r896" := by decide +kernel
theorem test_text_ldbx : asmText (.ldbx 3 0x0200#15 1) = "LDBX b3, [512 + b1]" := by decide +kernel

/-! ### System and data movement (Y) -/

/-- Y1. -/
theorem test_nop :
    after 0x00000000#32 State.reset (fun t => t.rsp) = some (some ⟨0x00#8, 0x00000000#32⟩) := by decide +kernel
/-- Y2. -/
theorem test_rdcr_id :
    after 0x01000000#32 State.reset (fun t => t.rsp) = some (some ⟨0x00#8, 0x57424701#32⟩) := by decide +kernel
/-- Y3. -/
theorem test_rdcr_cap :
    after 0x01000001#32 State.reset (fun t => t.rsp) = some (some ⟨0x00#8, 0x108F1E20#32⟩) := by decide +kernel
/-- Y8. -/
theorem test_rdb :
    after 0x02400000#32 (start [(4, 0xC3#8)] [] []) (fun t => t.rsp) = some (some ⟨0x00#8, 0x000000C3#32⟩) := by decide +kernel
/-- Y5. -/
theorem test_mwr :
    after 0x10C37000#32 State.reset (fun t => t.readM 0x7000) = some 0xC3#8 := by decide +kernel
/-- Writing the value of an unlisted byte leaves the canonical form (R43, assumption log 1). -/
theorem test_mwr_zero_removes :
    after 0x10007000#32 (start [] [] [(0x7000, [0xC3#8])]) (fun t => t.mem) = some [] := by decide +kernel
/-- Y6. -/
theorem test_mrd :
    after 0x11007000#32 (start [] [] [(0x7000, [0xC3#8])]) (fun t => t.rsp) = some (some ⟨0x00#8, 0x000000C3#32⟩) := by decide +kernel
/-- Y7. -/
theorem test_ldb :
    after 0x12407000#32 (start [] [] [(0x7000, [0xC3#8])]) (fun t => t.readB 4) = some 0xC3#8 := by decide +kernel
/-- Y9. -/
theorem test_stb :
    after 0x13407001#32 (start [(4, 0xC3#8)] [] []) (fun t => t.readM 0x7001) = some 0xC3#8 := by decide +kernel
/-- Y11. -/
theorem test_ldbx :
    after 0x14316FFF#32 (start [(1, 0x01#8)] [] [(0x7000, [0xC3#8])]) (fun t => t.readB 3) = some 0xC3#8 := by decide +kernel
/-- X21. -/
theorem test_ldbx_past_end :
    record 0x14017F01#32 (start [(1, 0xFF#8)] [] []) = some (some 0x84#8, 0x14017F01#32, 0x00008000#32) := by decide +kernel
/-- Y13: the last byte of memory. -/
theorem test_stbx :
    after 0x15317F00#32 (start [(1, 0xFF#8), (3, 0x99#8)] [] []) (fun t => t.readM 0x7FFF) = some 0x99#8 := by decide +kernel
/-- Y14. -/
theorem test_stbx_past_end :
    record 0x15317F80#32 (start [(1, 0xFF#8), (3, 0x99#8)] [] []) = some (some 0x84#8, 0x15317F80#32, 0x0000807F#32) := by decide +kernel

/-! ### Field commands (F) -/

/-- F1. -/
theorem test_fldi :
    after 0x20000053#32 State.reset (fun t => t.readB 0) = some 0x53#8 := by decide +kernel
/-- F2. -/
theorem test_fmov :
    after 0x21410000#32 (start [(1, 0xCA#8)] [] []) (fun t => t.readB 4) = some 0xCA#8 := by decide +kernel
/-- F3. -/
theorem test_fadd :
    after 0x22201000#32 (start [(0, 0x57#8), (1, 0x83#8)] [] []) (fun t => t.readB 2) = some 0xD4#8 := by decide +kernel
/-- F5. -/
theorem test_fmul :
    after 0x23201000#32 (start [(0, 0x57#8), (1, 0x83#8)] [] []) (fun t => t.readB 2) = some 0xC1#8 := by decide +kernel
/-- F7. -/
theorem test_fmul_m29 :
    after 0x2320101D#32 (start [(0, 0x57#8), (1, 0x83#8)] [] []) (fun t => t.readB 2) = some 0x17#8 := by decide +kernel
/-- F11. -/
theorem test_fdiv :
    after 0x24201000#32 (start [(0, 0x57#8), (1, 0x83#8)] [] []) (fun t => t.readB 2) = some 0x38#8 := by decide +kernel
/-- X6: the modulus index is judged before the zero divisor. -/
theorem test_fdiv_modulus_before_zero :
    record 0x2401201E#32 State.reset = some (some 0x83#8, 0x2401201E#32, 0x0000001E#32) := by decide +kernel
/-- F17. -/
theorem test_finv :
    after 0x25100000#32 (start [(0, 0x02#8)] [] []) (fun t => t.readB 1) = some 0x8D#8 := by decide +kernel
/-- X8. -/
theorem test_finv_zero :
    record 0x25200000#32 State.reset = some (some 0x81#8, 0x25200000#32, 0x00000000#32) := by decide +kernel
/-- F18. -/
theorem test_fred :
    after 0x26201000#32 (start [(0, 0x12#8), (1, 0x34#8)] [] []) (fun t => t.readB 2) = some 0xA9#8 := by decide +kernel
/-- F20. -/
theorem test_fred_m29 :
    after 0x2620101D#32 (start [(0, 0x01#8), (1, 0x00#8)] [] []) (fun t => t.readB 2) = some 0xF9#8 := by decide +kernel
/-- F23. -/
theorem test_modp :
    after 0x2700001D#32 State.reset (fun t => t.rsp) = some (some ⟨0x00#8, 0x000001F9#32⟩) := by decide +kernel
/-- F25. -/
theorem test_lane_bwd :
    after 0x28100001#32 (start [(0, 0x07#8)] [] []) (fun t => t.readB 1) = some 0x0B#8 := by decide +kernel
/-- F26. -/
theorem test_lane_high_nibble :
    after 0x28100000#32 (start [(0, 0xF1#8)] [] []) (fun t => t.readB 1) = some 0x05#8 := by decide +kernel

/-! ### Polynomial commands (P) -/

/-- P30. -/
theorem test_pclr :
    after 0x30300000#32 (start [] [(3, [0x01#8, 0x02#8])] []) (fun t => t.readP 3) = some [] := by decide +kernel
/-- P31. -/
theorem test_pmov :
    after 0x31100000#32 (start [] [(0, [0x01#8, 0x02#8])] []) (fun t => t.readP 1) = some [0x01#8, 0x02#8] := by decide +kernel
/-- P33. -/
theorem test_pput_trims :
    after 0x32010002#32 (start [(1, 0x00#8)] [(0, [0x01#8, 0x02#8, 0x03#8])] []) (fun t => t.readP 0) = some [0x01#8, 0x02#8] := by decide +kernel
/-- P32, first command. -/
theorem test_pput_extends :
    after 0x32010010#32 (start [(1, 0x01#8)] [] []) (fun t => t.readP 0) = some [0x00#8, 0x00#8, 0x00#8, 0x00#8, 0x00#8, 0x00#8, 0x00#8, 0x00#8, 0x00#8, 0x00#8, 0x00#8, 0x00#8, 0x00#8, 0x00#8, 0x00#8, 0x00#8, 0x01#8] := by decide +kernel
/-- P35. -/
theorem test_pget :
    after 0x33200010#32 (start [] [(0, [0x01#8, 0x00#8, 0x00#8, 0x00#8, 0x00#8, 0x00#8, 0x00#8, 0x00#8, 0x00#8, 0x00#8, 0x00#8, 0x00#8, 0x00#8, 0x00#8, 0x00#8, 0x00#8, 0x01#8])] []) (fun t => t.readB 2) = some 0x01#8 := by decide +kernel
/-- P35. -/
theorem test_pget_beyond :
    after 0x332000C8#32 (start [(2, 0x77#8)] [(0, [0x01#8, 0x00#8, 0x00#8, 0x00#8, 0x00#8, 0x00#8, 0x00#8, 0x00#8, 0x00#8, 0x00#8, 0x00#8, 0x00#8, 0x00#8, 0x00#8, 0x00#8, 0x00#8, 0x01#8])] []) (fun t => t.readB 2) = some 0x00#8 := by decide +kernel
/-- P36. -/
theorem test_plen :
    after 0x34000000#32 (start [] [(0, [0x01#8, 0x00#8, 0x00#8, 0x00#8, 0x00#8, 0x00#8, 0x00#8, 0x00#8, 0x00#8, 0x00#8, 0x00#8, 0x00#8, 0x00#8, 0x00#8, 0x00#8, 0x00#8, 0x01#8])] []) (fun t => t.readB 0) = some 0x11#8 := by decide +kernel
/-- P37, cut to three bytes and zeros (R118 trims). -/
theorem test_pld :
    after 0x350F7000#32 (start [(15, 0x10#8)] [] [(0x7000, [0x03#8, 0x0A#8, 0x11#8, 0x00#8, 0x00#8, 0x00#8, 0x00#8, 0x00#8, 0x00#8, 0x00#8, 0x00#8, 0x00#8, 0x00#8, 0x00#8, 0x00#8, 0x00#8])]) (fun t => t.readP 0) = some [0x03#8, 0x0A#8, 0x11#8] := by decide +kernel
/-- X16. -/
theorem test_pld_range_first :
    record 0x35017FF0#32 (start [(1, 0x21#8)] [] []) = some (some 0x84#8, 0x35017FF0#32, 0x00008000#32) := by decide +kernel
/-- P39, over older bytes. -/
theorem test_pst :
    after 0x36107100#32 (start [(0, 0x04#8)] [(1, [0xA4#8, 0x52#8])] [(0x7100, [0xEE#8, 0xEE#8, 0xEE#8, 0xEE#8, 0xEE#8])]) (fun t => (List.range 5).map (fun j => t.readM (0x7100 + j))) =
      some [0xA4#8, 0x52#8, 0x00#8, 0x00#8, 0xEE#8] := by decide +kernel
/-- X19. -/
theorem test_pst_past_end :
    record 0x36017FF0#32 (start [(1, 0x11#8)] [] []) = some (some 0x84#8, 0x36017FF0#32, 0x00008000#32) := by decide +kernel
/-- P28 as a command. -/
theorem test_pcmp_unsigned :
    after 0x37001000#32 (start [] [(0, [0x80#8, 0x01#8]), (1, [0x7F#8, 0x01#8])] []) (fun t => t.readB 0) = some 0x01#8 := by decide +kernel
/-- P27 as a command. -/
theorem test_pcmp_length :
    after 0x37001000#32 (start [] [(0, [0x05#8]), (1, [0x01#8, 0x01#8])] []) (fun t => t.readB 0) = some 0xFF#8 := by decide +kernel
/-- P42. -/
theorem test_padd :
    after 0x40201000#32 (start [] [(0, [0x01#8, 0x02#8]), (1, [0x03#8, 0x01#8])] []) (fun t => t.readP 2) = some [0x02#8, 0x03#8] := by decide +kernel
/-- P4 as a command. -/
theorem test_padd_trims :
    after 0x40201000#32 (start [] [(0, [0x01#8, 0x02#8, 0x03#8]), (1, [0x09#8, 0x02#8, 0x03#8])] []) (fun t => t.readP 2) = some [0x08#8] := by decide +kernel
/-- P43. -/
theorem test_pshu :
    after 0x41100003#32 (start [] [(0, [0x01#8, 0x02#8])] []) (fun t => t.readP 1) = some [0x00#8, 0x00#8, 0x00#8, 0x01#8, 0x02#8] := by decide +kernel
/-- Program 2, step 41. -/
theorem test_pshu_overflow :
    record 0x41710010#32 (start [] [(1, [0x01#8, 0x00#8, 0x00#8, 0x00#8, 0x00#8, 0x00#8, 0x00#8, 0x00#8, 0x00#8, 0x00#8, 0x00#8, 0x00#8, 0x00#8, 0x00#8, 0x00#8, 0x00#8, 0x01#8])] []) = some (some 0x85#8, 0x41710010#32, 0x00000021#32) := by decide +kernel
/-- P45. -/
theorem test_pshd :
    after 0x42100002#32 (start [] [(0, [0x01#8, 0x02#8, 0x03#8, 0x04#8])] []) (fun t => t.readP 1) = some [0x03#8, 0x04#8] := by decide +kernel
/-- P46. -/
theorem test_pmul :
    after 0x43201000#32 (start [] [(0, [0x57#8, 0x83#8, 0x02#8]), (1, [0x13#8, 0x01#8])] []) (fun t => t.readP 2) = some [0xFE#8, 0x21#8, 0xA5#8, 0x02#8] := by decide +kernel
/-- P47: the remainder goes to the first destination. -/
theorem test_pdiv :
    after 0x44342100#32 (start [] [(2, [0xFB#8, 0x21#8, 0xA5#8, 0x02#8]), (1, [0x13#8, 0x01#8])] []) (fun t => (t.readP 3, t.readP 4)) =
      some ([0x05#8], [0x57#8, 0x83#8, 0x02#8]) := by decide +kernel
/-- X11. -/
theorem test_pdiv_zero :
    record 0x44342100#32 State.reset = some (some 0x81#8, 0x44342100#32, 0x00000000#32) := by decide +kernel
/-- P48. -/
theorem test_pmonic :
    after 0x45100000#32 (start [] [(0, [0x02#8, 0x04#8])] []) (fun t => t.readP 1) = some [0x8D#8, 0x01#8] := by decide +kernel
/-- X12. -/
theorem test_pmonic_zero :
    record 0x45100000#32 State.reset = some (some 0x81#8, 0x45100000#32, 0x00000000#32) := by decide +kernel
/-- P49. -/
theorem test_pxeu :
    after 0x46201000#32 (start [] [(0, [0x02#8, 0x01#8]), (1, [0x01#8, 0x00#8, 0x01#8])] []) (fun t => t.readP 2) = some [0xA4#8, 0x52#8] := by decide +kernel
/-- P18 as a command: no fault. -/
theorem test_pxeu_not_coprime :
    after 0x46201000#32 (start [] [(0, [0x01#8, 0x01#8]), (1, [0x01#8, 0x00#8, 0x01#8])] []) (fun t => t.readP 2) = some [] := by decide +kernel

/-! ### S-box commands (B, X) -/

/-- The table `A[k] = (7k + 3) mod 256` of section 5, in slot 0. -/
def slotA : State := State.reset.writeTable 0 (tableOf (fun k => 7#8 * k + 3#8))

/-- B1. -/
theorem test_sbid :
    after 0x50020000#32 State.reset (fun t => t.readM 0x01FF) = some 0xFF#8 := by decide +kernel
/-- B2. -/
theorem test_sbchk :
    after 0x51000000#32 slotA (fun t => t.readB 0) = some 0x01#8 := by decide +kernel
/-- B3's command, on a slot of zeros. -/
theorem test_sbchk_no_permutation :
    after 0x51003440#32 (start [(2, 0x77#8)] [] []) (fun t => t.readB 2) = some 0x00#8 := by decide +kernel
/-- B4: entry 05 of slot 2. -/
theorem test_sbinv :
    after 0x52040000#32 slotA (fun t => t.readM 0x0205) = some 0x6E#8 := by decide +kernel
/-- X25. -/
theorem test_sbinv_no_permutation :
    record 0x52020000#32 State.reset = some (some 0x86#8, 0x52020000#32, 0x00000001#32) := by decide +kernel
/-- B7: the second source is applied first. -/
theorem test_sbcomp :
    after 0x53160050#32 (slotA.writeTable 10 (tableOf (fun k => k ^^^ 0x5A#8))) (fun t => t.readM 0x0B03) = some 0x72#8 := by decide +kernel
/-- B8. -/
theorem test_sbcomp_other_order :
    after 0x53182800#32 (slotA.writeTable 10 (tableOf (fun k => k ^^^ 0x5A#8))) (fun t => t.readM 0x0C03) = some 0x42#8 := by decide +kernel
/-- B9: what SBPRE writes. -/
theorem test_premul :
    (List.range 6).map (fun k => entry (premul (slotA.table 0) 0x03#8 0x11B#9) (BitVec.ofNat 8 k)) =
      [0x03#8, 0xBD#8, 0xC4#8, 0x0A#8, 0xB6#8, 0x18#8] := by decide +kernel
/-- X37. -/
theorem test_sbpre_zero :
    record 0x54020020#32 State.reset = some (some 0x81#8, 0x54020020#32, 0x00000000#32) := by decide +kernel
/-- B10: what SBPOST writes. -/
theorem test_postmul :
    (List.range 6).map (fun k => entry (postmul (slotA.table 0) 0x03#8 0x11B#9) (BitVec.ofNat 8 k)) =
      [0x05#8, 0x1E#8, 0x33#8, 0x28#8, 0x21#8, 0x6A#8] := by decide +kernel
/-- X38: a zero multiplier is no fault. -/
theorem test_sbpost_zero :
    after 0x55020020#32 (slotA.writeTable 1 allBytes) (fun t => (t.fsr, t.readM 0x01FF)) = some (0x00#8, 0x00#8) := by decide +kernel

/-- Lanes `T_1` and `T_9` of set 0 of section 5, in slots 1 and 9. -/
def set0 : State :=
  (State.reset.writeTable 1 (tableOf (fun k => 3#8 * k + 1#8))).writeTable 9 (tableOf (fun k => 19#8 * k + 9#8))

/-- B14: what SBINVS writes for lane 1, and where lanes 0 to 3 go. -/
theorem test_sbinvs_lanes :
    ((inverseTables set0 1 0 .fwd).map (fun x => x.1)).take 4 = [16, 21, 26, 31] ∧
    ((inverseTables set0 1 0 .fwd)[1]?).map (fun x => (entry x.2 0, entry x.2 1, entry x.2 2)) = some (0x55#8, 0x00#8, 0xAB#8) := by decide +kernel
/-- X26. -/
theorem test_sbinvs_no_permutation :
    record 0x56200000#32 State.reset = some (some 0x86#8, 0x56200000#32, 0x00000001#32) := by decide +kernel
/-- Mix records 896 and 897 of section 5, multipliers `2 + i + 16 L`, indices `(3 i + 7 L) mod 30`, over lane 1 of set 0. -/
def mixed : State :=
  ((set0.writeM 0x7000 ((List.range 16).map (fun i => BitVec.ofNat 8 (2 + i)))).writeM 0x7010
    ((List.range 16).map (fun i => BitVec.ofNat 8 (3 * i % 30)))).writeM 0x7020
    ((List.range 16).map (fun i => BitVec.ofNat 8 (18 + i)) ++ (List.range 16).map (fun i => BitVec.ofNat 8 ((3 * i + 7) % 30)))

/-- B18: what SBMIX writes at position 1 (slot 81), which uses the pairs of lane 5. -/
theorem test_sbmix_entries :
    [0x00#8, 0x01#8, 0x02#8, 0xFF#8].map (entry (mixedTable mixed 0 .fwd 896 2 1)) = [0x01#8, 0x22#8, 0x43#8, 0xA3#8] := by decide +kernel
/-- X36: lane 0 is good, lane 1 is not. -/
theorem test_sbmix_bad_index :
    record 0x57202000#32 (start [] [] [(0x0000, [0x01#8]), (0x0011, [0x1F#8])]) = some (some 0x83#8, 0x57202000#32, 0x0000001F#32) := by decide +kernel

/-! ### The fault state and reset -/

/-- The unit after Y14. -/
def faultedUnit : State := (start [(4, 0xC3#8)] [(2, [0x05#8])] [(0x7000, [0x11#8])]).faultEntry 0x15317F80#32 .addressRange 0x807F#32

/-- Y16: refused, `b4` cannot be read. -/
theorem test_refused : after 0x02400000#32 faultedUnit (fun t => t.rsp) = some (some ⟨0x84#8, 0x00000000#32⟩) := by decide +kernel
/-- Y17. -/
theorem test_rdcr_in_fault_state : after 0x01000004#32 faultedUnit (fun t => t.rsp) = some (some ⟨0x84#8, 0x0000807F#32⟩) := by
  decide +kernel
/-- An illegal word is refused in the fault state and leaves the record (R70 step 0, R186). -/
theorem test_illegal_in_fault_state : record 0xFF000000#32 faultedUnit = some (some 0x84#8, 0x15317F80#32, 0x807F#32) := by
  decide +kernel
/-- R200: reset clears registers and record, keeps memory. -/
theorem test_reset : faultedUnit.assertReset = start [] [] [(0x7000, [0x11#8])] := by decide +kernel
/-- X5. -/
theorem test_illegal_word :
    record 0x2320103E#32 State.reset = some (some 0x82#8, 0x2320103E#32, 0x00000000#32) := by decide +kernel

/-! ### Witnesses: for each claim with hypotheses, a state and operands that meet them all together -/

/-- The reset state with one event to come. -/
def withEvent (e : HostEvent) : State := { State.reset with host := [e] }

/-- A ready unit with the values the boundary cases need. -/
def edge : State :=
  start [(0, 0xFF#8), (1, 0x20#8), (2, 0x02#8), (3, 0x21#8)]
    [(0, List.replicate 16 0x01#8), (1, List.replicate 17 0x01#8), (2, [0x05#8]), (3, List.replicate 20 0x01#8)] []

theorem witness_DecodeOfEncodeIsIdentity :
    (Instr.pdiv 0 1 0 0 31).distinctResults = true ∧ (Instr.sbmix 7 7 .bwd 15 1023).distinctResults = true := by decide

theorem witness_EncodeOfDecodeIsIdentity :
    decode 0x00000000#32 = .ok .nop ∧ decode 0x57FFE3FF#32 = .ok (.sbmix 7 7 .bwd 15 1023) := by decide

/-- Clause 1: a legal word and an illegal one; clause 2: the illegal one. -/
theorem witness_IllegalCommandExactlyOnIllegalWords :
    ((withEvent (.command 0x01000004#32)).ready ∧ (withEvent (.command 0x01000004#32)).host = [.command 0x01000004#32] ∧
      legalWord 0x01000004#32) ∧
    ((withEvent (.command 0x01000005#32)).ready ∧ (withEvent (.command 0x01000005#32)).host = [.command 0x01000005#32] ∧
      ¬ legalWord 0x01000005#32) := by
  unfold State.ready legalWord
  decide +kernel

theorem witness_StepRunsTheDecodedCommand :
    decode 0x23201000#32 = .ok (.fmul 2 0 1 0) ∧ (withEvent (.command 0x23201000#32)).host = [.command 0x23201000#32] := by
  decide

theorem witness_IdleUnitHoldsItsState : State.reset.host = [] := by decide

theorem witness_ResetClearsEverythingButMemory : (withEvent .reset).host = .reset :: [] := by decide

/-- Addresses next to the one byte of `MWR [0x7000]` lie outside its range; `NOP` writes no memory. -/
theorem witness_CutShortResetTouchesOnlyTheDestinationRange :
    (withEvent (.resetDuring 0x10C37000#32)).host = .resetDuring 0x10C37000#32 :: [] ∧
    cutRange 0x10C37000#32 (withEvent (.resetDuring 0x10C37000#32)) = some (0x7000, 1) ∧
    ¬ (0x7000 ≤ 0x6FFF ∧ 0x6FFF < 0x7000 + 1) ∧ ¬ (0x7000 ≤ 0x7001 ∧ 0x7001 < 0x7000 + 1) ∧
    (withEvent (.resetDuring 0#32)).host = .resetDuring 0#32 :: [] ∧ decode 0#32 = .ok .nop ∧ writesMemory .nop = false := by
  decide +kernel

theorem witness_EveryResponseCarriesFsr :
    ∃ t, (withEvent (.command 0#32)).host = .command 0#32 :: [] ∧ step (withEvent (.command 0#32)) = .next t :=
  ⟨_, rfl, rfl⟩

theorem witness_FaultsArePrecise :
    ∃ t, (withEvent (.command 0xFF000000#32)).ready ∧ (withEvent (.command 0xFF000000#32)).host = [.command 0xFF000000#32] ∧
      step (withEvent (.command 0xFF000000#32)) = .next t ∧ t.faulted = true :=
  ⟨_, rfl, rfl, rfl, rfl⟩

/-- A faulted unit with a well-formed `RDCR`, with the first word that is none, and with a reset to come. -/
theorem witness_FaultStateExecutesOnlyRdcrUntilReset :
    faultedUnit.faulted = true ∧
    ({ faultedUnit with host := [.command 0x01000004#32] }.faulted = true ∧ rdcrWord 0x01000004#32) ∧
    ({ faultedUnit with host := [.command 0x01000005#32] }.faulted = true ∧ ¬ rdcrWord 0x01000005#32) ∧
    ({ faultedUnit with host := [.reset] }.faulted = true ∧ { faultedUnit with host := [.reset] }.host = [.reset]) := by
  unfold rdcrWord
  decide +kernel

/-- Every clause of `domainErrorOf`, at the largest index that is legal; `SBMIX` with the last records of memory. -/
theorem witness_DomainErrorExactly :
    State.reset.ready ∧ (∃ t, exec (.fdiv 0 1 2 29) State.reset = .next t) ∧ (Instr.pdiv 0 1 2 3 29).distinctResults = true ∧
    domainErrorOf (.fdiv 0 1 2 29) State.reset ∧ domainErrorOf (.finv 0 1 29) State.reset ∧
    domainErrorOf (.pdiv 0 1 2 3 29) State.reset ∧ domainErrorOf (.pmonic 0 1 29) State.reset ∧
    domainErrorOf (.pxeu 0 1 2 29) State.reset ∧ domainErrorOf (.sbpre 0 1 2 29) State.reset ∧
    domainErrorOf (.sbmix 0 0 .fwd 15 1009) State.reset := by
  refine ⟨rfl, ⟨_, rfl⟩, rfl, ⟨by decide, rfl⟩, ⟨by decide, rfl⟩, ⟨by decide, rfl⟩, ⟨by decide, rfl⟩, ⟨by decide, rfl⟩,
    ⟨by decide, rfl⟩, by decide, 0, by decide, 0, by decide +kernel, by decide +kernel, ?_⟩
  rintro L' i' (h | ⟨-, h⟩) <;> exact absurd h (Nat.not_lt_zero _)

/-- `m = 30`, the first illegal one, and an index byte of 30 in the first pair of `SBMIX`. -/
theorem witness_IllegalModulusExactly :
    State.reset.ready ∧ (∃ t, exec (.fmul 0 1 2 30) State.reset = .next t) ∧ (Instr.fmul 0 1 2 30).distinctResults = true ∧
    illegalModulusOf (.fmul 0 1 2 30) State.reset 30 ∧ ¬ illegalModulusOf (.fmul 0 1 2 29) State.reset 29 ∧
    (start [] [] [(16, [0x1E#8])]).ready ∧ illegalModulusOf (.sbmix 0 0 .fwd 1 0) (start [] [] [(16, [0x1E#8])]) 30 := by
  refine ⟨rfl, ⟨_, rfl⟩, rfl, ⟨by decide, rfl⟩, fun h => absurd h.1 (by decide),
    by unfold State.ready; decide +kernel, by decide, 0, by decide, 0,
    by decide +kernel, by decide +kernel, ?_⟩
  rintro L' i' (h | ⟨-, h⟩) <;> exact absurd h (Nat.not_lt_zero _)

/-- Address 32768 exactly, in each clause. -/
theorem witness_AddressRangeExactly :
    edge.ready ∧ (∃ t, exec (.ldbx 0 0x7F01#15 0) edge = .next t) ∧
    addressRangeOf (.ldbx 4 0x7F01#15 0) edge 32768 ∧ addressRangeOf (.stbx 4 0x7F01#15 0) edge 32768 ∧
    addressRangeOf (.pld 4 2 0x7FFF#15) edge 32768 ∧ addressRangeOf (.pst 4 2 0x7FFF#15) edge 32768 ∧
    addressRangeOf (.sbmix 0 0 .fwd 2 1023) edge 32768 ∧ ¬ addressRangeOf (.sbmix 0 0 .fwd 1 1023) edge 32768 := by
  refine ⟨by unfold State.ready; decide +kernel, ⟨_, rfl⟩, ?_, ?_, ?_, ?_, ?_, ?_⟩ <;> unfold addressRangeOf <;> decide +kernel

/-- Length 33 exactly, in each clause, and the largest lengths, 256 and 287 (assumption log 18). -/
theorem witness_LengthOverflowExactly :
    edge.ready ∧ (∃ t, exec (.pput 0 32#8 0) edge = .next t) ∧
    lengthOverflowOf (.pput 4 32#8 0) edge 33 ∧ lengthOverflowOf (.pld 4 3 0x7FDF#15) edge 33 ∧
    lengthOverflowOf (.pshu 4 2 32#8) edge 33 ∧ lengthOverflowOf (.pmul 4 1 1 29) edge 33 ∧
    lengthOverflowOf (.pput 4 255#8 0) edge 256 ∧
    lengthOverflowOf (.pshu 4 0 255#8) (start [] [(0, List.replicate 32 0x01#8)] []) 287 := by
  refine ⟨by unfold State.ready; decide +kernel, ⟨_, rfl⟩, ?_, ?_, ?_, ?_, ?_, ?_⟩ <;> unfold lengthOverflowOf <;> decide +kernel

/-- Memory of zeros: no table is a permutation, the smallest missing value is 1. -/
theorem witness_NotBijectiveExactly :
    State.reset.ready ∧ (∃ t, exec (.sbinv 1 0) State.reset = .next t) ∧ notBijectiveOf (.sbinv 1 0) State.reset 1 ∧
    notBijectiveOf (.sbinvs 1 0 .fwd) State.reset 1 := by
  have key : ∀ f : Byte → Byte, (∀ k, f k = 0#8) → smallestMissing f 1#8 := by
    intro f h
    refine ⟨fun k e => by rw [h k] at e; exact absurd e (by decide), fun w hw => ⟨0#8, ?_⟩⟩
    rw [h]
    have : w.toNat = 0 := by simp at hw; omega
    exact BitVec.eq_of_toNat_eq (by simp [this])
  have run : ∃ t, exec (.sbinv 1 0) State.reset = .next t := by
    rw [exec, execSbinv, whenReady_of_ready rfl]
    split <;> exact ⟨_, rfl⟩
  exact ⟨rfl, run, ⟨1#8, key _ (fun _ => rfl), rfl⟩,
    ⟨0, 1#8, fun j hj => absurd hj (Nat.not_lt_zero _), key _ (fun _ => rfl), rfl⟩⟩

theorem witness_CommandsRaiseOnlyTheirListedFaults :
    ∃ t, State.reset.ready ∧ (Instr.fdiv 0 1 2 0).distinctResults = true ∧ exec (.fdiv 0 1 2 0) State.reset = .next t ∧
      t.faulted = true :=
  ⟨_, rfl, rfl, rfl, by decide +kernel⟩

theorem witness_ResponseCommandsComplete : State.reset.ready ∧ (29 : ModIdx).val < 30 := ⟨rfl, by decide⟩

/-- The effective address 32767. -/
theorem witness_LoadsComplete : edge.ready ∧ (0x7F00#15).toNat + (edge.readB 0).toNat < 32768 := by
  unfold State.ready
  decide +kernel

theorem witness_StoresComplete : edge.ready ∧ (0x7F00#15).toNat + (edge.readB 0).toNat < 32768 := by
  unfold State.ready
  decide +kernel

theorem witness_FieldMovesComplete : State.reset.ready := rfl

theorem witness_FmulAndFredComplete : State.reset.ready ∧ (29 : ModIdx).val < 30 := ⟨rfl, by decide⟩

theorem witness_FdivWritesTheUniqueQuotient :
    edge.ready ∧ irreducible8 (edge.modtab[29]'(by decide)) = true ∧ edge.readB 0 ≠ 0#8 := by
  unfold State.ready
  decide +kernel

theorem witness_FinvWritesTheUniqueInverse :
    edge.ready ∧ irreducible8 (edge.modtab[0]'(by decide)) = true ∧ edge.readB 0 ≠ 0#8 := by
  unfold State.ready
  decide +kernel

/-- Any modulus with bit 8 set, irreducible or not; a byte below 256; a value that is its own remainder. -/
theorem witness_GfredIsReductionRelativeToTheModulus :
    (0x11B#9).getLsbD 8 = true ∧ (0x100#9).getLsbD 8 = true ∧ (0x00FF#16).toNat < 256 ∧
    0x00FF#16 = clmulModulus 0#8 0x100#9 ^^^ (0xFF#8).setWidth 16 ∧ 8 ≤ 8 ∧ 8 < 16 ∧ 8 ≤ 15 ∧ 15 < 16 := by decide +kernel

theorem witness_ReductionIsMultiplyAndAdd : (0x11B#9).getLsbD 8 = true := by decide

theorem witness_FieldLawsUnderEveryModulus : irreducible8 0x1F9#9 = true ∧ 0xFF#8 ≠ 0#8 ∧ 0x01#8 ≠ 0#8 := by decide +kernel

/-- The zero polynomial, and a shift to exactly 32 coefficients. -/
theorem witness_PolynomialMovesComplete :
    edge.ready ∧ edge.readP 7 = [] ∧ edge.readP 0 ≠ [] ∧ (edge.readP 0).length + (16#8).toNat ≤ 32 := by
  unfold State.ready
  decide +kernel

theorem witness_PolynomialReadsComplete : edge.ready := by unfold State.ready; decide +kernel

/-- The last index; 32 bytes that end at the last byte of memory. -/
theorem witness_PolynomialBuildersComplete :
    edge.ready ∧ (31#8).toNat < 32 ∧ (edge.readB 1).toNat ≤ 32 ∧ (0x7FE0#15).toNat + (edge.readB 1).toNat ≤ 32768 := by
  unfold State.ready
  decide +kernel

/-- 32 bytes that end at the last byte of memory, and no byte at the last address. -/
theorem witness_PstStoresTheImage :
    edge.ready ∧ (0x7FE0#15).toNat + (edge.readB 1).toNat ≤ 32768 ∧ (0x7FFF#15).toNat + (edge.readB 15).toNat ≤ 32768 := by
  unfold State.ready
  decide +kernel

/-- Lengths 16 and 17: a product of exactly 32 coefficients. -/
theorem witness_PmulIsTheFullConvolution :
    edge.ready ∧ (edge.readP 0).length + (edge.readP 1).length ≤ 33 ∧ irreducible8 (edge.modtab[29]'(by decide)) = true ∧
    canonical (edge.readP 0) = true ∧ canonical (edge.readP 1) = true ∧ edge.readP 0 ≠ [] ∧ edge.readP 1 ≠ [] := by
  unfold State.ready
  decide +kernel

theorem witness_PdivIsDivisionWithRemainder :
    edge.ready ∧ irreducible8 (edge.modtab[29]'(by decide)) = true ∧ (4 : PReg) ≠ 5 ∧ canonical (edge.readP 1) = true ∧
    canonical (edge.readP 0) = true ∧ edge.readP 0 ≠ [] ∧
    (∃ r q : Poly, canonical r = true ∧ canonical q = true ∧ r.length < (edge.readP 0).length ∧
      padd (pmul q (edge.readP 0) (edge.modtab[29]'(by decide))) r = edge.readP 1) := by
  refine ⟨by unfold State.ready; decide +kernel, by decide +kernel, by decide, by decide +kernel, by decide +kernel,
    by decide +kernel, [0x01#8], [0x00#8, 0x01#8], ?_⟩
  decide +kernel

/-- A monic operand, which is copied, and one that is not. -/
theorem witness_PmonicScalesToLeadingOne :
    edge.ready ∧ irreducible8 (edge.modtab[29]'(by decide)) = true ∧ canonical (edge.readP 0) = true ∧ edge.readP 0 ≠ [] ∧
    (edge.readP 0).getLast? = some 0x01#8 ∧ canonical (edge.readP 2) = true ∧ edge.readP 2 ≠ [] := by
  unfold State.ready
  decide +kernel

/-- A polynomial with an inverse, `[05]` relative to a polynomial of 16 coefficients. -/
theorem witness_PxeuWritesTheInverseOrZero :
    edge.ready ∧ irreducible8 (edge.modtab[0]'(by decide)) = true ∧ canonical (edge.readP 2) = true ∧
    canonical (edge.readP 0) = true ∧ edge.readP 0 ≠ [] ∧
    (∃ e : Poly, canonical e = true ∧ e.length < (edge.readP 0).length ∧
      (pdivmod (pmul (edge.readP 2) e (edge.modtab[0]'(by decide))) (edge.readP 0) (edge.modtab[0]'(by decide))).1 = [0x01#8]) := by
  refine ⟨by unfold State.ready; decide +kernel, by decide +kernel, by decide +kernel, by decide +kernel, by decide +kernel,
    [finv 0x05#8 0x11B#9], ?_⟩
  decide +kernel

theorem witness_PolynomialsFormARing :
    irreducible8 0x11B#9 = true ∧ canonical [0x57#8, 0x83#8] = true ∧ canonical [] = true := by decide +kernel

theorem witness_SlotWritersComplete : State.reset.ready ∧ (29 : ModIdx).val < 30 := ⟨rfl, by decide⟩

theorem witness_SbpreUndoesTheMultiplication :
    edge.ready ∧ irreducible8 (edge.modtab[29]'(by decide)) = true ∧ edge.readB 0 ≠ 0#8 := by
  unfold State.ready
  decide +kernel

/-- The identity in the slots of set 0 and usable mix records from 1022 on. -/
def identitySet : State :=
  (State.reset.writeTables ((List.finRange 16).map (fun i => (laneSlot 0 i, allBytes)))).writeM 0x7FC0
    (List.replicate 16 0x02#8 ++ List.replicate 16 0x1D#8 ++ (List.replicate 16 0xFF#8 ++ List.replicate 16 0x00#8))

theorem identitySet_lane (i : Lane) (k : Byte) : laneEntry identitySet 0 i k = k := by
  have hk := k.isLt
  have hi := i.isLt
  have hd : ((List.finRange 16).map (fun i => (laneSlot 0 i, allBytes))).Pairwise (fun y z => y.1 ≠ z.1) := by decide +kernel
  have := readM_writeTables_of_mem (s := State.reset) (y := (laneSlot 0 i, allBytes)) (by simp) hd (by simp) hk
  rw [laneEntry, identitySet, State.readM_writeM, if_neg (by simp; omega)]
  have e : 4096 * (0 : SlotSet).val + 256 * i.val + k.toNat = slotAddr (laneSlot 0 i) + k.toNat := by
    simp [slotAddr, laneSlot]
  rw [e, this]
  simp [allBytes, hk]

theorem identitySet_bijection (i : Lane) : IsBijection (laneEntry identitySet 0 i) := fun v => ⟨v, identitySet_lane i v⟩

theorem identitySet_ready : identitySet.ready := by simp [State.ready, identitySet]; rfl

/-- A permutation, and memory of zeros, which is none. -/
theorem witness_SbchkReportsBijectivity :
    (identitySet.ready ∧ IsBijection (slotEntry identitySet 15)) ∧
    (State.reset.ready ∧ ¬ IsBijection (slotEntry State.reset 0)) := by
  refine ⟨⟨identitySet_ready, fun v => ⟨v, ?_⟩⟩, rfl, fun h => ?_⟩
  · simpa [slotEntry, laneEntry] using identitySet_lane 15 v
  · obtain ⟨k, hk⟩ := h 1#8
    exact absurd (show (0#8 : Byte) = 1#8 from hk) (by decide)

theorem witness_SbinvInvertsThePermutation : identitySet.ready ∧ IsBijection (slotEntry identitySet 15) :=
  witness_SbchkReportsBijectivity.1

theorem witness_SbinvsInvertsAndRemapsEveryLane : identitySet.ready ∧ ∀ i, IsBijection (laneEntry identitySet 0 i) :=
  ⟨identitySet_ready, identitySet_bijection⟩

theorem witness_SbinvsBothWaysRestoresTheSet :
    identitySet.ready ∧ Dir.fwd ≠ Dir.bwd ∧ ∀ i, IsBijection (laneEntry identitySet 0 i) :=
  ⟨identitySet_ready, by decide, identitySet_bijection⟩

/-- Two layers in the last two records, moduli 29 and 0; and no layer. -/
theorem witness_SbmixUndoesTheInheritedLayers :
    identitySet.ready ∧ modtabLegal identitySet.modtab = true ∧ (1022 : MixRec).val + (2 : LayerCount).val ≤ 1024 ∧
    (∀ L < (2 : LayerCount).val, ∀ i, goodPair identitySet 1022 L i) ∧ (0 : LayerCount).val = 0 := by
  refine ⟨identitySet_ready, ?_, by decide, ?_, rfl⟩
  · rw [show identitySet.modtab = Config.defaultModtab by simp [identitySet]; rfl]
    decide +kernel
  · have key : ∀ x : Fin 64, identitySet.readM (0x7FC0 + x.val) =
        (List.replicate 16 0x02#8 ++ List.replicate 16 0x1D#8 ++ (List.replicate 16 0xFF#8 ++ List.replicate 16 0x00#8)).getD x.val 0#8 := by
      intro x
      rw [identitySet, State.readM_writeM, if_pos (by simp; omega), Nat.add_sub_cancel_left]
    intro L hL i
    have hi := i.isLt
    have h2 : L < 2 := hL
    unfold goodPair mixMult mixIndex
    have a1 : 32 * (1022 + L) + i.val = 0x7FC0 + (⟨32 * L + i.val, by omega⟩ : Fin 64).val := by simp; omega
    have a2 : 32 * (1022 + L) + 16 + i.val = 0x7FC0 + (⟨32 * L + 16 + i.val, by omega⟩ : Fin 64).val := by simp; omega
    rw [a1, a2, key, key]
    revert i L
    decide +kernel

theorem witness_SboxTableLaws :
    allBytes.length = 256 ∧ isPerm allBytes = true ∧ irreducible8 0x11B#9 = true ∧ 0x01#8 ≠ 0#8 := by decide +kernel

theorem witness_OnlyTheListedCommandsWrite :
    (∃ t, exec .nop State.reset = .next t) ∧ writesByteRegister .nop = false ∧ writesPolynomialRegister .nop = false ∧
    writesMemory .nop = false := ⟨⟨_, rfl⟩, rfl, rfl, rfl⟩

/-- A state of the invariant and a step from it: the unit after reset, taking `FLDI`. -/
theorem witness_EveryStepKeepsTheInvariant :
    (withEvent (.command 0x20F00010#32)).Inv ∧ ∃ t, step (withEvent (.command 0x20F00010#32)) = .next t := by
  refine ⟨⟨?_, ?_, ?_, ?_, ?_, ?_, ?_⟩, _, rfl⟩
  · decide +kernel
  · exact .inl rfl
  · exact fun _ => ⟨rfl, rfl⟩
  · exact fun h => absurd h (by decide +kernel)
  · decide +kernel
  · decide +kernel
  · exact fun r h => absurd h (by decide +kernel +revert)

theorem witness_PowerUpHasTheInvariant : Memory.wf [] ∧ Memory.wf [(0x7FFF, 0x01#8)] := by decide

theorem witness_FaultRecordHeldUntilReset :
    { faultedUnit with host := [.command 0xFF000000#32] }.faulted = true ∧
    onlyCommands { faultedUnit with host := [.command 0xFF000000#32] } := by
  refine ⟨by decide +kernel, fun e he => ⟨0xFF000000#32, ?_⟩⟩
  simpa using he

/-- Two faulted units with the same record whose registers and memory differ. -/
theorem witness_FaultStateHidesRegistersAndMemory :
    ∃ s' u', { faultedUnit with host := [.command 0x02400000#32] }.faulted = true ∧
      SameRecord { faultedUnit with host := [.command 0x02400000#32] }
        { (State.reset.faultEntry 0x15317F80#32 .addressRange 0x807F#32) with host := [.command 0x02400000#32] } ∧
      step { faultedUnit with host := [.command 0x02400000#32] } = .next s' ∧
      step { (State.reset.faultEntry 0x15317F80#32 .addressRange 0x807F#32) with host := [.command 0x02400000#32] } = .next u' :=
  ⟨_, _, by decide +kernel, ⟨rfl, rfl, rfl⟩, rfl, rfl⟩

theorem witness_NoStepChangesModtab : ∃ t, step State.reset = .next t := ⟨_, rfl⟩

end Sys2Proof.Tests
end

section
/-! The field family: `gfred` (`40_field.md` R88) as reduction modulo the polynomial `P`, and the lane remap (R92). -/

namespace Sys2Proof.Machine

open Sys2Proof.Claims

/-- Adding `m` when a selecting bit is set is linear in the value and its bit together: two additions cancel. -/
theorem xor_select_add {n : Nat} (b c : Bool) (v w m : BitVec n) :
    (if (b ^^ c) = true then v ^^^ w ^^^ m else v ^^^ w) =
      (if b = true then v ^^^ m else v) ^^^ (if c = true then w ^^^ m else w) := by
  match b, c with
  | false, false => rfl
  | false, true => simpa using BitVec.xor_assoc v w m
  | true, false => simp [BitVec.xor_assoc, BitVec.xor_comm w m]
  | true, true =>
    calc v ^^^ w = v ^^^ w ^^^ (m ^^^ m) := by rw [BitVec.xor_self, BitVec.xor_zero]
      _ = v ^^^ m ^^^ (w ^^^ m) := by ac_rfl

/-! ## One pass of the reduction -/

/-- Bit `j` after pass `i`: the modulus, moved so that its bit 8 lies on bit `i`, is added when bit `i` is set. -/
theorem getLsbD_gfredStep (P : Modulus) (v : BitVec 16) (i j : Nat) :
    (gfredStep P v i).getLsbD j =
      (v.getLsbD j ^^ (v.getLsbD i && (decide (j < 16) && !decide (j < i - 8) && P.getLsbD (j - (i - 8))))) := by
  unfold gfredStep
  split
  next hi =>
    have hP : decide (j - (i - 8) < 16) = true ∨ P.getLsbD (j - (i - 8)) = false := by
      by_cases h : j - (i - 8) < 16
      · simp [h]
      · exact .inr (P.getLsbD_of_ge _ (by omega))
    rcases hP with hP | hP <;> simp [hi, hP]
  next hi => simp [hi]

/-- Pass `i` does nothing when bit `i` is clear. -/
theorem gfredStep_of_getLsbD_eq_false (P : Modulus) {v : BitVec 16} {i : Nat} (h : v.getLsbD i = false) :
    gfredStep P v i = v := by
  simp [gfredStep, h]

/-- Pass `i` clears bit `i`, because bit 8 of the modulus is set. -/
theorem getLsbD_gfredStep_self {P : Modulus} (hP : P.getLsbD 8 = true) (v : BitVec 16) {i : Nat} (h8 : 8 ≤ i) (h16 : i < 16) :
    (gfredStep P v i).getLsbD i = false := by
  have hi : i - (i - 8) = 8 := by omega
  have hlow : ¬ i < i - 8 := by omega
  rw [getLsbD_gfredStep, hi, hP]
  simp [hlow, h16]

/-- Pass `i` leaves every bit above `i`, because the modulus has no bit above 8. -/
theorem getLsbD_gfredStep_of_gt (P : Modulus) (v : BitVec 16) {i j : Nat} (h8 : 8 ≤ i) (hj : i < j) :
    (gfredStep P v i).getLsbD j = v.getLsbD j := by
  have hPj : P.getLsbD (j - (i - 8)) = false := P.getLsbD_of_ge _ (by omega)
  simp [getLsbD_gfredStep, hPj]

/-- A pass is linear over GF(2). -/
theorem gfredStep_xor (P : Modulus) (v w : BitVec 16) (i : Nat) :
    gfredStep P (v ^^^ w) i = gfredStep P v i ^^^ gfredStep P w i := by
  rw [gfredStep, BitVec.getLsbD_xor, xor_select_add]
  rfl

/-! ## The loop -/

/-- The last `n` passes of the loop of R88: bits `8 + n - 1` down to 8. -/
def gfredPasses (P : Modulus) : Nat → BitVec 16 → BitVec 16
  | 0, v => v
  | n + 1, v => gfredPasses P n (gfredStep P v (8 + n))

/-- The loop of R88 is all eight passes. -/
theorem foldl_gfredStep_eq_gfredPasses (P : Modulus) (v : BitVec 16) :
    [15, 14, 13, 12, 11, 10, 9, 8].foldl (gfredStep P) v = gfredPasses P 8 v := rfl

theorem gfred_eq_gfredPasses (v : BitVec 16) (P : Modulus) : gfred v P = (gfredPasses P 8 v).setWidth 8 := rfl

theorem gfredPasses_xor (P : Modulus) (n : Nat) (v w : BitVec 16) :
    gfredPasses P n (v ^^^ w) = gfredPasses P n v ^^^ gfredPasses P n w := by
  induction n generalizing v w with
  | zero => rfl
  | succ n ih => simp only [gfredPasses, gfredStep_xor, ih]

/-- Passes over bits that are all clear do nothing. -/
theorem gfredPasses_of_high_clear (P : Modulus) (n : Nat) {v : BitVec 16} (h : ∀ j, 8 ≤ j → v.getLsbD j = false) :
    gfredPasses P n v = v := by
  induction n with
  | zero => rfl
  | succ n ih => rw [gfredPasses, gfredStep_of_getLsbD_eq_false P (h _ (Nat.le_add_right 8 n)), ih]

/-- From a value without bits from `8 + n` on, the last `n` passes leave none from 8 on. -/
theorem getLsbD_gfredPasses_of_ge {P : Modulus} (hP : P.getLsbD 8 = true) {n : Nat} (hn : n ≤ 8) {v : BitVec 16}
    (hv : ∀ j, 8 + n ≤ j → v.getLsbD j = false) {j : Nat} (hj : 8 ≤ j) : (gfredPasses P n v).getLsbD j = false := by
  induction n generalizing v with
  | zero => exact hv j hj
  | succ n ih =>
    refine ih (by omega) fun k hk => ?_
    rcases hk.eq_or_lt with rfl | hlt
    · exact getLsbD_gfredStep_self hP v (by omega) (by omega)
    · rw [getLsbD_gfredStep_of_gt P v (by omega) hlt]
      exact hv k (by omega)

/-- A 16-bit value without bits from 8 on is its low byte. -/
theorem setWidth_setWidth_of_high_clear {v : BitVec 16} (h : ∀ j, 8 ≤ j → v.getLsbD j = false) :
    (v.setWidth 8).setWidth 16 = v := by
  apply BitVec.eq_of_getLsbD_eq
  intro j hj
  rcases Nat.lt_or_ge j 8 with h8 | h8
  · simp [hj, h8]
  · simp [h j h8, Nat.not_lt.mpr h8]

/-- The loop's value is a byte: no bit above 7 is left. -/
theorem gfredPasses_eight_eq_gfred {P : Modulus} (hP : P.getLsbD 8 = true) (v : BitVec 16) :
    gfredPasses P 8 v = (gfred v P).setWidth 16 := by
  rw [gfred_eq_gfredPasses, setWidth_setWidth_of_high_clear]
  exact fun j hj => getLsbD_gfredPasses_of_ge hP le_rfl (fun k hk => v.getLsbD_of_ge k hk) hj

/-! ## `gfred` -/

theorem gfred_xor (v w : BitVec 16) (P : Modulus) : gfred (v ^^^ w) P = gfred v P ^^^ gfred w P := by
  simp only [gfred_eq_gfredPasses, gfredPasses_xor, BitVec.setWidth_xor]

/-- A byte reduces to itself. -/
theorem gfred_of_lt (P : Modulus) {v : BitVec 16} (h : v.toNat < 256) : gfred v P = v.setWidth 8 := by
  have hclear (j : Nat) (hj : 8 ≤ j) : v.getLsbD j = false :=
    Nat.testBit_lt_two_pow (h.trans_le (Nat.pow_le_pow_right two_pos hj))
  rw [gfred_eq_gfredPasses, gfredPasses_of_high_clear P 8 hclear]

theorem gfred_setWidth (r : Byte) (P : Modulus) : gfred (r.setWidth 16) P = r := by
  have hr := r.isLt
  rw [gfred_of_lt P (by simpa using by omega), BitVec.setWidth_setWidth_of_le _ (by decide), BitVec.setWidth_eq]

@[simp] theorem gfred_zero (P : Modulus) : gfred 0#16 P = 0#8 := gfred_setWidth 0#8 P

/-- The passes bring a shifted copy of the modulus to 0: those above its leading bit do nothing, the one at its leading bit adds
the copy to itself. -/
theorem gfredPasses_shifted_modulus {P : Modulus} (hP : P.getLsbD 8 = true) {k n : Nat} (hk : k < n) (hn : n ≤ 8) :
    gfredPasses P n (P.setWidth 16 <<< k) = 0#16 := by
  induction n with
  | zero => exact absurd hk (Nat.not_lt_zero k)
  | succ n ih =>
    rw [gfredPasses]
    rcases (Nat.lt_succ_iff.mp hk).eq_or_lt with rfl | hlt
    · have hlead : (P.setWidth 16 <<< k).getLsbD (8 + k) = true := by
        simp [hP, show 8 + k < 16 by omega]
      have hstep : gfredStep P (P.setWidth 16 <<< k) (8 + k) = 0#16 := by
        simp only [gfredStep, hlead, if_true, Nat.add_sub_cancel_left, BitVec.xor_self]
      rw [hstep]
      exact gfredPasses_of_high_clear P k fun j _ => BitVec.getLsbD_zero
    · have hclear : (P.setWidth 16 <<< k).getLsbD (8 + n) = false := by
        have hPn : P.getLsbD (8 + n - k) = false := P.getLsbD_of_ge _ (by omega)
        simp [hPn]
      rw [gfredStep_of_getLsbD_eq_false P hclear]
      exact ih hlt (by omega)

theorem gfred_shifted_modulus {P : Modulus} (hP : P.getLsbD 8 = true) {k : Nat} (hk : k < 8) :
    gfred (P.setWidth 16 <<< k) P = 0#8 := by
  rw [gfred_eq_gfredPasses, gfredPasses_shifted_modulus hP hk le_rfl]
  rfl

/-! ## Multiples of the modulus -/

/-- The XOR of the copies `x << i` over the listed bits `i` that `q` has, onto `acc`. -/
def xorShifts (x : BitVec 16) (q : Byte) (l : List Nat) (acc : BitVec 16) : BitVec 16 :=
  l.foldl (fun acc i => if q.getLsbD i then acc ^^^ (x <<< i) else acc) acc

theorem clmulModulus_eq_xorShifts (q : Byte) (P : Modulus) :
    clmulModulus q P = xorShifts (P.setWidth 16) q (List.range 8) 0#16 := rfl

theorem xorShifts_cons (x : BitVec 16) (q : Byte) (i : Nat) (l : List Nat) (acc : BitVec 16) :
    xorShifts x q (i :: l) acc = xorShifts x q l (if q.getLsbD i then acc ^^^ (x <<< i) else acc) := rfl

theorem xorShifts_xor (x : BitVec 16) (q q' : Byte) (l : List Nat) (acc acc' : BitVec 16) :
    xorShifts x (q ^^^ q') l (acc ^^^ acc') = xorShifts x q l acc ^^^ xorShifts x q' l acc' := by
  induction l generalizing acc acc' with
  | nil => rfl
  | cons i l ih => simp only [xorShifts_cons, BitVec.getLsbD_xor, xor_select_add, ih]

/-- The product with the modulus is linear in the byte. -/
theorem clmulModulus_xor (q q' : Byte) (P : Modulus) :
    clmulModulus (q ^^^ q') P = clmulModulus q P ^^^ clmulModulus q' P :=
  xorShifts_xor (P.setWidth 16) q q' (List.range 8) 0#16 0#16

theorem clmulModulus_zero (P : Modulus) : clmulModulus 0#8 P = 0#16 := rfl

/-- The product with `z^k` is the modulus moved up by `k`. -/
theorem clmulModulus_twoPow (P : Modulus) {k : Nat} (hk : k < 8) :
    clmulModulus (BitVec.twoPow 8 k) P = P.setWidth 16 <<< k := by
  interval_cases k <;> simp [clmulModulus, List.range_succ, BitVec.getLsbD_twoPow]

/-- Adding shifted copies of the modulus does not change the reduction. -/
theorem gfred_xorShifts {P : Modulus} (hP : P.getLsbD 8 = true) (q : Byte) {l : List Nat} (hl : ∀ i ∈ l, i < 8)
    (acc : BitVec 16) : gfred (xorShifts (P.setWidth 16) q l acc) P = gfred acc P := by
  induction l generalizing acc with
  | nil => rfl
  | cons i l ih =>
    rw [List.forall_mem_cons] at hl
    obtain ⟨hi, hl⟩ := hl
    rw [xorShifts_cons, ih hl]
    split
    · rw [gfred_xor, gfred_shifted_modulus hP hi, BitVec.xor_zero]
    · rfl

theorem gfred_clmulModulus {P : Modulus} (hP : P.getLsbD 8 = true) (q : Byte) : gfred (clmulModulus q P) P = 0#8 := by
  rw [clmulModulus_eq_xorShifts, gfred_xorShifts hP q (fun i hi => List.mem_range.mp hi), gfred_zero]

/-- The passes change a value by a multiple of the modulus. -/
theorem exists_gfredPasses_eq_xor (P : Modulus) {n : Nat} (hn : n ≤ 8) (v : BitVec 16) :
    ∃ q, v = clmulModulus q P ^^^ gfredPasses P n v := by
  induction n generalizing v with
  | zero => exact ⟨0#8, by rw [clmulModulus_zero, BitVec.zero_xor, gfredPasses]⟩
  | succ n ih =>
    obtain ⟨q, hq⟩ := ih (by omega) (gfredStep P v (8 + n))
    rw [gfredPasses]
    by_cases hbit : v.getLsbD (8 + n) = true
    · refine ⟨BitVec.twoPow 8 n ^^^ q, ?_⟩
      have hstep : gfredStep P v (8 + n) = v ^^^ (P.setWidth 16 <<< n) := by
        simp only [gfredStep, hbit, if_true, Nat.add_sub_cancel_left]
      calc v = P.setWidth 16 <<< n ^^^ gfredStep P v (8 + n) := by
            rw [hstep, BitVec.xor_comm v, ← BitVec.xor_assoc, BitVec.xor_self, BitVec.zero_xor]
        _ = _ := by
            rw [clmulModulus_xor, clmulModulus_twoPow P (by omega), BitVec.xor_assoc, ← hq]
    · rw [Bool.not_eq_true] at hbit
      rw [gfredStep_of_getLsbD_eq_false P hbit] at hq ⊢
      exact ⟨q, hq⟩

/-- A value is a multiple of the modulus plus its reduction. -/
theorem exists_eq_clmulModulus_xor_gfred {P : Modulus} (hP : P.getLsbD 8 = true) (v : BitVec 16) :
    ∃ q, v = clmulModulus q P ^^^ (gfred v P).setWidth 16 := by
  rw [← gfredPasses_eight_eq_gfred hP]
  exact exists_gfredPasses_eq_xor P le_rfl v

/-- The reduction is the only byte congruent to the value. -/
theorem eq_gfred_of_eq_clmulModulus_xor {P : Modulus} (hP : P.getLsbD 8 = true) {v : BitVec 16} {q r : Byte}
    (h : v = clmulModulus q P ^^^ r.setWidth 16) : r = gfred v P := by
  rw [h, gfred_xor, gfred_clmulModulus hP, gfred_setWidth, BitVec.zero_xor]

/-- The modulus is `z^8` plus its low byte. -/
theorem setWidth_modulus_eq {P : Modulus} (hP : P.getLsbD 8 = true) :
    P.setWidth 16 = 0x0100#16 ^^^ (P.setWidth 8).setWidth 16 := by
  apply BitVec.eq_of_getLsbD_eq
  intro j hj
  rw [show 0x0100#16 = BitVec.twoPow 16 8 from rfl, BitVec.getLsbD_xor, BitVec.getLsbD_twoPow]
  rcases Nat.lt_trichotomy j 8 with hlt | rfl | hgt
  · simp [hj, hlt, hlt.ne']
  · simp [hP]
  · simp [P.getLsbD_of_ge j hgt, hgt.ne, hgt.le]

/-- `z^8` reduces to the low byte of the modulus (R88). -/
theorem gfred_z_pow_eight {P : Modulus} (hP : P.getLsbD 8 = true) : gfred 0x0100#16 P = P.setWidth 8 := by
  refine (eq_gfred_of_eq_clmulModulus_xor hP (q := BitVec.twoPow 8 0) ?_).symm
  rw [clmulModulus_twoPow P (by decide), BitVec.shiftLeft_zero, setWidth_modulus_eq hP, BitVec.xor_assoc, BitVec.xor_self,
    BitVec.xor_zero]

/-- Settles O28. The passes are read bit by bit; existence of the quotient is an induction over the passes, and uniqueness is
linearity with the fact that every multiple of the modulus reduces to 0. -/
theorem gfredIsReductionRelativeToTheModulus : Obligations.GfredIsReductionRelativeToTheModulus := by
  intro P hP
  refine ⟨fun v => ?_, fun v i h8 h16 => ?_, exists_eq_clmulModulus_xor_gfred hP,
    fun v q r => eq_gfred_of_eq_clmulModulus_xor hP, fun v => gfred_of_lt P, gfred_z_pow_eight hP,
    fun v w => gfred_xor v w P⟩
  · rw [foldl_gfredStep_eq_gfredPasses, gfredPasses_eight_eq_gfred hP]
  · exact ⟨getLsbD_gfredStep_self hP v h8 h16, fun j => getLsbD_gfredStep_of_gt P v h8⟩

/-! ## The lane remap -/

@[simp] theorem laneMap_fwd_val (i : Lane) : (laneMap .fwd i).val = (i.val + 4 * (i.val % 4)) % 16 := rfl

@[simp] theorem laneMap_bwd_val (i : Lane) : (laneMap .bwd i).val = (i.val + 16 - 4 * (i.val % 4)) % 16 := rfl

/-- Both directions keep the column. -/
theorem laneMap_val_mod_four (d : Dir) (i : Lane) : (laneMap d i).val % 4 = i.val % 4 := by
  cases d with
  | fwd => rw [laneMap_fwd_val]; omega
  | bwd => rw [laneMap_bwd_val]; omega

@[simp] theorem laneMap_bwd_fwd (i : Lane) : laneMap .bwd (laneMap .fwd i) = i := by
  ext
  simp only [laneMap_bwd_val, laneMap_fwd_val]
  omega

@[simp] theorem laneMap_fwd_bwd (i : Lane) : laneMap .fwd (laneMap .bwd i) = i := by
  ext
  simp only [laneMap_bwd_val, laneMap_fwd_val]
  omega

/-- Each direction is a permutation, because the other undoes it. -/
theorem laneMap_bijective (d : Dir) : Function.Bijective (laneMap d) := by
  rw [Function.bijective_iff_has_inverse]
  cases d with
  | fwd => exact ⟨laneMap .bwd, laneMap_bwd_fwd, laneMap_fwd_bwd⟩
  | bwd => exact ⟨laneMap .fwd, laneMap_fwd_bwd, laneMap_bwd_fwd⟩

/-- The forward map twice moves a lane by twice the offset of its column, which the first step keeps. -/
theorem laneMap_fwd_fwd_val (i : Lane) : (laneMap .fwd (laneMap .fwd i)).val = (i.val + 8 * (i.val % 4)) % 16 := by
  rw [laneMap_fwd_val, laneMap_val_mod_four, laneMap_fwd_val]
  omega

/-- The formulas of R92 over the integers, where the backward difference may be negative. -/
theorem laneMap_val_int (i : Lane) :
    ((laneMap .fwd i).val : Int) = ((i.val : Int) + 4 * ((i.val : Int) % 4)) % 16 ∧
      ((laneMap .bwd i).val : Int) = ((i.val : Int) - 4 * ((i.val : Int) % 4)) % 16 := by
  rw [laneMap_fwd_val, laneMap_bwd_val]
  omega

/-- Settles O31: the formulas are arithmetic modulo 16, the permutations follow from the mutual inverses, and the two tables are
evaluated. -/
theorem laneRemapLaws : Obligations.LaneRemapLaws := by
  refine ⟨laneMap_val_int, fun d => ⟨laneMap_bijective d, laneMap_val_mod_four d⟩,
    fun i => ⟨laneMap_bwd_fwd i, laneMap_fwd_bwd i⟩, laneMap_fwd_fwd_val, fun i hcol => ?_, fun i => ?_, by decide, by decide⟩
  · rw [laneMap_fwd_fwd_val]
    omega
  · rw [laneMap_fwd_val]
    omega

end Sys2Proof.Machine
end

section
/-! Which words decode: the decoder of R70 against the masks of the opcode table (R71), through one notion, that the bits of a
mask are clear in a word. -/

namespace Sys2Proof

open Sys2Proof.Claims

/-! ## Clear bits -/

/-- The bits of the mask `m` are all 0 in the word `c`. -/
def Clear (c m : Word) : Prop := c &&& m = 0#32

theorem clear_iff_getLsbD {c m : Word} : Clear c m ↔ ∀ i < 32, m.getLsbD i = true → c.getLsbD i = false := by
  rw [Clear, BitVec.eq_of_getLsbD_eq_iff]
  simp only [BitVec.getLsbD_and, BitVec.getLsbD_zero, Bool.and_eq_false_imp]
  exact forall₂_congr fun i _ => by cases c.getLsbD i <;> simp

theorem clear_and_clear {c m n : Word} : Clear c m ∧ Clear c n ↔ Clear c (m ||| n) := by
  simp only [clear_iff_getLsbD, BitVec.getLsbD_or, Bool.or_eq_true, or_imp, forall_and]

theorem clear_and {c m n : Word} : Clear (c &&& m) n ↔ Clear c (m &&& n) := by
  rw [Clear, Clear, BitVec.and_assoc]

theorem append_eq_zero {n k : Nat} {x : BitVec n} {y : BitVec k} : x ++ y = 0#(n + k) ↔ x = 0#n ∧ y = 0#k := by
  simp [BitVec.toNat_eq]

/-- A part of a field is a part of the word. -/
theorem extractLsb'_extractLsb' {n start start' len len' : Nat} {x : BitVec n} (hle : start + len ≤ len') :
    (x.extractLsb' start' len').extractLsb' start len = x.extractLsb' (start' + start) len := by
  ext i hi
  have hlt : start + i < len' := by omega
  simp [hlt, Nat.add_assoc]

/-- A field of a word is 0 when the bits it takes are clear. -/
theorem extractLsb'_eq_zero_iff {c : Word} {start len : Nat} (hle : start + len ≤ 32) :
    c.extractLsb' start len = 0#len ↔ Clear c ((BitVec.allOnes len).setWidth 32 <<< start) := by
  rw [clear_iff_getLsbD, BitVec.eq_of_getLsbD_eq_iff]
  constructor
  · intro h i hi hm
    have hfield : start ≤ i ∧ i - start < len := by
      simp at hm
      omega
    simpa [hfield.2, Nat.add_sub_cancel' hfield.1] using h (i - start) hfield.2
  · intro h j hj
    have hbit : c.getLsbD (start + j) = false := h (start + j) (by omega) (by simp; omega)
    simp [hbit]

/-! ## The fields of the eight formats (R66) -/

theorem aField_eq_zero_iff (c : Word) : aField c = 0#4 ↔ Clear c 0x00F00000#32 := extractLsb'_eq_zero_iff (by decide)
theorem bField_eq_zero_iff (c : Word) : bField c = 0#4 ↔ Clear c 0x000F0000#32 := extractLsb'_eq_zero_iff (by decide)
theorem cField_eq_zero_iff (c : Word) : cField c = 0#4 ↔ Clear c 0x0000F000#32 := extractLsb'_eq_zero_iff (by decide)
theorem dField_eq_zero_iff (c : Word) : dField c = 0#4 ↔ Clear c 0x00000F00#32 := extractLsb'_eq_zero_iff (by decide)
theorem zeroR_eq_zero_iff (c : Word) : zeroR c = 0#3 ↔ Clear c 0x000000E0#32 := extractLsb'_eq_zero_iff (by decide)
theorem mField_eq_zero_iff (c : Word) : mField c = 0#5 ↔ Clear c 0x0000001F#32 := extractLsb'_eq_zero_iff (by decide)
theorem zeroI_eq_zero_iff (c : Word) : zeroI c = 0#8 ↔ Clear c 0x0000FF00#32 := extractLsb'_eq_zero_iff (by decide)
theorem zeroM_eq_zero_iff (c : Word) : zeroM c = 0#1 ↔ Clear c 0x00008000#32 := extractLsb'_eq_zero_iff (by decide)
theorem sdField_eq_zero_iff (c : Word) : sdField c = 0#7 ↔ Clear c 0x00FE0000#32 := extractLsb'_eq_zero_iff (by decide)
theorem ssField_eq_zero_iff (c : Word) : ssField c = 0#7 ↔ Clear c 0x0001FC00#32 := extractLsb'_eq_zero_iff (by decide)
theorem zeroS_eq_zero_iff (c : Word) : zeroS c = 0#1 ↔ Clear c 0x00000200#32 := extractLsb'_eq_zero_iff (by decide)
theorem bfField_eq_zero_iff (c : Word) : bfField c = 0#4 ↔ Clear c 0x000001E0#32 := extractLsb'_eq_zero_iff (by decide)
theorem zeroT_eq_zero_iff (c : Word) : zeroT c = 0#3 ↔ Clear c 0x00000007#32 := extractLsb'_eq_zero_iff (by decide)
theorem kField_eq_zero_iff (c : Word) : kField c = 0#4 ↔ Clear c 0x0001E000#32 := extractLsb'_eq_zero_iff (by decide)
theorem zeroX_eq_zero_iff (c : Word) : zeroX c = 0#3 ↔ Clear c 0x00001C00#32 := extractLsb'_eq_zero_iff (by decide)
theorem mbField_eq_zero_iff (c : Word) : mbField c = 0#10 ↔ Clear c 0x000003FF#32 := extractLsb'_eq_zero_iff (by decide)
theorem zeroN_eq_zero_iff (c : Word) : zeroN c = 0#24 ↔ Clear c 0x00FFFFFF#32 := extractLsb'_eq_zero_iff (by decide)

/-- Two words are equal when their opcodes and their other 24 bits are. -/
theorem word_ext_iff {c d : Word} : c = d ↔ opField c = opField d ∧ zeroN c = zeroN d := by
  have happend (w : Word) : opField w ++ zeroN w = w := BitVec.extractLsb'_append_extractLsb' (w := 8) (len := 24)
  constructor
  · rintro rfl
    exact ⟨rfl, rfl⟩
  · rintro ⟨hop, hrest⟩
    rw [← happend c, hop, hrest, happend]

/-! ## Value restrictions (R68) -/

theorem exists_preg_eq_ok {f : BitVec 4} : (∃ r, preg f = .ok r) ↔ f.extractLsb' 3 1 = 0#1 := by
  have hbit : f.extractLsb' 3 1 = 0#1 ↔ f.toNat < 8 := by decide +revert
  rw [hbit, preg]
  split <;> simp [*]

/-- A field names a polynomial register when its high bit is clear. -/
theorem exists_preg_extractLsb'_iff {c : Word} {start : Nat} (hle : start + 4 ≤ 32) :
    (∃ r, preg (c.extractLsb' start 4) = .ok r) ↔ Clear c ((1#32) <<< (start + 3)) := by
  rw [exists_preg_eq_ok, extractLsb'_extractLsb' (by decide), extractLsb'_eq_zero_iff (by omega)]
  rfl

theorem exists_preg_aField_iff (c : Word) : (∃ r, preg (aField c) = .ok r) ↔ Clear c 0x00800000#32 :=
  exists_preg_extractLsb'_iff (by decide)
theorem exists_preg_bField_iff (c : Word) : (∃ r, preg (bField c) = .ok r) ↔ Clear c 0x00080000#32 :=
  exists_preg_extractLsb'_iff (by decide)
theorem exists_preg_cField_iff (c : Word) : (∃ r, preg (cField c) = .ok r) ↔ Clear c 0x00008000#32 :=
  exists_preg_extractLsb'_iff (by decide)
theorem exists_preg_dField_iff (c : Word) : (∃ r, preg (dField c) = .ok r) ↔ Clear c 0x00000800#32 :=
  exists_preg_extractLsb'_iff (by decide)

/-- Two fields name the same register exactly when they are equal. -/
theorem eq_iff_of_preg_eq_ok {f g : BitVec 4} {p q : PReg} (hf : preg f = .ok p) (hg : preg g = .ok q) : p = q ↔ f = g := by
  unfold preg at hf hg
  split at hf <;> split at hg <;> cases hf <;> cases hg
  rw [Fin.mk.injEq, BitVec.toNat_inj]

/-- `LANE` takes a direction of 0 or 1. -/
theorem exists_dirImm_iff (c : Word) : (∃ d, dirImm (immField c) = .ok d) ↔ Clear c 0x000000FE#32 := by
  have hdir (f : BitVec 8) : (∃ d, dirImm f = .ok d) ↔ f = 0#8 ∨ f = 1#8 := by
    unfold dirImm
    split_ifs <;> simp [*]
  have hbits (f : BitVec 8) : f = 0#8 ∨ f = 1#8 ↔ f.extractLsb' 1 7 = 0#7 := by decide +revert
  have himm : (immField c).extractLsb' 1 7 = c.extractLsb' 1 7 := extractLsb'_extractLsb' (by decide)
  rw [hdir, hbits, himm, extractLsb'_eq_zero_iff (by decide)]
  rfl

/-- `RDCR` takes the numbers of the five control registers. -/
theorem creg_eq_ok_iff {f : BitVec 8} {cr : CReg} : creg f = .ok cr ↔ cregBits cr = f := by
  constructor
  · unfold creg
    split_ifs <;> rintro ⟨⟩ <;> exact Eq.symm ‹_›
  · rintro rfl
    cases cr <;> rfl

theorem exists_cregBits_eq_iff {f : BitVec 8} : (∃ cr, cregBits cr = f) ↔ f.toNat ≤ 4 := by
  constructor
  · rintro ⟨cr, rfl⟩
    cases cr <;> decide
  · intro hle
    obtain rfl | rfl | rfl | rfl | rfl : f = 0#8 ∨ f = 1#8 ∨ f = 2#8 ∨ f = 3#8 ∨ f = 4#8 := by bv_omega
    exacts [⟨.id, rfl⟩, ⟨.cap, rfl⟩, ⟨.fsr, rfl⟩, ⟨.fcw, rfl⟩, ⟨.finfo, rfl⟩]

/-- A number of at most 4 has no bit above bit 2. -/
theorem exists_creg_iff (c : Word) :
    (∃ cr, creg (immField c) = .ok cr) ↔ Clear c 0x000000F8#32 ∧ (immField c).toNat ≤ 4 := by
  have hbits (f : BitVec 8) : f.toNat ≤ 4 ↔ f.extractLsb' 3 5 = 0#5 ∧ f.toNat ≤ 4 := by decide +revert
  have himm : (immField c).extractLsb' 3 5 = c.extractLsb' 3 5 := extractLsb'_extractLsb' (by decide)
  calc (∃ cr, creg (immField c) = .ok cr)
    _ ↔ (immField c).toNat ≤ 4 := by simp only [creg_eq_ok_iff, exists_cregBits_eq_iff]
    _ ↔ c.extractLsb' 3 5 = 0#5 ∧ (immField c).toNat ≤ 4 := by rw [← himm]; exact hbits _
    _ ↔ _ := and_congr_left' (extractLsb'_eq_zero_iff (by decide))

/-! ## The shape of the decoder's rows -/

theorem unused_eq_ok {n : Nat} {z : BitVec n} {r : Except Reject Instr} {i : Instr} :
    unused z r = .ok i ↔ z = 0#n ∧ r = .ok i := by
  unfold unused
  split
  next hz => exact (and_iff_right hz).symm
  next hz => exact iff_of_false (by simp) fun h => hz h.1

theorem bind_eq_ok {α β : Type} {x : Except Reject α} {f : α → Except Reject β} {b : β} :
    x >>= f = .ok b ↔ ∃ a, x = .ok a ∧ f a = .ok b := by
  cases x <;> simp [bind, Except.bind]

theorem pure_eq_ok {α : Type} {a b : α} : (pure a : Except Reject α) = .ok b ↔ a = b := by
  simp [pure, Except.pure]

theorem exists_unused_eq_ok {n : Nat} {z : BitVec n} {r : Except Reject Instr} :
    (∃ i, unused z r = .ok i) ↔ z = 0#n ∧ ∃ i, r = .ok i := by
  simp only [unused_eq_ok, exists_and_left]

theorem exists_bind_eq_ok {α β : Type} {x : Except Reject α} {f : α → Except Reject β} :
    (∃ b, x >>= f = .ok b) ↔ ∃ a, x = .ok a ∧ ∃ b, f a = .ok b := by
  simp only [bind_eq_ok, ← exists_and_left]
  exact exists_comm

theorem exists_pure_eq_ok {α : Type} {a : α} : ∃ b, (pure a : Except Reject α) = .ok b := ⟨a, rfl⟩

theorem exists_ok_eq_ok {α : Type} {a : α} : ∃ b, (Except.ok a : Except Reject α) = .ok b := ⟨a, rfl⟩

theorem error_ite_eq_ok {α : Type} {p : Prop} [Decidable p] {e : Reject} {a b : α} :
    (if p then .error e else .ok a : Except Reject α) = .ok b ↔ ¬ p ∧ a = b := by
  split <;> simp [*]

theorem exists_error_ite_eq_ok {α : Type} {p : Prop} [Decidable p] {e : Reject} {a : α} :
    (∃ b, (if p then .error e else .ok a : Except Reject α) = .ok b) ↔ ¬ p := by
  simp only [error_ite_eq_ok, exists_and_left, exists_eq', and_true]

/-! ## The rows of the table -/

/-- The bits below the opcode that the table's row of an opcode wants to be 0. -/
def bodyMask (op : BitVec 8) : Option Word :=
  (tableRows.find? (fun row => opField row.1 == op)).map (fun row => row.2 &&& 0x00FFFFFF#32)

/-- Every row asks for its whole opcode and for zeros below it. -/
theorem tableRows_shape {row : Word × Word} (hrow : row ∈ tableRows) : opField row.2 = 0xFF#8 ∧ zeroN row.1 = 0#24 := by
  have hall : tableRows.all (fun row => opField row.2 == 0xFF#8 && zeroN row.1 == 0#24) = true := by decide +kernel
  simpa using List.all_eq_true.mp hall row hrow

/-- No two rows have one opcode. -/
theorem find?_tableRows {row : Word × Word} (hrow : row ∈ tableRows) :
    tableRows.find? (fun r => opField r.1 == opField row.1) = some row := by
  have hall : tableRows.all (fun row => tableRows.find? (fun r => opField r.1 == opField row.1) == some row) = true := by
    decide +kernel
  simpa using List.all_eq_true.mp hall row hrow

theorem matches_row_iff {c : Word} {row : Word × Word} (hrow : row ∈ tableRows) :
    c &&& row.2 = row.1 ↔ opField row.1 = opField c ∧ Clear c (row.2 &&& 0x00FFFFFF#32) := by
  obtain ⟨hop, hbody⟩ := tableRows_shape hrow
  have hand : opField (c &&& row.2) = opField c := by
    rw [opField, BitVec.extractLsb'_and, ← opField, ← opField, hop]
    exact BitVec.and_allOnes
  rw [word_ext_iff, hand, hbody, zeroN_eq_zero_iff, clear_and, eq_comm]

/-- A word matches a row of the table when its opcode has one and the bits of that row's mask are clear. -/
theorem exists_matches_row_iff {c : Word} :
    (∃ row ∈ tableRows, c &&& row.2 = row.1) ↔ ∃ m, bodyMask (opField c) = some m ∧ Clear c m := by
  constructor
  · rintro ⟨row, hrow, h⟩
    obtain ⟨hop, hclear⟩ := (matches_row_iff hrow).mp h
    refine ⟨_, ?_, hclear⟩
    rw [bodyMask, ← hop, find?_tableRows hrow, Option.map_some]
  · rintro ⟨m, hm, hclear⟩
    obtain ⟨row, hfind, rfl⟩ := Option.map_eq_some_iff.mp hm
    have hrow := List.mem_of_find?_eq_some hfind
    exact ⟨row, hrow, (matches_row_iff hrow).mpr ⟨by simpa using List.find?_some hfind, hclear⟩⟩

/-- A legal word, read at its opcode. -/
theorem legalWord_iff_of_opcode {c m : Word} {op : Nat} (hop : (opField c).toNat = op)
    (hm : bodyMask (BitVec.ofNat 8 op) = some m) :
    legalWord c ↔ Clear c m ∧ (op = 0x01 → (immField c).toNat ≤ 4) ∧ (op = 0x44 → aField c ≠ bField c) := by
  have hopc : opField c = BitVec.ofNat 8 op := by rw [← hop, BitVec.ofNat_toNat, BitVec.setWidth_eq]
  have hnum (k : BitVec 8) : opField c = k ↔ op = k.toNat := by rw [← hop, BitVec.toNat_inj]
  have hrow : (∃ m', bodyMask (opField c) = some m' ∧ Clear c m') ↔ Clear c m := by simp [hopc, hm]
  rw [legalWord, exists_matches_row_iff, hrow]
  exact and_congr_right' (and_congr (imp_congr_left (hnum 0x01#8)) (imp_congr_left (hnum 0x44#8)))

/-- The opcode of a word that matches a row is one of the 41 assigned ones. -/
theorem opField_mem_of_matches_row {c : Word} (h : ∃ row ∈ tableRows, c &&& row.2 = row.1) :
    (opField c).toNat ∈ tableRows.map (fun row => (opField row.1).toNat) := by
  obtain ⟨row, hrow, hmatch⟩ := h
  rw [← ((matches_row_iff hrow).mp hmatch).1]
  exact List.mem_map_of_mem hrow

/-! ## Which words decode -/

/-- `PDIV` takes two destinations that differ; `Q` and `R` stand for what its two operands ask for. -/
theorem exists_distinct_pregs_iff {f g : BitVec 4} {Q R : Prop} :
    (∃ p, preg f = .ok p ∧ ∃ q, preg g = .ok q ∧ Q ∧ R ∧ p ≠ q) ↔
      ((∃ p, preg f = .ok p) ∧ (∃ q, preg g = .ok q) ∧ Q ∧ R) ∧ f ≠ g := by
  constructor
  · rintro ⟨p, hp, q, hq, hQ, hR, hne⟩
    exact ⟨⟨⟨p, hp⟩, ⟨q, hq⟩, hQ, hR⟩, (eq_iff_of_preg_eq_ok hp hq).not.mp hne⟩
  · rintro ⟨⟨⟨p, hp⟩, ⟨q, hq⟩, hQ, hR⟩, hne⟩
    exact ⟨p, hp, q, hq, hQ, hR, (eq_iff_of_preg_eq_ok hp hq).not.mpr hne⟩

/-- The decoder accepts exactly the words of the opcode table with the restrictions of R68: for each opcode, the fields its row
wants to be 0 are the bits of the table's mask. Of the decoder's rows `h_2` is `RDCR`, `h_31` is `PDIV`, and `h_42` is an
opcode without a row. -/
theorem exists_decode_eq_ok_iff (c : Word) : (∃ i, decode c = .ok i) ↔ legalWord c := by
  unfold decode
  split
  case h_42 =>
    refine iff_of_false (by simp) fun ⟨hmatch, _⟩ => ?_
    have hmem := opField_mem_of_matches_row hmatch
    generalize (opField c).toNat = op at *
    simp_all [tableRows, opField]
  all_goals
    rw [legalWord_iff_of_opcode ‹_› rfl]
    simp only [exists_unused_eq_ok, exists_bind_eq_ok, exists_pure_eq_ok, exists_ok_eq_ok, exists_error_ite_eq_ok, ← ne_eq,
      and_true, exists_and_right, append_eq_zero, aField_eq_zero_iff, bField_eq_zero_iff, cField_eq_zero_iff,
      dField_eq_zero_iff, zeroR_eq_zero_iff, mField_eq_zero_iff, zeroI_eq_zero_iff, zeroM_eq_zero_iff, sdField_eq_zero_iff,
      ssField_eq_zero_iff, zeroS_eq_zero_iff, bfField_eq_zero_iff, zeroT_eq_zero_iff, kField_eq_zero_iff, zeroX_eq_zero_iff,
      mbField_eq_zero_iff, zeroN_eq_zero_iff, exists_distinct_pregs_iff, exists_preg_aField_iff, exists_preg_bField_iff,
      exists_preg_cField_iff, exists_preg_dField_iff, exists_dirImm_iff, exists_creg_iff, clear_and_clear]
  case h_2 | h_31 => simp [← and_assoc, clear_and_clear]
  all_goals simp

/-- The decoder answers `RDCR` exactly on the well-formed `RDCR` words, with the register their `imm8` numbers. -/
theorem decode_eq_ok_rdcr_iff {c : Word} {cr : CReg} :
    decode c = .ok (.rdcr cr) ↔ rdcrWord c ∧ cregBits cr = c.extractLsb' 0 8 := by
  have hzero : aField c ++ bField c ++ zeroI c = 0#16 ↔ c.extractLsb' 8 16 = 0#16 := by
    rw [extractLsb'_eq_zero_iff (by decide), append_eq_zero (n := 8), append_eq_zero, aField_eq_zero_iff, bField_eq_zero_iff,
      zeroI_eq_zero_iff, clear_and_clear, clear_and_clear]
    rfl
  constructor
  · intro h
    unfold decode at h
    split at h
    case h_2 hop =>
      obtain ⟨hz, hrow⟩ := unused_eq_ok.mp h
      obtain ⟨cr', hcr, heq⟩ := bind_eq_ok.mp hrow
      obtain rfl : cr' = cr := Instr.rdcr.inj (pure_eq_ok.mp heq)
      have hnum := creg_eq_ok_iff.mp hcr
      exact ⟨⟨BitVec.eq_of_toNat_eq hop, hzero.mp hz, exists_cregBits_eq_iff.mp ⟨_, hnum⟩⟩, hnum⟩
    all_goals
      simp only [unused_eq_ok, bind_eq_ok, pure_eq_ok, error_ite_eq_ok, Except.ok.injEq, reduceCtorEq, and_false,
        exists_false] at h
  · rintro ⟨⟨hop, hz, -⟩, hnum⟩
    have hopc : (opField c).toNat = 1 := by rw [opField, hop]; rfl
    unfold decode
    rw [hopc]
    exact unused_eq_ok.mpr ⟨hzero.mpr hz, bind_eq_ok.mpr ⟨cr, creg_eq_ok_iff.mpr hnum, rfl⟩⟩

/-- No word decodes to a `PDIV` with one destination (R68). -/
theorem distinctResults_of_decode {c : Word} {i : Instr} (h : decode c = .ok i) : i.distinctResults = true := by
  cases i
  case pdiv pr pq pa pb m =>
    unfold decode at h
    split at h
    all_goals
      simp only [unused_eq_ok, bind_eq_ok, pure_eq_ok, error_ite_eq_ok, Except.ok.injEq, reduceCtorEq, and_false,
        exists_false] at h
    obtain ⟨-, pr', -, pq', -, pa', -, pb', -, hne, heq⟩ := h
    cases heq
    exact bne_iff_ne.mpr hne
  all_goals rfl

end Sys2Proof
end

section
/-! The fault family (`60_exceptions.md`): which words and commands raise `IllegalCommand`, `AddressRange` and `NotBijective`
(R173, R175, R177), and what the fault state does (R186). -/

namespace Sys2Proof.Machine

open Sys2Proof.Claims

/-! ## Causes and `FSR` -/

theorem faultStatus_injective : Function.Injective faultStatus := by
  intro x y h
  cases x <;> cases y <;> revert h <;> decide

/-- `F` is set in every fault status, so the `FSR` of a ready unit is none (R36). -/
theorem State.ready.fsr_ne {s : State} (hr : s.ready) (x : Cause) : s.fsr ≠ faultStatus x := by
  intro h
  have hf : s.faulted = true := by
    rw [State.faulted, h]
    cases x <;> decide
  exact absurd (hr.symm.trans hf) (by decide)

/-- A ready unit has a fault status after a command only by the entry of that fault, which the command lists or which is the
refusal of a `PDIV` with one destination. -/
theorem exec_eq_faultEntry_of_fsr {i : Instr} {s t : State} {x : Cause} (hr : s.ready) (h : exec i s = .next t)
    (hx : t.fsr = faultStatus x) :
    (x ∈ listedFaults i ∨ (x = .illegalCommand ∧ i.distinctResults = false)) ∧
      ∃ info, t = s.faultEntry (encode i) x info := by
  cases exec_cases h with
  | byteRegister bd v _ eq => exact absurd (by simpa [eq] using hx) (hr.fsr_ne x)
  | polynomialRegister pd q _ eq => exact absurd (by simpa [eq] using hx) (hr.fsr_ne x)
  | polynomialRegisters pr pq r q _ eq => exact absurd (by simpa [eq] using hx) (hr.fsr_ne x)
  | memory a bs _ eq => exact absurd (by simpa [eq] using hx) (hr.fsr_ne x)
  | tables ts _ _ eq => exact absurd (by simpa [eq] using hx) (hr.fsr_ne x)
  | response d eq => exact absurd (by simpa [eq] using hx) (hr.fsr_ne x)
  | fault y info _ hy eq =>
    obtain rfl : y = x := faultStatus_injective (by simpa [eq] using hx)
    exact ⟨hy, info, eq⟩

/-- Between `s` and `t` the command `i` entered the fault `x` exactly where `cond` gives a fault information, and then with that
information. -/
def RaisesExactly (x : Cause) (cond : Nat → Prop) (i : Instr) (s t : State) : Prop :=
  (t.fsr = faultStatus x → ∃ n, cond n) ∧ ∀ n, cond n → t = s.faultEntry (encode i) x (word n)

/-- `RaisesExactly` in the terms of the record: the status is an equivalence, `FINFO` is the information, and registers and
memory stay. -/
theorem RaisesExactly.record {x : Cause} {cond : Nat → Prop} {i : Instr} {s t : State} (h : RaisesExactly x cond i s t) :
    (t.fsr = faultStatus x ↔ ∃ n, cond n) ∧
      ∀ n, cond n → t.finfo = BitVec.ofNat 32 n ∧ SameB s t ∧ SameP s t ∧ SameM s t := by
  obtain ⟨hcond, hentry⟩ := h
  refine ⟨⟨hcond, fun ⟨n, hn⟩ => by rw [hentry n hn, State.faultEntry_fsr]⟩, fun n hn => ?_⟩
  obtain rfl := hentry n hn
  exact ⟨rfl, fun r => State.readB_faultEntry .., fun r => State.readP_faultEntry .., fun a => State.readM_faultEntry ..⟩

/-- For a command that faults under one condition with one information, and otherwise ends without that fault. -/
theorem RaisesExactly.of_answers {x : Cause} {cond : Nat → Prop} {i : Instr} {s t : State} {p : Prop} {info : Nat}
    (hcond : ∀ n, cond n ↔ p ∧ n = info)
    (h : (p ∧ t = s.faultEntry (encode i) x (word info)) ∨ (¬ p ∧ t.fsr ≠ faultStatus x)) :
    RaisesExactly x cond i s t := by
  rcases h with ⟨hp, ht⟩ | ⟨hp, hfsr⟩
  · exact ⟨fun _ => ⟨info, (hcond info).mpr ⟨hp, rfl⟩⟩, fun n hn => by rw [ht, ((hcond n).mp hn).2]⟩
  · exact ⟨fun hx => absurd hx hfsr, fun n hn => absurd ((hcond n).mp hn).1 hp⟩

/-- A command that lists no such fault raises none. -/
theorem raisesExactly_of_not_listed {x : Cause} {cond : Nat → Prop} {i : Instr} {s t : State} (hr : s.ready)
    (h : exec i s = .next t) (hlist : x ∉ listedFaults i) (hx : x ≠ .illegalCommand) (hcond : ∀ n, ¬ cond n) :
    RaisesExactly x cond i s t := by
  refine ⟨fun hfsr => ?_, fun n hn => absurd hn (hcond n)⟩
  obtain ⟨hmem | ⟨hill, -⟩, -⟩ := exec_eq_faultEntry_of_fsr hr h hfsr
  · exact absurd hmem hlist
  · exact absurd hill hx

/-! ## One word -/

/-- A word that the host presents is issued with the event taken. -/
theorem step_command {s : State} {c : Word} {rest : List HostEvent} (hhost : s.host = .command c :: rest) :
    step s = issue c { s with host := rest } := by
  unfold step
  rw [hhost]

theorem issue_of_decode_ok {c : Word} {i : Instr} (h : decode c = .ok i) (s : State) : issue c s = exec i s := by
  simp only [issue, h]

theorem issue_of_decode_error {c : Word} {e : Reject} (h : decode c = .error e) (s : State) :
    issue c s = whenReady s (enterFault c .illegalCommand 0#32 s) := by
  simp only [issue, h]

/-- Every command answers a next state (R207). -/
theorem exec_answers (i : Instr) (s : State) : ∃ t, exec i s = .next t := by
  cases hf : s.faulted with
  | true =>
    obtain ⟨d, h⟩ := exec_of_faulted (i := i) hf
    exact ⟨_, h⟩
  | false =>
    cases i
    all_goals
      simp only [exec, execNop, execRdcr, execRdb, execMwr, execMrd, execLdb, execStb, execLdbx, execStbx, execFldi, execFmov,
        execFadd, execFmul, execFdiv, execFinv, execFred, execModp, execLane, execPclr, execPmov, execPput, execPget, execPlen,
        execPld, execPst, execPcmp, execPadd, execPshu, execPshd, execPmul, execPdiv, execPmonic, execPxeu, execSbid, execSbchk,
        execSbinv, execSbcomp, execSbpre, execSbpost, execSbinvs, execSbmix, whenReady_of_ready hf, withModulus_eq]
      repeat' split
      all_goals exact ⟨_, rfl⟩

/-- Every command but `RDCR` stands behind the gate of R70 step 0. -/
theorem exec_eq_whenReady {i : Instr} (hi : ∀ cr, i ≠ .rdcr cr) (s : State) : ∃ k, exec i s = whenReady s k := by
  cases i
  case rdcr cr => exact absurd rfl (hi cr)
  all_goals exact ⟨_, rfl⟩

/-! ## `IllegalCommand` -/

/-- The fault is judged before there is a command, so no command lists it. -/
theorem illegalCommand_notMem_listedFaults (i : Instr) : Cause.illegalCommand ∉ listedFaults i := by
  cases i <;> simp [listedFaults]

/-- No decoded command raises the fault. -/
theorem fsr_ne_illegalCommand_of_decode {c : Word} {i : Instr} {s t : State} (hr : s.ready) (hdec : decode c = .ok i)
    (h : exec i s = .next t) : t.fsr ≠ faultStatus .illegalCommand := by
  intro hfsr
  obtain ⟨hlist | ⟨-, hsame⟩, -⟩ := exec_eq_faultEntry_of_fsr hr h hfsr
  · exact illegalCommand_notMem_listedFaults i hlist
  · exact absurd (distinctResults_of_decode hdec) (by simp [hsame])

theorem issue_of_not_legalWord {c : Word} {s : State} (hr : s.ready) (hc : ¬ legalWord c) :
    issue c s = .next (s.faultEntry c .illegalCommand 0#32) := by
  cases hdec : decode c with
  | ok i => exact absurd ((exists_decode_eq_ok_iff c).mp ⟨i, hdec⟩) hc
  | error e => rw [issue_of_decode_error hdec, whenReady_of_ready hr, enterFault]

/-- Settles O4: the decoder accepts exactly the legal words, a decoded command raises other faults only, and a word that the
decoder refuses enters this one. -/
theorem illegalCommandExactlyOnIllegalWords : Obligations.IllegalCommandExactlyOnIllegalWords := by
  intro s c rest hr hhost
  rw [step_command hhost]
  have hr' : State.ready { s with host := rest } := hr
  by_cases hc : legalWord c
  · obtain ⟨i, hdec⟩ := (exists_decode_eq_ok_iff c).mpr hc
    obtain ⟨t, ht⟩ := exec_answers i { s with host := rest }
    refine ⟨t, by rw [issue_of_decode_ok hdec, ht], ?_, absurd hc⟩
    exact iff_of_false (fsr_ne_illegalCommand_of_decode hr' hdec ht) (not_not_intro hc)
  · refine ⟨_, issue_of_not_legalWord hr' hc, iff_of_true rfl hc, fun _ => ?_⟩
    exact ⟨rfl, rfl, fun _ => rfl, fun _ => rfl, fun _ => rfl, rfl, rfl, rfl, rfl⟩

/-! ## The fault state -/

theorem onlyResponse_withResponse (s : State) (d : Word) : OnlyResponse s (s.withResponse d) d :=
  ⟨fun _ => rfl, fun _ => rfl, fun _ => rfl, ⟨rfl, rfl, rfl⟩, ⟨rfl, rfl, rfl⟩, rfl⟩

/-- A well-formed `RDCR` executes in every state (R156, R186 (a)). -/
theorem issue_of_rdcrWord {c : Word} (hc : rdcrWord c) (s : State) :
    ∃ cr, cregBits cr = c.extractLsb' 0 8 ∧ issue c s = .next (s.withResponse (s.controlReg cr)) := by
  have ⟨_, _, hle⟩ := hc
  obtain ⟨cr, hnum⟩ := exists_cregBits_eq_iff.mpr hle
  exact ⟨cr, hnum, issue_of_decode_ok (decode_eq_ok_rdcr_iff.mpr ⟨hc, hnum⟩) s⟩

/-- In the fault state every other word is refused, legal or not (R186 (b)). -/
theorem issue_of_faulted {c : Word} {s : State} (hf : s.faulted = true) (hc : ¬ rdcrWord c) :
    issue c s = .next (s.withResponse 0#32) := by
  cases hdec : decode c with
  | ok i =>
    have hi (cr : CReg) : i ≠ .rdcr cr := by
      rintro rfl
      exact hc (decode_eq_ok_rdcr_iff.mp hdec).1
    obtain ⟨k, hk⟩ := exec_eq_whenReady hi s
    rw [issue_of_decode_ok hdec, hk, whenReady_of_faulted hf]
  | error e => rw [issue_of_decode_error hdec, whenReady_of_faulted hf]

/-- Settles O12: a word is a well-formed `RDCR` or meets the gate, and reset is read off its definition. -/
theorem faultStateExecutesOnlyRdcrUntilReset : Obligations.FaultStateExecutesOnlyRdcrUntilReset := by
  intro s hf
  refine ⟨fun c rest hhost => ?_, fun rest hhost => ?_⟩
  · rw [step_command hhost]
    refine ⟨fun hc => ?_, fun hc => ⟨_, issue_of_faulted hf hc, onlyResponse_withResponse _ _⟩⟩
    obtain ⟨cr, hnum, hissue⟩ := issue_of_rdcrWord hc { s with host := rest }
    exact ⟨cr, hnum, _, hissue, onlyResponse_withResponse _ _⟩
  · have hstep : step s = .next (State.assertReset { s with host := rest }) := by
      unfold step
      rw [hhost]
    exact ⟨_, hstep, State.faulted_assertReset _, rfl, rfl, rfl, State.readB_assertReset _, State.readP_assertReset _,
      fun _ => rfl⟩

/-! ## `AddressRange` -/

/-- The range rule of R52 fails for a range that is not empty and ends past memory. -/
theorem inRange_eq_false {a n : Nat} : inRange a n = false ↔ 1 ≤ n ∧ 32768 < a + n := by
  simp only [inRange, Config.memSize, Bool.or_eq_false_iff, beq_eq_false_iff_ne, decide_eq_false_iff_not]
  omega

theorem execLdbx_cases {bd : BReg} {addr : Addr} {bi : BReg} {s t : State} (hr : s.ready)
    (h : execLdbx bd addr bi s = .next t) :
    (32768 ≤ indexedAddress s addr bi ∧
      t = s.faultEntry (encode (.ldbx bd addr bi)) .addressRange (word (indexedAddress s addr bi))) ∨
    (indexedAddress s addr bi < 32768 ∧
      t = (s.writeB bd (s.readM (indexedAddress s addr bi))).withResponse 0#32) := by
  rw [execLdbx, whenReady_of_ready hr] at h
  dsimp only at h
  split at h
  next hge => exact .inl ⟨hge, raise_next.mp h⟩
  next hlt => exact .inr ⟨Nat.lt_of_not_le hlt, done_next.mp h⟩

theorem execStbx_cases {bs : BReg} {addr : Addr} {bi : BReg} {s t : State} (hr : s.ready)
    (h : execStbx bs addr bi s = .next t) :
    (32768 ≤ indexedAddress s addr bi ∧
      t = s.faultEntry (encode (.stbx bs addr bi)) .addressRange (word (indexedAddress s addr bi))) ∨
    (indexedAddress s addr bi < 32768 ∧
      t = (s.writeM (indexedAddress s addr bi) [s.readB bs]).withResponse 0#32) := by
  rw [execStbx, whenReady_of_ready hr] at h
  dsimp only at h
  split at h
  next hge => exact .inl ⟨hge, raise_next.mp h⟩
  next hlt => exact .inr ⟨Nat.lt_of_not_le hlt, done_next.mp h⟩

theorem execPld_cases {pd : PReg} {bn : BReg} {addr : Addr} {s t : State} (hr : s.ready)
    (h : execPld pd bn addr s = .next t) :
    (inRange addr.toNat (s.readB bn).toNat = false ∧
      t = s.faultEntry (encode (.pld pd bn addr)) .addressRange (word 32768)) ∨
    (inRange addr.toNat (s.readB bn).toNat = true ∧ 32 < (s.readB bn).toNat ∧
      t = s.faultEntry (encode (.pld pd bn addr)) .lengthOverflow (word (s.readB bn).toNat)) ∨
    (inRange addr.toNat (s.readB bn).toNat = true ∧ (s.readB bn).toNat ≤ 32 ∧
      t = (s.writeP pd (trim (s.mem.readBytes addr.toNat (s.readB bn).toNat))).withResponse 0#32) := by
  rw [execPld, whenReady_of_ready hr] at h
  dsimp only at h
  split at h
  next hout => exact .inl ⟨hout, raise_next.mp h⟩
  next hin =>
    rw [Bool.not_eq_false] at hin
    split at h
    next hlong => exact .inr (.inl ⟨hin, hlong, raise_next.mp h⟩)
    next hshort => exact .inr (.inr ⟨hin, Nat.le_of_not_lt hshort, done_next.mp h⟩)

theorem execPst_cases {ps : PReg} {bn : BReg} {addr : Addr} {s t : State} (hr : s.ready)
    (h : execPst ps bn addr s = .next t) :
    (inRange addr.toNat (s.readB bn).toNat = false ∧
      t = s.faultEntry (encode (.pst ps bn addr)) .addressRange (word 32768)) ∨
    (inRange addr.toNat (s.readB bn).toNat = true ∧
      t = (s.writeM addr.toNat (image (s.readP ps) (s.readB bn).toNat)).withResponse 0#32) := by
  rw [execPst, whenReady_of_ready hr] at h
  dsimp only at h
  split at h
  next hout => exact .inl ⟨hout, raise_next.mp h⟩
  next hin => exact .inr ⟨by rwa [Bool.not_eq_false] at hin, done_next.mp h⟩

/-- R175 for an effective address: that address is the information. -/
theorem addressRangeOf_indexed_iff (s : State) (addr : Addr) (bi : BReg) (n : Nat) :
    (32768 ≤ n ∧ n = addr.toNat + (s.readB bi).toNat) ↔
      32768 ≤ indexedAddress s addr bi ∧ n = indexedAddress s addr bi :=
  and_congr_left fun hn => by rw [hn, indexedAddress]

/-- R175 for a byte count in a register. -/
theorem addressRangeOf_counted_iff (s : State) (addr : Addr) (bn : BReg) (n : Nat) :
    (1 ≤ (s.readB bn).toNat ∧ 32768 < addr.toNat + (s.readB bn).toNat ∧ n = 32768) ↔
      inRange addr.toNat (s.readB bn).toNat = false ∧ n = 32768 := by
  rw [inRange_eq_false, and_assoc]

/-- Every command judges the range as R175 says; each of the five that can raise the fault by its own list of answers. -/
theorem exec_raisesExactly_addressRange {i : Instr} {s t : State} (hr : s.ready) (h : exec i s = .next t) :
    RaisesExactly .addressRange (addressRangeOf i s) i s t := by
  cases i
  case ldbx bd addr bi =>
    refine .of_answers (addressRangeOf_indexed_iff s addr bi) ?_
    obtain ⟨hge, rfl⟩ | ⟨hlt, rfl⟩ := execLdbx_cases hr h
    · exact .inl ⟨hge, rfl⟩
    · exact .inr ⟨Nat.not_le_of_lt hlt, hr.fsr_ne _⟩
  case stbx bs addr bi =>
    refine .of_answers (addressRangeOf_indexed_iff s addr bi) ?_
    obtain ⟨hge, rfl⟩ | ⟨hlt, rfl⟩ := execStbx_cases hr h
    · exact .inl ⟨hge, rfl⟩
    · exact .inr ⟨Nat.not_le_of_lt hlt, hr.fsr_ne _⟩
  case pld pd bn addr =>
    refine .of_answers (addressRangeOf_counted_iff s addr bn) ?_
    obtain ⟨hout, rfl⟩ | ⟨hin, -, rfl⟩ | ⟨hin, -, rfl⟩ := execPld_cases hr h
    · exact .inl ⟨hout, rfl⟩
    · exact .inr ⟨by simp [hin], faultStatus_injective.ne (by decide)⟩
    · exact .inr ⟨by simp [hin], hr.fsr_ne _⟩
  case pst ps bn addr =>
    refine .of_answers (addressRangeOf_counted_iff s addr bn) ?_
    obtain ⟨hout, rfl⟩ | ⟨hin, rfl⟩ := execPst_cases hr h
    · exact .inl ⟨hout, rfl⟩
    · exact .inr ⟨by simp [hin], hr.fsr_ne _⟩
  case sbmix td ts dir k r =>
    refine .of_answers (p := 1 ≤ k.val ∧ 1024 < r.val + k.val) (fun n => and_assoc.symm) ?_
    obtain ⟨hpos, hend, rfl⟩ | ⟨hle, x, info, hbad, rfl⟩ | ⟨hle, -, rfl⟩ := execSbmix_cases hr h
    · exact .inl ⟨⟨hpos, hend⟩, rfl⟩
    · refine .inr ⟨by omega, faultStatus_injective.ne ?_⟩
      rintro rfl
      exact absurd (firstBadPair_cause hbad) (by decide)
    · exact .inr ⟨by omega, by simpa using hr.fsr_ne .addressRange⟩
  all_goals exact raisesExactly_of_not_listed hr h (by simp [listedFaults]) (by decide) fun _ => id

/-- The fault information of R175: an address just past memory, at most the largest effective address. -/
theorem addressRangeOf_bounds {i : Instr} {s : State} {n : Nat} (h : addressRangeOf i s n) : 32768 ≤ n ∧ n ≤ 33022 := by
  cases i
  case ldbx _ addr bi | stbx _ addr bi =>
    obtain ⟨hge, rfl⟩ := h
    have haddr := addr.isLt
    have hindex := (s.readB bi).isLt
    omega
  case pld | pst | sbmix =>
    obtain ⟨-, -, rfl⟩ := h
    decide
  all_goals exact h.elim

/-- Settles O15: each command that can raise the fault is read off its list of answers, every other one does not list it. -/
theorem addressRangeExactly : Obligations.AddressRangeExactly := by
  intro i s t hr h
  obtain ⟨hfsr, hrecord⟩ := (exec_raisesExactly_addressRange hr h).record
  refine ⟨hfsr, fun n hn => ?_⟩
  obtain ⟨hlow, hhigh⟩ := addressRangeOf_bounds hn
  exact ⟨hlow, hhigh, hrecord n hn⟩

/-! ## `NotBijective` -/

theorem slotEntry_eq_entry (s : State) (sl : Slot) : slotEntry s sl = entry (s.table sl) :=
  funext fun k => (entry_slot s sl k).symm

theorem laneEntry_eq_entry (s : State) (ts : SlotSet) (i : Lane) : laneEntry s ts i = entry (s.table (laneSlot ts i)) :=
  funext fun k => (entry_lane s ts i k).symm

/-- Two smallest missing values cannot differ: the smaller one would occur. -/
theorem smallestMissing_unique {f : Byte → Byte} {v w : Byte} (hv : smallestMissing f v) (hw : smallestMissing f w) : v = w := by
  obtain ⟨hvmiss, hvleast⟩ := hv
  obtain ⟨hwmiss, hwleast⟩ := hw
  rcases Nat.lt_trichotomy v.toNat w.toNat with hlt | heq | hgt
  · obtain ⟨k, hk⟩ := hwleast v hlt
    exact absurd hk (hvmiss k)
  · exact BitVec.eq_of_toNat_eq heq
  · obtain ⟨k, hk⟩ := hvleast w hgt
    exact absurd hk (hwmiss k)

/-- A table has a smallest missing value exactly when it is no permutation, and `missing` computes it (R140). -/
theorem smallestMissing_entry_iff {t : Table} (ht : t.length = 256) {v : Byte} :
    smallestMissing (entry t) v ↔ isPerm t = false ∧ missing t = v.toNat := by
  constructor
  · intro hv
    have hperm : isPerm t = false := by
      rw [← Bool.not_eq_true, isPerm_iff ht]
      intro hb
      obtain ⟨k, hk⟩ := hb v
      exact hv.1 k hk
    obtain ⟨w, hw, hmiss⟩ := missing_spec ht hperm
    exact ⟨hperm, by rw [hw, smallestMissing_unique hv hmiss]⟩
  · rintro ⟨hperm, hv⟩
    obtain ⟨w, hw, hmiss⟩ := missing_spec ht hperm
    rwa [BitVec.eq_of_toNat_eq (hv.symm.trans hw)]

/-- R177 for the table of one slot. -/
theorem exists_smallestMissing_iff (s : State) (ss : Slot) (n : Nat) :
    (∃ v, smallestMissing (slotEntry s ss) v ∧ n = v.toNat) ↔ isPerm (s.table ss) = false ∧ n = missing (s.table ss) := by
  simp only [slotEntry_eq_entry, smallestMissing_entry_iff (length_table _ _)]
  constructor
  · rintro ⟨v, ⟨hperm, hv⟩, rfl⟩
    exact ⟨hperm, hv.symm⟩
  · rintro ⟨hperm, rfl⟩
    obtain ⟨v, hv, -⟩ := missing_spec (length_table s ss) hperm
    exact ⟨v, ⟨hperm, hv⟩, hv⟩

theorem execSbinv_cases {sd ss : Slot} {s t : State} (hr : s.ready) (h : execSbinv sd ss s = .next t) :
    (isPerm (s.table ss) = true ∧ t = (s.writeTable sd (permInv (s.table ss))).withResponse 0#32) ∨
    (isPerm (s.table ss) = false ∧
      t = s.faultEntry (encode (.sbinv sd ss)) .notBijective (word (missing (s.table ss)))) := by
  rw [execSbinv, whenReady_of_ready hr] at h
  split at h
  next hperm => exact .inl ⟨hperm, done_next.mp h⟩
  next hperm => exact .inr ⟨by rwa [Bool.not_eq_true] at hperm, raise_next.mp h⟩

/-- The information of `SBINVS` is `(lane << 8) | value`, the sum for a value of one byte (R177). -/
theorem lane_shiftLeft_or (i : Lane) (v : Byte) : i.val <<< 8 ||| v.toNat = 256 * i.val + v.toNat := by
  rw [← Nat.shiftLeft_add_eq_or_of_lt v.isLt, Nat.shiftLeft_eq]
  omega

/-- The scan of `SBINVS` in the terms of R177: where a lane has a smallest missing value and every lane below is a permutation,
it stops at that lane. -/
theorem firstBadLane_of_lowest {s : State} {ts : SlotSet} {i : Lane} {v : Byte}
    (hlow : ∀ j : Lane, j.val < i.val → IsBijection (laneEntry s ts j)) (hv : smallestMissing (laneEntry s ts i) v) :
    firstBadLane s ts = some i ∧ missing (s.table (laneSlot ts i)) = v.toNat := by
  rw [laneEntry_eq_entry, smallestMissing_entry_iff (length_table _ _)] at hv
  obtain ⟨hbad, hmiss⟩ := hv
  have hperm : ∀ j : Lane, j.val < i.val → isPerm (s.table (laneSlot ts j)) = true := fun j hj => by
    rw [isPerm_iff (length_table _ _), ← laneEntry_eq_entry]
    exact hlow j hj
  refine ⟨?_, hmiss⟩
  cases hscan : firstBadLane s ts with
  | none => exact absurd (firstBadLane_eq_none hscan i) (by simp [hbad])
  | some j =>
    obtain ⟨hjbad, hjlow⟩ := firstBadLane_eq_some hscan
    rcases Nat.lt_trichotomy j.val i.val with hlt | heq | hgt
    · exact absurd (hperm j hlt) (by simp [hjbad])
    · exact congrArg some (Fin.ext heq)
    · exact absurd (hjlow i hgt) (by simp [hbad])

theorem execSbinv_raisesExactly {sd ss : Slot} {s t : State} (hr : s.ready) (h : execSbinv sd ss s = .next t) :
    RaisesExactly .notBijective (notBijectiveOf (.sbinv sd ss) s) (.sbinv sd ss) s t := by
  refine .of_answers (exists_smallestMissing_iff s ss) ?_
  obtain ⟨hperm, rfl⟩ | ⟨hperm, rfl⟩ := execSbinv_cases hr h
  · exact .inr ⟨by simp [hperm], hr.fsr_ne _⟩
  · exact .inl ⟨hperm, rfl⟩

theorem execSbinvs_raisesExactly {td ts : SlotSet} {dir : Dir} {s t : State} (hr : s.ready)
    (h : execSbinvs td ts dir s = .next t) :
    RaisesExactly .notBijective (notBijectiveOf (.sbinvs td ts dir) s) (.sbinvs td ts dir) s t := by
  obtain ⟨i, hscan, rfl⟩ | ⟨hscan, rfl⟩ := execSbinvs_cases hr h
  · refine ⟨fun _ => ?_, ?_⟩
    · obtain ⟨hbad, hlow⟩ := firstBadLane_eq_some hscan
      obtain ⟨v, -, hv⟩ := missing_spec (length_table s (laneSlot ts i)) hbad
      refine ⟨256 * i.val + v.toNat, i, v, fun j hj => ?_, by rwa [laneEntry_eq_entry], rfl⟩
      rw [laneEntry_eq_entry, ← isPerm_iff (length_table _ _)]
      exact hlow j hj
    · rintro n ⟨j, v, hlow, hv, rfl⟩
      obtain ⟨hscan', hmiss⟩ := firstBadLane_of_lowest hlow hv
      obtain rfl : i = j := Option.some.inj (hscan.symm.trans hscan')
      rw [hmiss, lane_shiftLeft_or]
  · refine ⟨fun hfsr => absurd (by simpa using hfsr) (hr.fsr_ne .notBijective), ?_⟩
    rintro n ⟨j, v, hlow, hv, -⟩
    exact absurd (hscan.symm.trans (firstBadLane_of_lowest hlow hv).1) (by simp)

/-- Settles O17: `SBINV` and `SBINVS` are read off their lists of answers, every other command does not list the fault. -/
theorem notBijectiveExactly : Obligations.NotBijectiveExactly := by
  intro i s t hr h
  have hraises : RaisesExactly .notBijective (notBijectiveOf i s) i s t := by
    cases i
    case sbinv sd ss => exact execSbinv_raisesExactly hr h
    case sbinvs td ts dir => exact execSbinvs_raisesExactly hr h
    all_goals exact raisesExactly_of_not_listed hr h (by simp [listedFaults]) (by decide) fun _ => id
  exact hraises.record

end Sys2Proof.Machine
end

section
/-! The round trip of the command word (`30_encoding.md` R66, R67, R71): the fields of a command's word are its operands, and a
word is the format of its fields. -/

namespace Sys2Proof

/-! ## Operands and their fields -/

@[simp] theorem bregBits_breg (f : BitVec 4) : bregBits (breg f) = f := rfl
@[simp] theorem modBits_modIdx (f : BitVec 5) : modBits (modIdx f) = f := rfl
@[simp] theorem slot_slotBits (s : Slot) : slot (slotBits s) = s := rfl
@[simp] theorem slotBits_slot (f : BitVec 7) : slotBits (slot f) = f := rfl
@[simp] theorem setBits_slotSet (f : BitVec 3) : setBits (slotSet f) = f := rfl

@[simp] theorem dirBit_dirBits (d : Dir) : dirBit (dirBits d) = d := by cases d <;> rfl
@[simp] theorem dirBits_dirBit (f : BitVec 1) : dirBits (dirBit f) = f := by decide +revert

/-- A field names a polynomial register exactly when it is that register's field. -/
theorem preg_eq_ok_iff {f : BitVec 4} {r : PReg} : preg f = .ok r ↔ pregBits r = f := by decide +revert

@[simp] theorem preg_pregBits (r : PReg) : preg (pregBits r) = .ok r := preg_eq_ok_iff.mpr rfl

/-- `LANE` carries its direction as a byte. -/
theorem dirImm_eq_ok_iff {f : BitVec 8} {d : Dir} : dirImm f = .ok d ↔ 0#7 ++ dirBits d = f := by
  constructor
  · unfold dirImm
    split_ifs <;> rintro ⟨⟩ <;> exact Eq.symm ‹_›
  · rintro rfl
    cases d <;> rfl

@[simp] theorem dirImm_dirBits (d : Dir) : dirImm (0#7 ++ dirBits d) = .ok d := dirImm_eq_ok_iff.mpr rfl

@[simp] theorem creg_cregBits (cr : CReg) : creg (cregBits cr) = .ok cr := creg_eq_ok_iff.mpr rfl

/-! ## Decoding an encoded command -/

/-- Each command, by the format of its word: the fields it does not use are zero, and its operands are read back. -/
theorem decode_encode {i : Instr} (h : i.distinctResults = true) : decode (encode i) = .ok i := by
  cases i
  case nop => rfl
  case rdcr | fldi | lane | pput | pget | pshu | pshd =>
    rw [encode, decode, opField_formatI]
    refine unused_eq_ok.mpr ⟨?_, ?_⟩ <;>
      simp only [aField_formatI, bField_formatI, zeroI_formatI, immField_formatI, creg_cregBits, dirImm_dirBits,
        preg_pregBits] <;> rfl
  case mrd | ldb | stb | ldbx | stbx | pld | pst =>
    rw [encode, decode, opField_formatM]
    refine unused_eq_ok.mpr ⟨?_, ?_⟩ <;>
      simp only [aField_formatM, bField_formatM, zeroM_formatM, addrField_formatM, preg_pregBits] <;> rfl
  case mwr =>
    rw [encode, decode, opField_formatW]
    exact unused_eq_ok.mpr ⟨zeroM_formatW .., by simp only [addrField_formatW, immFieldW_formatW]⟩
  case sbid | sbchk | sbinv | sbpre | sbpost =>
    rw [encode, decode, opField_formatS]
    refine unused_eq_ok.mpr ⟨?_, ?_⟩ <;>
      simp only [sdField_formatS, ssField_formatS, zeroS_formatS, bfField_formatS, mField_formatS] <;> rfl
  case sbcomp =>
    rw [encode, decode, opField_formatT]
    refine unused_eq_ok.mpr ⟨zeroT_formatT .., ?_⟩
    simp only [sdField_formatT, ssField_formatT, sbField_formatT, slot_slotBits]
  case sbinvs | sbmix =>
    rw [encode, decode, opField_formatX]
    refine unused_eq_ok.mpr ⟨?_, ?_⟩ <;>
      simp only [setdField_formatX, setsField_formatX, dirField_formatX, kField_formatX, zeroX_formatX, mbField_formatX,
        dirBit_dirBits] <;> rfl
  case pdiv pr pq pa pb m =>
    have hne : pr ≠ pq := bne_iff_ne.mp h
    rw [encode, decode, opField_formatR]
    refine unused_eq_ok.mpr ⟨zeroR_formatR .., ?_⟩
    simp only [aField_formatR, bField_formatR, cField_formatR, dField_formatR, mField_formatR, preg_pregBits]
    exact if_neg hne
  all_goals
    rw [encode, decode, opField_formatR]
    refine unused_eq_ok.mpr ⟨?_, ?_⟩ <;>
      simp only [aField_formatR, bField_formatR, cField_formatR, dField_formatR, zeroR_formatR, mField_formatR,
        preg_pregBits] <;> rfl

/-- Settles O1: the fields of a command's word are its operands, by the format of the command. -/
theorem decodeOfEncodeIsIdentity : Obligations.DecodeOfEncodeIsIdentity := fun _ => decode_encode

/-! ## Encoding a decoded word -/

theorem opField_eq_ofNat {c : Word} {n : Nat} (h : (opField c).toNat = n) : opField c = BitVec.ofNat 8 n := by
  rw [← h, BitVec.ofNat_toNat, BitVec.setWidth_eq]

/-- A word is the format of its fields, and a row of the decoder wants each field to be zero or to be the operand it names. The
rows stand in the order of R71 and are grouped here by format; the last group is format R. -/
theorem encode_of_decode {c : Word} {i : Instr} (h : decode c = .ok i) : encode i = c := by
  unfold decode at h
  split at h
  case h_42 => cases h
  all_goals
    have hop := opField_eq_ofNat ‹_›
    simp only [unused_eq_ok, bind_eq_ok, pure_eq_ok, error_ite_eq_ok, append_eq_zero, preg_eq_ok_iff, creg_eq_ok_iff,
      dirImm_eq_ok_iff, Except.ok.injEq] at h
    revert h
    simp only [forall_exists_index, and_imp]
    intros
    subst i
  case h_1 => simpa only [encode, *] using formatN_fields c ‹_›
  case h_2 | h_10 | h_18 | h_21 | h_22 | h_28 | h_29 =>
    simpa only [encode, BitVec.ofNat_eq_ofNat, bregBits_breg, *] using formatI_fields c ‹_›
  case h_4 => simpa only [encode, *] using formatW_fields c ‹_›
  case h_5 | h_6 | h_7 | h_8 | h_9 | h_24 | h_25 =>
    simpa only [encode, BitVec.ofNat_eq_ofNat, bregBits_breg, *] using formatM_fields c ‹_›
  case h_34 | h_35 | h_36 | h_38 | h_39 =>
    simpa only [encode, BitVec.ofNat_eq_ofNat, bregBits_breg, slotBits_slot, modBits_modIdx, *] using formatS_fields c ‹_›
  case h_37 => simpa only [encode, slotBits_slot, *] using formatT_fields c ‹_›
  case h_40 | h_41 =>
    simpa only [encode, BitVec.ofNat_eq_ofNat, setBits_slotSet, dirBits_dirBit, *] using formatX_fields c ‹_›
  all_goals
    simpa only [encode, BitVec.ofNat_eq_ofNat, bregBits_breg, modBits_modIdx, *] using formatR_fields c ‹_›

/-- Settles O2: a decoded word is the word of its command, and the decoder refuses a `PDIV` with one destination. -/
theorem encodeOfDecodeIsIdentity : Obligations.EncodeOfDecodeIsIdentity :=
  fun _ _ h => ⟨encode_of_decode h, distinctResults_of_decode h⟩

/-- Settles O3: each word is the encoding of its command, so the round trip decodes it. -/
theorem workedEncodingsDecode : Obligations.WorkedEncodingsDecode :=
  ⟨decode_encode (i := .nop) rfl, decode_encode (i := .fmul 2 0 1 0) rfl, decode_encode (i := .fldi 0 0x53#8) rfl,
    decode_encode (i := .ldbx 3 0x0200#15 1) rfl, decode_encode (i := .mwr 0x7000#15 0xC3#8) rfl,
    decode_encode (i := .sbpre 1 0 2 1) rfl, decode_encode (i := .sbcomp 3 1 2) rfl,
    decode_encode (i := .sbmix 1 0 .fwd 2 896) rfl⟩

end Sys2Proof
end

section
/-! Commands that complete: from what `exec` answers to "this destination is written and nothing else", and the commands whose
answer is one write (`40_field.md`, `43_system_and_data_movement.md`). -/

namespace Sys2Proof.Machine

/-! ## One written destination -/

theorem completesB_of_exec {i : Instr} {s : State} {bd : BReg} {v : Byte}
    (h : exec i s = .next ((s.writeB bd v).withResponse 0#32)) : CompletesB i s bd v :=
  ⟨_, h, State.readB_writeB_self s bd v, fun _ hr => State.readB_writeB_of_ne s v hr, fun _ => rfl, fun _ => rfl,
    ⟨rfl, rfl, rfl⟩, ⟨rfl, rfl, rfl⟩, rfl⟩

theorem completesP_of_exec {i : Instr} {s : State} {pd : PReg} {q : Poly}
    (h : exec i s = .next ((s.writeP pd q).withResponse 0#32)) : CompletesP i s pd q :=
  ⟨_, h, State.readP_writeP_self s pd q, fun _ hr => State.readP_writeP_of_ne s q hr, fun _ => rfl, fun _ => rfl,
    ⟨rfl, rfl, rfl⟩, ⟨rfl, rfl, rfl⟩, rfl⟩

theorem completesR_of_exec {i : Instr} {s : State} {d : Word} (h : exec i s = .next (s.withResponse d)) : CompletesR i s d :=
  ⟨_, h, fun _ => rfl, fun _ => rfl, fun _ => rfl, ⟨rfl, rfl, rfl⟩, ⟨rfl, rfl, rfl⟩, rfl⟩

/-- One range of memory written: the range is given by its length, its bytes by their offsets. -/
theorem completesM_of_exec {i : Instr} {s : State} {a n : Nat} {bs : List Byte} {v : Nat → Byte} (hn : bs.length = n)
    (hv : ∀ k < n, bs.getD k 0#8 = v k) (h : exec i s = .next ((s.writeM a bs).withResponse 0#32)) :
    CompletesM i s a n v := by
  refine ⟨_, h, fun x => ?_, fun _ => rfl, fun _ => rfl, ⟨rfl, rfl, rfl⟩, ⟨rfl, rfl, rfl⟩, rfl⟩
  rw [State.readM_withResponse, State.readM_writeM, hn]
  split
  next hx => exact hv _ (by omega)
  next => rfl

/-- One byte of memory written. -/
theorem completesM_byte_of_exec {i : Instr} {s : State} {a : Nat} {v : Byte}
    (h : exec i s = .next ((s.writeM a [v]).withResponse 0#32)) : CompletesM i s a 1 (fun _ => v) :=
  completesM_of_exec rfl (fun k hk => by rw [Nat.lt_one_iff.mp hk]; rfl) h

/-- In a ready unit a command behind the gate is its meaning. -/
theorem exec_of_ready {i : Instr} {s : State} {k : Result} (hr : s.ready) (h : exec i s = whenReady s k) : exec i s = k :=
  h.trans (whenReady_of_ready hr k)

/-- In a ready unit a command with a modulus index below 30 is its meaning under that modulus. -/
theorem exec_of_modulus {i : Instr} {s : State} {m : ModIdx} {k : Modulus → Result} {r : Result} (hr : s.ready)
    (hm : m.val < 30) (h : exec i s = whenReady s (withModulus i m s k)) (hk : k (s.modtab[m.val]'hm) = r) : exec i s = r :=
  ((exec_of_ready hr h).trans (withModulus_of_some (modulus?_eq_some hm))).trans hk

/-! ## System and data movement -/

/-- Settles O19: each answers the state with its response. -/
theorem responseCommandsComplete : Obligations.ResponseCommandsComplete := fun _ hr =>
  ⟨completesR_of_exec (exec_of_ready hr rfl), fun _ => completesR_of_exec (exec_of_ready hr rfl),
    fun _ => completesR_of_exec (exec_of_ready hr rfl), fun _ hm => completesR_of_exec (exec_of_modulus hr hm rfl rfl)⟩

/-- Settles O20: `RDCR` has no gate; the fields of `CAP` are evaluated. -/
theorem rdcrReadsEveryControlRegister : Obligations.RdcrReadsEveryControlRegister :=
  ⟨fun _ => ⟨completesR_of_exec rfl, completesR_of_exec rfl, completesR_of_exec rfl, completesR_of_exec rfl,
    completesR_of_exec rfl⟩, by decide⟩

/-- `LDBX` and `STBX` inside memory (R69, R175). -/
theorem not_memSize_le_indexedAddress {s : State} {addr : Addr} {bi : BReg} (h : addr.toNat + (s.readB bi).toNat < 32768) :
    ¬ Config.memSize ≤ indexedAddress s addr bi := Nat.not_le_of_lt h

/-- Settles O21: each writes the byte it loads. -/
theorem loadsComplete : Obligations.LoadsComplete := fun _ _ _ hr =>
  ⟨completesB_of_exec (exec_of_ready hr rfl), fun _ hea =>
    completesB_of_exec ((exec_of_ready hr rfl).trans (if_neg (not_memSize_le_indexedAddress hea)))⟩

/-- Settles O22: each writes one byte of memory. -/
theorem storesComplete : Obligations.StoresComplete := fun _ _ hr =>
  ⟨fun _ => completesM_byte_of_exec (exec_of_ready hr rfl), fun _ => completesM_byte_of_exec (exec_of_ready hr rfl),
    fun _ _ hea => completesM_byte_of_exec
      ((exec_of_ready hr rfl).trans (if_neg (not_memSize_le_indexedAddress hea)))⟩

/-! ## Field commands -/

/-- The low four bits of a byte, as a lane, are the byte modulo 16. -/
theorem val_low_nibble (v : Byte) : (v.extractLsb' 0 4).toFin.val = v.toNat % 16 := by
  simp

/-- A lane number as a byte. -/
theorem toNat_ofNat_lane (i : Lane) : (BitVec.ofNat 8 i.val).toNat = i.val := by
  simp [Nat.mod_eq_of_lt (show i.val < 256 by omega)]

/-- Settles O23: each writes one register; the value `LANE` writes is the remap of O31, whose column is that of the byte. -/
theorem fieldMovesComplete : Obligations.FieldMovesComplete := by
  intro s bd ba bb hr
  have hcol (v : Nat) : ((v % 4 : Nat) : Int) = ((v % 16 : Nat) : Int) % 4 := by omega
  refine ⟨fun imm => completesB_of_exec (exec_of_ready hr rfl), completesB_of_exec (exec_of_ready hr rfl),
    completesB_of_exec (exec_of_ready hr rfl), ⟨_, completesB_of_exec (exec_of_ready hr rfl), ?_⟩,
    ⟨_, completesB_of_exec (exec_of_ready hr rfl), ?_⟩⟩
  · rw [toNat_ofNat_lane, (laneMap_val_int _).1, val_low_nibble, hcol]
  · rw [toNat_ofNat_lane, (laneMap_val_int _).2, val_low_nibble, hcol]

/-- Settles O24: each writes one register, under the modulus its index names. -/
theorem fmulAndFredComplete : Obligations.FmulAndFredComplete := fun _ _ _ _ _ hm hr =>
  ⟨completesB_of_exec (exec_of_modulus hr hm rfl rfl), completesB_of_exec (exec_of_modulus hr hm rfl rfl)⟩

end Sys2Proof.Machine
end

section
/-! Polynomials as lists of bytes (`41_polynomial.md` R105 to R107, R112): every operation by its coefficients, and the commands
that move, read and build polynomials. -/

namespace Sys2Proof.Machine

open Sys2Proof.Claims

/-! ## Coefficients -/

@[simp] theorem coef_nil (j : Nat) : coef [] j = 0#8 := rfl
@[simp] theorem coef_cons_zero (c : Byte) (p : List Byte) : coef (c :: p) 0 = c := rfl
@[simp] theorem coef_cons_succ (c : Byte) (p : List Byte) (j : Nat) : coef (c :: p) (j + 1) = coef p j := rfl

theorem coef_of_length_le {p : List Byte} {j : Nat} (h : p.length ≤ j) : coef p j = 0#8 := by
  simp [coef, h]

theorem coef_of_lt {p : List Byte} {j : Nat} (h : j < p.length) : coef p j = p[j] := by
  simp [coef, h]

theorem coef_append (p q : List Byte) (j : Nat) :
    coef (p ++ q) j = if j < p.length then coef p j else coef q (j - p.length) := by
  split
  next h => exact List.getD_append _ _ _ _ h
  next h => exact List.getD_append_right _ _ _ _ (Nat.le_of_not_lt h)

theorem coef_replicate_zero (n j : Nat) : coef (List.replicate n 0#8) j = 0#8 := by
  by_cases h : j < n <;> simp [coef, h]

theorem coef_set (p : List Byte) (i : Nat) (c : Byte) (j : Nat) :
    coef (p.set i c) j = if j = i ∧ i < p.length then c else coef p j := by
  unfold coef
  rw [List.getD_eq_getElem?_getD, List.getD_eq_getElem?_getD, List.getElem?_set]
  by_cases hji : i = j
  · subst hji
    by_cases hi : i < p.length <;> simp [hi]
  · simp [hji, Ne.symm hji]

theorem coef_map {f : Byte → Byte} (hf : f 0#8 = 0#8) (p : List Byte) (j : Nat) : coef (p.map f) j = f (coef p j) := by
  by_cases h : j < p.length <;> simp [coef, h, hf]

theorem coef_drop (p : List Byte) (n j : Nat) : coef (p.drop n) j = coef p (j + n) := by
  simp [coef, Nat.add_comm]

/-- The bytes read from memory, by address. -/
theorem coef_readBytes (m : Memory) (a n j : Nat) : coef (m.readBytes a n) j = if j < n then m.read (a + j) else 0#8 := by
  split
  next h => exact Memory.getD_readBytes m h _
  next h => exact coef_of_length_le (by rw [Memory.length_readBytes]; omega)

/-! ## Canonical sequences -/

@[simp] theorem canonical_nil : canonical [] = true := rfl

/-- A non-empty sequence is canonical when its highest coefficient is not zero (R105). -/
theorem canonical_iff {p : List Byte} (h : p ≠ []) : canonical p = true ↔ coef p (p.length - 1) ≠ 0#8 := by
  have hlen : p.length - 1 < p.length := Nat.sub_one_lt (mt List.length_eq_zero_iff.mp h)
  simp [canonical, List.getLast?_eq_getElem?, coef, hlen]

theorem canonical_cons_of_ne_nil (c : Byte) {p : List Byte} (h : p ≠ []) : canonical (c :: p) = canonical p := by
  obtain ⟨d, q, rfl⟩ := List.exists_cons_of_ne_nil h
  rfl

/-- A canonical sequence is no longer than its coefficients say. -/
theorem length_le_of_canonical {p : List Byte} (hp : canonical p = true) {n : Nat} (h : ∀ j, n ≤ j → coef p j = 0#8) :
    p.length ≤ n := by
  by_contra hlt
  have hne : p ≠ [] := fun e => hlt (by simp [e])
  exact (canonical_iff hne).mp hp (h _ (by omega))

/-- Two canonical sequences with the same coefficients are equal. -/
theorem canonical_ext {p q : List Byte} (hp : canonical p = true) (hq : canonical q = true) (h : ∀ j, coef p j = coef q j) :
    p = q := by
  have hpq : p.length ≤ q.length := length_le_of_canonical hp fun j hj => by rw [h, coef_of_length_le hj]
  have hqp : q.length ≤ p.length := length_le_of_canonical hq fun j hj => by rw [← h, coef_of_length_le hj]
  refine List.ext_getElem (Nat.le_antisymm hpq hqp) fun j hj hj' => ?_
  rw [← coef_of_lt hj, ← coef_of_lt hj', h]

/-! ## Trimming -/

theorem trim_cons (c : Byte) (s : List Byte) : trim (c :: s) = if trim s = [] ∧ c = 0#8 then [] else c :: trim s := by
  rw [trim]
  cases trim s <;> simp

theorem coef_trim (s : List Byte) (j : Nat) : coef (trim s) j = coef s j := by
  induction s generalizing j with
  | nil => rfl
  | cons c s ih =>
    rw [trim_cons]
    split
    next h =>
      obtain ⟨hs, rfl⟩ := h
      cases j with
      | zero => rfl
      | succ j => rw [coef_cons_succ, ← ih, hs, coef_nil, coef_nil]
    next =>
      cases j with
      | zero => rfl
      | succ j => exact ih j

theorem canonical_trim (s : List Byte) : canonical (trim s) = true := by
  induction s with
  | nil => rfl
  | cons c s ih =>
    rw [trim_cons]
    split
    next => rfl
    next h =>
      by_cases hs : trim s = []
      · have hc : c ≠ 0#8 := fun hc => h ⟨hs, hc⟩
        simp [hs, canonical, hc]
      · rw [canonical_cons_of_ne_nil c hs, ih]

theorem length_trim_le (s : List Byte) : (trim s).length ≤ s.length :=
  length_le_of_canonical (canonical_trim s) fun j hj => by rw [coef_trim, coef_of_length_le hj]

/-! ## The operations, by coefficients -/

theorem coef_xorSeq (p q : List Byte) (j : Nat) : coef (xorSeq p q) j = coef p j ^^^ coef q j := by
  induction p, q using xorSeq.induct generalizing j with
  | case1 q => simp [xorSeq]
  | case2 p hp => simp [xorSeq]
  | case3 a p b q ih =>
    cases j with
    | zero => rfl
    | succ j => exact ih j

theorem coef_padd (p q : Poly) (j : Nat) : coef (padd p q) j = coef p j ^^^ coef q j := by
  rw [padd, coef_trim, coef_xorSeq]

theorem canonical_padd (p q : Poly) : canonical (padd p q) = true := canonical_trim _

theorem length_padd_le (p q : Poly) : (padd p q).length ≤ max p.length q.length :=
  length_le_of_canonical (canonical_padd p q) fun j hj => by
    rw [coef_padd, coef_of_length_le (by omega), coef_of_length_le (by omega), BitVec.xor_self]

theorem coef_pshu (p : Poly) (n j : Nat) : coef (pshu p n) j = if j < n then 0#8 else coef p (j - n) := by
  unfold pshu
  split
  next h => simp [h]
  next => rw [coef_append, List.length_replicate, coef_replicate_zero]

theorem length_pshu {p : Poly} (h : p ≠ []) (n : Nat) : (pshu p n).length = p.length + n := by
  rw [pshu, if_neg h, List.length_append, List.length_replicate, Nat.add_comm]

theorem coef_pshd (p : Poly) (n j : Nat) : coef (pshd p n) j = coef p (j + n) := coef_drop p n j

theorem length_pshd (p : Poly) (n : Nat) : (pshd p n).length = p.length - n := List.length_drop

/-- Moving up keeps the leading coefficient. -/
theorem canonical_pshu {p : Poly} (hp : canonical p = true) (n : Nat) : canonical (pshu p n) = true := by
  by_cases h : p = []
  · simp [pshu, h]
  · have hlen : (pshu p n).length - 1 - n = p.length - 1 := by rw [length_pshu h]; omega
    have hpos : 0 < p.length := List.length_pos_iff.mpr h
    have hne : pshu p n ≠ [] := fun e => by have := length_pshu h n; rw [e] at this; simp at this; omega
    rw [canonical_iff hne, coef_pshu, if_neg (by rw [length_pshu h]; omega), hlen]
    exact (canonical_iff h).mp hp

/-- Dropping low coefficients keeps the leading one, where one is left. -/
theorem canonical_pshd {p : Poly} (hp : canonical p = true) (n : Nat) : canonical (pshd p n) = true := by
  by_cases h : pshd p n = []
  · simp [h]
  · have hpos : 0 < (pshd p n).length := List.length_pos_iff.mpr h
    rw [length_pshd] at hpos
    have hne : p ≠ [] := fun e => by simp [e] at hpos
    rw [canonical_iff h, coef_pshd, length_pshd, show p.length - n - 1 + n = p.length - 1 by omega]
    exact (canonical_iff hne).mp hp

/-- What `PPUT` writes: one coefficient is replaced (R115). -/
theorem coef_put (p : Poly) (n : Nat) (v : Byte) (j : Nat) :
    coef (trim ((extendTo p (n + 1)).set n v)) j = if j = n then v else coef p j := by
  have hlen : n < (extendTo p (n + 1)).length := by simp [extendTo]; omega
  have hext : coef (extendTo p (n + 1)) j = coef p j := by
    rw [extendTo, coef_append, coef_replicate_zero]
    split
    next => rfl
    next h => rw [coef_of_length_le (Nat.le_of_not_lt h)]
  simp only [coef_trim, coef_set, hlen, and_true, hext]

theorem length_put_le (p : Poly) (n : Nat) (v : Byte) :
    (trim ((extendTo p (n + 1)).set n v)).length ≤ max p.length (n + 1) :=
  length_le_of_canonical (canonical_trim _) fun j hj => by
    rw [coef_put, if_neg (by omega), coef_of_length_le (by omega)]

@[simp] theorem length_image (p : Poly) (n : Nat) : (image p n).length = n := by simp [image]

theorem coef_image (p : Poly) {n j : Nat} (h : j < n) : coef (image p n) j = coef p j := by
  simp [coef_of_lt, image, h]

/-! ## The ordering -/

/-- At the highest place where `p` and `q` differ below the length of `p`, `p` is smaller. -/
def coefBelow (p q : Poly) : Prop :=
  ∃ j < p.length, (coef p j).toNat < (coef q j).toNat ∧ ∀ k, j < k → k < p.length → coef p k = coef q k

theorem polyBelow_iff (p q : Poly) :
    polyBelow p q ↔ p.length < q.length ∨ (p.length = q.length ∧ coefBelow p q) := Iff.rfl

theorem coef_concat_last (p : Poly) (a : Byte) : coef (p ++ [a]) p.length = a := by simp [coef_append]

theorem coef_concat_of_lt {p : Poly} {j : Nat} (h : j < p.length) (a : Byte) : coef (p ++ [a]) j = coef p j := by
  rw [coef_append, if_pos h]

/-- The highest coefficients decide first. -/
theorem coefBelow_concat {p q : Poly} (h : p.length = q.length) (a b : Byte) :
    coefBelow (p ++ [a]) (q ++ [b]) ↔ a.toNat < b.toNat ∨ (a = b ∧ coefBelow p q) := by
  have hq : coef (q ++ [b]) p.length = b := by rw [h, coef_concat_last]
  constructor
  · rintro ⟨j, hj, hlt, habove⟩
    rw [List.length_append, List.length_singleton] at hj
    rcases Nat.lt_succ_iff_lt_or_eq.mp hj with hj | rfl
    · refine .inr ⟨?_, j, hj, ?_, fun k hjk hk => ?_⟩
      · have := habove p.length hj (by simp)
        rwa [coef_concat_last, hq] at this
      · rwa [coef_concat_of_lt hj, coef_concat_of_lt (h ▸ hj)] at hlt
      · have := habove k hjk (by simp; omega)
        rwa [coef_concat_of_lt hk, coef_concat_of_lt (h ▸ hk)] at this
    · rw [coef_concat_last, hq] at hlt
      exact .inl hlt
  · rintro (hlt | ⟨rfl, j, hj, hlt, habove⟩)
    · refine ⟨p.length, by simp, by rwa [coef_concat_last, hq], fun k hk hk' => ?_⟩
      simp at hk'
      omega
    · refine ⟨j, by simp; omega, by rwa [coef_concat_of_lt hj, coef_concat_of_lt (h ▸ hj)], fun k hjk hk => ?_⟩
      rw [List.length_append, List.length_singleton] at hk
      rcases Nat.lt_succ_iff_lt_or_eq.mp hk with hk | rfl
      · rw [coef_concat_of_lt hk, coef_concat_of_lt (h ▸ hk), habove k hjk hk]
      · rw [coef_concat_last, hq]

/-- The comparison of two sequences of one length, from the highest coefficient down (R112). -/
theorem cmpHighToLow_reverse {p q : Poly} (h : p.length = q.length) :
    (cmpHighToLow p.reverse q.reverse = .eq ↔ p = q) ∧
      (cmpHighToLow p.reverse q.reverse = .lt ↔ coefBelow p q) ∧
      (cmpHighToLow p.reverse q.reverse = .gt ↔ coefBelow q p) := by
  induction p using List.reverseRecOn generalizing q with
  | nil =>
    obtain rfl : q = [] := List.length_eq_zero_iff.mp h.symm
    simp [cmpHighToLow, coefBelow]
  | append_singleton p a ih =>
    obtain ⟨q, b, rfl⟩ : ∃ q' b, q = q' ++ [b] := by
      have hne : q ≠ [] := fun e => by simp [e] at h
      exact ⟨_, _, (List.dropLast_append_getLast hne).symm⟩
    have hlen : p.length = q.length := by simpa using h
    obtain ⟨heq, hlt, hgt⟩ := ih hlen
    rw [List.reverse_append, List.reverse_append, List.reverse_singleton, List.reverse_singleton, List.singleton_append,
      List.singleton_append, cmpHighToLow, coefBelow_concat hlen, coefBelow_concat hlen.symm]
    rcases Nat.lt_trichotomy a.toNat b.toNat with hab | hab | hab
    · have hne : a ≠ b := fun e => by simp [e] at hab
      simp [hab, hne, hne.symm, Nat.not_lt.mpr hab.le]
    · obtain rfl := BitVec.eq_of_toNat_eq hab
      simp [heq, hlt, hgt]
    · have hne : a ≠ b := fun e => by simp [e] at hab
      simp [hab, hne, hne.symm, Nat.not_lt.mpr hab.le]

/-- `pcmp` against the ordering of R112. -/
theorem pcmp_spec (p q : Poly) :
    (pcmp p q = .eq ↔ p = q) ∧ (pcmp p q = .lt ↔ polyBelow p q) ∧ (pcmp p q = .gt ↔ polyBelow q p) := by
  rw [pcmp, polyBelow_iff, polyBelow_iff]
  rcases Nat.lt_trichotomy p.length q.length with h | h | h
  · have hne : p ≠ q := fun e => by simp [e] at h
    simp [h, h.ne', hne, Nat.not_lt.mpr h.le]
  · simpa [h] using cmpHighToLow_reverse h
  · have hne : p ≠ q := fun e => by simp [e] at h
    simp [h, h.ne', hne, Nat.not_lt.mpr h.le]

theorem orderCode_injective : Function.Injective orderCode := by
  intro x y h
  cases x <;> cases y <;> revert h <;> decide

/-! ## Commands that move, read and build polynomials -/

/-- Settles O33: each writes one register, whose length and coefficients are those of the operation. -/
theorem polynomialMovesComplete : Obligations.PolynomialMovesComplete := by
  intro s pd pa n hr
  refine ⟨completesP_of_exec (exec_of_ready hr rfl), completesP_of_exec (exec_of_ready hr rfl), fun hzero => ?_,
    fun hne hfit => ?_, ⟨_, completesP_of_exec (exec_of_ready hr rfl), length_pshd _ _, coef_pshd _ _⟩⟩
  · have hw := completesP_of_exec ((exec_of_ready (i := .pshu pd pa n) hr rfl).trans (if_neg (by simp [hzero])))
    rwa [hzero] at hw
  · refine ⟨_, completesP_of_exec ((exec_of_ready hr rfl).trans (if_neg ?_)), length_pshu hne _, fun j hj => ?_,
      fun j => ?_⟩
    · exact fun h => absurd h.2 (Nat.not_lt.mpr hfit)
    · rw [coef_pshu, if_pos hj]
    · rw [coef_pshu, if_neg (by omega), Nat.add_sub_cancel]

/-- Settles O34: each writes one byte register; the code of `PCMP` is pinned by `pcmp_spec`. -/
theorem polynomialReadsComplete : Obligations.PolynomialReadsComplete := by
  intro s bd pa pb hr
  refine ⟨fun idx => ?_, completesB_of_exec (exec_of_ready hr rfl), ?_⟩
  · have hcoef : (if h : idx.toNat < (s.readP pa).length then (s.readP pa)[idx.toNat] else 0#8) =
        coef (s.readP pa) idx.toNat := by
      split
      next h => rw [coef_of_lt h]
      next h => rw [coef_of_length_le (Nat.le_of_not_lt h)]
    rw [hcoef]
    exact completesB_of_exec (exec_of_ready hr rfl)
  · obtain ⟨heq, hlt, hgt⟩ := pcmp_spec (s.readP pa) (s.readP pb)
    refine ⟨_, completesB_of_exec (exec_of_ready hr rfl), ?_, ?_, ?_⟩
    · rw [← heq]
      exact orderCode_injective.eq_iff (b := .eq)
    · rw [← hgt]
      exact orderCode_injective.eq_iff (b := .gt)
    · rw [← hlt]
      exact orderCode_injective.eq_iff (b := .lt)

/-- A byte count whose range lies in memory (R52). -/
theorem inRange_of_le {a n : Nat} (h : a + n ≤ 32768) : inRange a n ≠ false := fun e => by
  have := inRange_eq_false.mp e
  omega

/-- Settles O35: each writes a trimmed sequence, whose coefficients are those before trimming. -/
theorem polynomialBuildersComplete : Obligations.PolynomialBuildersComplete := by
  intro s pd hr
  refine ⟨fun pa pb => ⟨_, completesP_of_exec (exec_of_ready hr rfl), canonical_padd _ _, coef_padd _ _⟩,
    fun idx bs hidx => ?_, fun bn addr hn hin => ?_⟩
  · exact ⟨_, completesP_of_exec ((exec_of_ready hr rfl).trans (if_neg (Nat.not_le.mpr hidx))), canonical_trim _,
      coef_put _ _ _⟩
  · refine ⟨_, completesP_of_exec ((exec_of_ready hr rfl).trans
      ((if_neg (inRange_of_le hin)).trans (if_neg (Nat.not_lt.mpr hn)))), canonical_trim _, fun j => ?_⟩
    rw [coef_trim, coef_readBytes]
    rfl

/-- Settles O36: the image holds the low coefficients, then zeros. -/
theorem pstStoresTheImage : Obligations.PstStoresTheImage := fun _ _ _ _ hr hin =>
  completesM_of_exec (length_image _ _) (fun _ hk => coef_image _ hk)
    ((exec_of_ready hr rfl).trans (if_neg (inRange_of_le hin)))

end Sys2Proof.Machine
end

section
/-! The field (`40_field.md` R85 to R91, R102): bit vectors as polynomials over GF(2), the irreducibility test of R86 as
irreducibility of that polynomial, and the bytes under an irreducible modulus as the elements of a field. -/

namespace Sys2Proof.Machine

open Polynomial Sys2Proof.Claims

/-! ## Bit vectors as polynomials over GF(2) -/

/-- A bit as an element of GF(2). -/
def bitVal (b : Bool) : ZMod 2 := if b then 1 else 0

@[simp] theorem bitVal_false : bitVal false = 0 := rfl
@[simp] theorem bitVal_true : bitVal true = 1 := rfl

theorem bitVal_xor (a b : Bool) : bitVal (a ^^ b) = bitVal a + bitVal b := by
  cases a <;> cases b <;> rfl

theorem bitVal_injective : Function.Injective bitVal := by decide

theorem bitVal_surjective (x : ZMod 2) : ∃ b, bitVal b = x := by decide +revert

/-- The polynomial over GF(2) that a bit vector stands for: bit `i` is the coefficient of `X ^ i` (R85). -/
noncomputable def bitPoly {n : Nat} (v : BitVec n) : (ZMod 2)[X] :=
  ∑ i ∈ Finset.range n, monomial i (bitVal (v.getLsbD i))

@[simp] theorem coeff_bitPoly {n : Nat} (v : BitVec n) (k : Nat) : (bitPoly v).coeff k = bitVal (v.getLsbD k) := by
  rw [bitPoly, finsetSum_coeff]
  simp only [coeff_monomial, Finset.sum_ite_eq', Finset.mem_range]
  split
  next => rfl
  next h => rw [BitVec.getLsbD_of_ge v k (Nat.le_of_not_lt h), bitVal_false]

/-- Bit vectors of any two widths stand for one polynomial exactly when their bits are the same. -/
theorem bitPoly_eq_iff {n m : Nat} {v : BitVec n} {w : BitVec m} :
    bitPoly v = bitPoly w ↔ ∀ k, v.getLsbD k = w.getLsbD k := by
  rw [Polynomial.ext_iff]
  exact forall_congr' fun k => by rw [coeff_bitPoly, coeff_bitPoly, bitVal_injective.eq_iff]

theorem bitPoly_injective {n : Nat} : Function.Injective (bitPoly (n := n)) := fun _ _ h =>
  BitVec.eq_of_getLsbD_eq fun k _ => bitPoly_eq_iff.mp h k

@[simp] theorem bitPoly_zero (n : Nat) : bitPoly (0#n) = 0 := by
  ext k
  simp

@[simp] theorem bitPoly_one : bitPoly (1#8) = 1 := by
  ext k
  rw [coeff_bitPoly, coeff_one, BitVec.getLsbD_one]
  by_cases hk : k = 0 <;> simp [hk]

theorem bitPoly_xor {n : Nat} (v w : BitVec n) : bitPoly (v ^^^ w) = bitPoly v + bitPoly w := by
  ext k
  rw [coeff_add, coeff_bitPoly, coeff_bitPoly, coeff_bitPoly, BitVec.getLsbD_xor, bitVal_xor]

theorem bitPoly_setWidth {n m : Nat} {v : BitVec n} (h : ∀ k, m ≤ k → v.getLsbD k = false) :
    bitPoly (v.setWidth m) = bitPoly v := by
  rw [bitPoly_eq_iff]
  intro k
  rw [BitVec.getLsbD_setWidth]
  by_cases hk : k < m
  · simp [hk]
  · rw [h k (Nat.le_of_not_lt hk), Bool.and_false]

theorem bitPoly_setWidth_of_le {n m : Nat} (h : n ≤ m) (v : BitVec n) : bitPoly (v.setWidth m) = bitPoly v :=
  bitPoly_setWidth fun k hk => BitVec.getLsbD_of_ge v k (h.trans hk)

/-- Moving up by `i` places, where no bit is lost, is multiplying by `X ^ i`. -/
theorem bitPoly_shiftLeft {n : Nat} {v : BitVec n} {i : Nat} (h : ∀ k, n ≤ k + i → v.getLsbD k = false) :
    bitPoly (v <<< i) = bitPoly v * X ^ i := by
  ext k
  rw [coeff_bitPoly, coeff_mul_X_pow', coeff_bitPoly, BitVec.getLsbD_shiftLeft]
  by_cases hik : i ≤ k
  · by_cases hkn : k < n
    · simp [hik, hkn, Nat.not_lt.mpr hik]
    · simp [hik, h (k - i) (by omega)]
  · simp [hik, Nat.lt_of_not_le hik]

/-- A polynomial with no bit from `n` on has degree below `n`. -/
theorem degree_bitPoly_lt {m : Nat} {v : BitVec m} {n : Nat} (h : ∀ k, n ≤ k → v.getLsbD k = false) :
    (bitPoly v).degree < n :=
  (degree_lt_iff_coeff_zero _ _).mpr fun k hk => by rw [coeff_bitPoly, h k hk, bitVal_false]

/-- Every polynomial of degree below `n` is that of a bit vector. -/
theorem exists_bitPoly_eq {n : Nat} {f : (ZMod 2)[X]} (h : f.degree < n) : ∃ v : BitVec n, bitPoly v = f := by
  choose b hb using fun k => bitVal_surjective (f.coeff k)
  refine ⟨BitVec.ofFnLE fun i => b i, ?_⟩
  ext k
  rw [coeff_bitPoly, BitVec.getLsbD_ofFnLE]
  split
  next => exact hb k
  next hk => rw [bitVal_false, (degree_lt_iff_coeff_zero _ _).mp h k (Nat.le_of_not_lt hk)]

/-! ## The carry-less product -/

/-- The XOR of the copies `x <<< i` over the listed bits `i` that `q` has. -/
def xorCopies {n k : Nat} (x : BitVec n) (q : BitVec k) (l : List Nat) : BitVec n :=
  l.foldl (fun acc i => if q.getLsbD i then acc ^^^ (x <<< i) else acc) 0#n

theorem clmul8_eq_xorCopies (a b : Byte) : clmul8 a b = xorCopies (a.setWidth 15) b (List.range 8) := rfl

theorem clmulModulus_eq_xorCopies (q : Byte) (P : Modulus) :
    clmulModulus q P = xorCopies (P.setWidth 16) q (List.range 8) := rfl

theorem xorCopies_range_succ {n k : Nat} (x : BitVec n) (q : BitVec k) (m : Nat) :
    xorCopies x q (List.range (m + 1)) =
      if q.getLsbD m then xorCopies x q (List.range m) ^^^ (x <<< m) else xorCopies x q (List.range m) := by
  rw [xorCopies, List.range_succ, List.foldl_append]
  rfl

/-- The XOR of the shifted copies, where no bit is lost, is the product of the two polynomials. -/
theorem bitPoly_xorCopies {n k : Nat} {x : BitVec n} (q : BitVec k) (hx : ∀ j, n < j + k → x.getLsbD j = false) :
    bitPoly (xorCopies x q (List.range k)) = bitPoly x * bitPoly q := by
  have hpart : ∀ m ≤ k, bitPoly (xorCopies x q (List.range m)) =
      bitPoly x * ∑ i ∈ Finset.range m, monomial i (bitVal (q.getLsbD i)) := by
    intro m hm
    induction m with
    | zero => simp [xorCopies]
    | succ m ih =>
      rw [Finset.sum_range_succ, mul_add, ← ih (by omega), xorCopies_range_succ]
      cases hq : q.getLsbD m with
      | false => simp
      | true =>
        have hshift : bitPoly (x <<< m) = bitPoly x * X ^ m := bitPoly_shiftLeft fun j hj => hx j (by omega)
        simp [bitPoly_xor, hshift, monomial_one_right_eq_X_pow]
  exact hpart k le_rfl

theorem bitPoly_clmul8 (a b : Byte) : bitPoly (clmul8 a b) = bitPoly a * bitPoly b := by
  have ha : bitPoly (a.setWidth 15) = bitPoly a := bitPoly_setWidth_of_le (by decide) a
  rw [clmul8_eq_xorCopies, bitPoly_xorCopies, ha]
  intro j hj
  simp [BitVec.getLsbD_of_ge a j (by omega)]

theorem bitPoly_clmulModulus (q : Byte) (P : Modulus) : bitPoly (clmulModulus q P) = bitPoly P * bitPoly q := by
  have hP : bitPoly (P.setWidth 16) = bitPoly P := bitPoly_setWidth_of_le (by decide) P
  rw [clmulModulus_eq_xorCopies, bitPoly_xorCopies, hP]
  intro j hj
  simp [BitVec.getLsbD_of_ge P j (by omega)]

theorem clmul8_comm (a b : Byte) : clmul8 a b = clmul8 b a :=
  bitPoly_injective (by rw [bitPoly_clmul8, bitPoly_clmul8, mul_comm])

theorem clmul8_zero (a : Byte) : clmul8 a 0#8 = 0#15 :=
  bitPoly_injective (by rw [bitPoly_clmul8, bitPoly_zero, mul_zero, bitPoly_zero])

theorem clmul8_one (a : Byte) : clmul8 a 1#8 = a.setWidth 15 :=
  bitPoly_injective (by rw [bitPoly_clmul8, bitPoly_one, mul_one, bitPoly_setWidth_of_le (by decide)])

/-- Bit `k` of the copy of `a` at place `i` (R87). -/
theorem getLsbD_copy (a : Byte) {i : Nat} (hi : i < 8) (k : Nat) :
    (a.setWidth 15 <<< i).getLsbD k = (decide (i ≤ k) && a.getLsbD (k - i)) := by
  rw [BitVec.getLsbD_shiftLeft, BitVec.getLsbD_setWidth]
  by_cases hik : i ≤ k
  · by_cases hk : k - i < 8
    · simp [hik, Nat.not_lt.mpr hik, show k < 15 by omega]
      omega
    · simp [BitVec.getLsbD_of_ge a (k - i) (Nat.le_of_not_lt hk)]
  · simp [hik, Nat.lt_of_not_le hik]

/-- Bit `k` of the XOR of copies is the XOR of their bits. -/
theorem getLsbD_clmul8_fold (a b : Byte) (k : Nat) {l : List Nat} (hl : ∀ i ∈ l, i < 8) (acc : BitVec 15) :
    (l.foldl (fun acc i => if b.getLsbD i then acc ^^^ (a.setWidth 15 <<< i) else acc) acc).getLsbD k =
      l.foldl (fun acc i => xor acc (b.getLsbD i && (decide (i ≤ k) && a.getLsbD (k - i)))) (acc.getLsbD k) := by
  induction l generalizing acc with
  | nil => rfl
  | cons i l ih =>
    rw [List.forall_mem_cons] at hl
    rw [List.foldl_cons, List.foldl_cons, ih hl.2]
    cases b.getLsbD i with
    | false => simp
    | true => simp only [if_true, BitVec.getLsbD_xor, getLsbD_copy a hl.1, Bool.true_and]

/-- Settles O27: the loop read step by step, and the product of polynomials for the rest. -/
theorem clmulIsThePolynomialProduct : Obligations.ClmulIsThePolynomialProduct := by
  intro a b
  refine ⟨?_, fun k => ?_, clmul8_comm a b, clmul8_zero a, clmul8_one a⟩
  · unfold clmul8
    congr 1
    funext acc i
    cases b.getLsbD i <;> simp
  · rw [clmul8, getLsbD_clmul8_fold a b k (fun i hi => List.mem_range.mp hi), BitVec.getLsbD_zero]

/-! ## Bytes modulo a polynomial with leading bit 8 -/

/-- The residue class of a byte modulo the modulus. -/
noncomputable def residue (P : Modulus) (a : Byte) : AdjoinRoot (bitPoly P) := AdjoinRoot.mk _ (bitPoly a)

theorem degree_byte_lt (a : Byte) : (bitPoly a).degree < 8 :=
  degree_bitPoly_lt fun k hk => BitVec.getLsbD_of_ge a k hk

/-- The polynomial of a modulus with bit 8 is monic of degree 8. -/
theorem bitPoly_modulus {P : Modulus} (hP : P.getLsbD 8 = true) : (bitPoly P).Monic ∧ (bitPoly P).natDegree = 8 := by
  have hle : (bitPoly P).natDegree ≤ 8 :=
    natDegree_le_iff_coeff_eq_zero.mpr fun k hk => by
      rw [coeff_bitPoly, BitVec.getLsbD_of_ge P k (by omega), bitVal_false]
  have hone : (bitPoly P).coeff 8 = 1 := by rw [coeff_bitPoly, hP, bitVal_true]
  exact ⟨monic_of_natDegree_le_of_coeff_eq_one 8 hle hone,
    natDegree_eq_of_le_of_coeff_ne_zero hle (by rw [hone]; exact one_ne_zero)⟩

theorem degree_modulus {P : Modulus} (hP : P.getLsbD 8 = true) : (bitPoly P).degree = 8 := by
  obtain ⟨hmonic, hdeg⟩ := bitPoly_modulus hP
  rw [degree_eq_natDegree hmonic.ne_zero, hdeg]
  rfl

theorem residue_xor (P : Modulus) (a b : Byte) : residue P (a ^^^ b) = residue P a + residue P b := by
  rw [residue, bitPoly_xor, map_add]
  rfl

theorem residue_one (P : Modulus) : residue P 1#8 = 1 := by
  rw [residue, bitPoly_one, map_one]

/-- Reduction keeps the residue class (R88). -/
theorem residue_gfred {P : Modulus} (hP : P.getLsbD 8 = true) (v : BitVec 16) :
    residue P (gfred v P) = AdjoinRoot.mk _ (bitPoly v) := by
  obtain ⟨q, hq⟩ := exists_eq_clmulModulus_xor_gfred hP v
  have hv : bitPoly v = bitPoly P * bitPoly q + bitPoly (gfred v P) := by
    conv_lhs => rw [hq]
    rw [bitPoly_xor, bitPoly_clmulModulus, bitPoly_setWidth_of_le (by decide)]
  rw [hv, map_add, map_mul, AdjoinRoot.mk_self, zero_mul, zero_add]
  rfl

theorem residue_fmul {P : Modulus} (hP : P.getLsbD 8 = true) (a b : Byte) :
    residue P (fmul a b P) = residue P a * residue P b := by
  rw [fmul, residue_gfred hP, bitPoly_setWidth_of_le (by decide), bitPoly_clmul8, map_mul]
  rfl

/-- Two bytes of one residue class differ by a multiple of the modulus of degree below 8. -/
theorem residue_injective {P : Modulus} (hP : P.getLsbD 8 = true) : Function.Injective (residue P) := by
  intro a b h
  obtain ⟨hmonic, -⟩ := bitPoly_modulus hP
  have hdeg : (bitPoly a - bitPoly b).degree < (bitPoly P).degree := by
    rw [degree_modulus hP]
    exact (degree_sub_le _ _).trans_lt (max_lt (degree_byte_lt a) (degree_byte_lt b))
  exact bitPoly_injective (sub_eq_zero.mp (by_contra fun hne =>
    hmonic.not_dvd_of_degree_lt hne hdeg (AdjoinRoot.mk_eq_mk.mp h)))

/-- Every residue class is that of the remainder, which a byte stands for. -/
theorem residue_surjective {P : Modulus} (hP : P.getLsbD 8 = true) : Function.Surjective (residue P) := by
  intro x
  obtain ⟨f, rfl⟩ := AdjoinRoot.mk_surjective x
  obtain ⟨hmonic, -⟩ := bitPoly_modulus hP
  obtain ⟨a, ha⟩ := exists_bitPoly_eq (n := 8) (f := f %ₘ bitPoly P) (by
    have := degree_modByMonic_lt f hmonic
    rwa [degree_modulus hP] at this)
  refine ⟨a, ?_⟩
  rw [residue, ha, AdjoinRoot.mk_eq_mk, modByMonic_eq_sub_mul_div]
  exact ⟨-(f /ₘ bitPoly P), by ring⟩

/-- A 16-bit value is its high byte times `X ^ 8` plus its low byte. -/
theorem bitPoly_append (h l : Byte) : bitPoly (h ++ l) = bitPoly h * X ^ 8 + bitPoly l := by
  ext k
  rw [coeff_add, coeff_mul_X_pow', coeff_bitPoly, coeff_bitPoly, BitVec.getLsbD_append]
  by_cases hk : k < 8
  · simp [hk, Nat.not_le.mpr hk]
  · simp [hk, Nat.le_of_not_lt hk]

/-- Settles O29: `X ^ 8` is the low byte of the modulus modulo the modulus. -/
theorem reductionIsMultiplyAndAdd : Obligations.ReductionIsMultiplyAndAdd := by
  intro P h l hP
  have hP8 : (AdjoinRoot.mk (bitPoly P)) (X ^ 8) = residue P (P.setWidth 8) := by
    have h256 : bitPoly (0x0100#16) = X ^ 8 := by
      ext k
      rw [show 0x0100#16 = BitVec.twoPow 16 8 from rfl, coeff_bitPoly, BitVec.getLsbD_twoPow, coeff_X_pow]
      by_cases hk : k = 8 <;> simp [hk, eq_comm]
    rw [← gfred_z_pow_eight hP, residue_gfred hP, h256]
  apply residue_injective hP
  rw [residue_gfred hP, residue_xor, residue_fmul hP, bitPoly_append, map_add, map_mul, hP8]
  rfl

end Sys2Proof.Machine
end

section
/-! The irreducibility test of R86, the field of the bytes under an irreducible modulus, and the field commands that divide
(`40_field.md` R86, R90, R91, R97, R98, R102). -/

namespace Sys2Proof.Machine

open Polynomial Sys2Proof.Claims

/-! ## Trial division -/

/-- The first `m` passes of trial division by `d` of degree `k`. -/
def trialPasses (P d : Modulus) (k m : Nat) : Modulus :=
  (List.range m).foldl (fun v j => if v.getLsbD (8 - j) then v ^^^ (d <<< (8 - j - k)) else v) P

theorem trialRem_eq_trialPasses (P d : Modulus) (k : Nat) : trialRem P d k = trialPasses P d k (9 - k) := rfl

theorem trialPasses_succ (P d : Modulus) (k m : Nat) :
    trialPasses P d k (m + 1) =
      if (trialPasses P d k m).getLsbD (8 - m) then trialPasses P d k m ^^^ (d <<< (8 - m - k)) else trialPasses P d k m := by
  rw [trialPasses, List.range_succ, List.foldl_append]
  rfl

/-- The passes keep divisibility by `d` and clear the bits from `9 - m` on. -/
theorem trialPasses_spec {P d : Modulus} {k m : Nat} (hm : m ≤ 9 - k) (hlead : d.getLsbD k = true)
    (hdeg : ∀ j, k < j → d.getLsbD j = false) (hdvd : bitPoly d ∣ bitPoly P) :
    bitPoly d ∣ bitPoly (trialPasses P d k m) ∧ ∀ j, 9 - m ≤ j → (trialPasses P d k m).getLsbD j = false := by
  induction m with
  | zero => exact ⟨hdvd, fun j hj => BitVec.getLsbD_of_ge _ j hj⟩
  | succ m ih =>
    obtain ⟨hd, hclear⟩ := ih (by omega)
    rw [trialPasses_succ]
    split
    next hbit =>
      have hshift : bitPoly (d <<< (8 - m - k)) = bitPoly d * X ^ (8 - m - k) :=
        bitPoly_shiftLeft fun j hj => hdeg j (by omega)
      refine ⟨?_, fun j hj => ?_⟩
      · rw [bitPoly_xor, hshift]
        exact dvd_add hd (dvd_mul_right _ _)
      · rw [BitVec.getLsbD_xor, BitVec.getLsbD_shiftLeft]
        rcases Nat.lt_or_ge j (9 - m) with hlt | hge
        · have hj8 : j = 8 - m := by omega
          subst hj8
          rw [hbit, show 8 - m - (8 - m - k) = k by omega, hlead]
          simp
          omega
        · simp [hclear j hge, hdeg (j - (8 - m - k)) (by omega)]
    next hbit =>
      refine ⟨hd, fun j hj => ?_⟩
      rcases Nat.lt_or_ge j (9 - m) with hlt | hge
      · rw [show j = 8 - m by omega]
        exact Bool.not_eq_true _ ▸ hbit
      · exact hclear j hge

/-- Trial division by a divisor leaves nothing. -/
theorem trialRem_eq_zero_of_dvd {P d : Modulus} {k : Nat} (hk : k ≤ 8) (hlead : d.getLsbD k = true)
    (hdeg : ∀ j, k < j → d.getLsbD j = false) (hdvd : bitPoly d ∣ bitPoly P) : trialRem P d k = 0#9 := by
  obtain ⟨hd, hclear⟩ := trialPasses_spec (m := 9 - k) le_rfl hlead hdeg hdvd
  rw [← trialRem_eq_trialPasses] at hd hclear
  have hlt : (bitPoly (trialRem P d k)).degree < k := degree_bitPoly_lt fun j hj => hclear j (by omega)
  have hle : (k : WithBot Nat) ≤ (bitPoly d).degree :=
    le_degree_of_ne_zero (by rw [coeff_bitPoly, hlead, bitVal_true]; exact one_ne_zero)
  refine bitPoly_injective (by_contra fun hne => ?_)
  rw [bitPoly_zero] at hne
  exact absurd (degree_le_of_dvd hd hne) (not_le.mpr (hlt.trans_le hle))

/-- The degree of a 9-bit value with leading bit `k`, as the test of R86 computes it. -/
theorem log2_toNat_of_lead {d : Modulus} {k : Nat} (hlead : d.getLsbD k = true) (hdeg : ∀ j, k < j → d.getLsbD j = false) :
    Nat.log2 d.toNat = k := by
  have hge : 2 ^ k ≤ d.toNat := Nat.ge_two_pow_of_testBit hlead
  have hlt : d.toNat < 2 ^ (k + 1) := Nat.lt_pow_two_of_testBit _ fun j hj => hdeg j hj
  exact (Nat.log2_eq_iff (by have := Nat.two_pow_pos k; omega)).mpr ⟨hge, hlt⟩

/-- The test of R86 tests irreducibility: a divisor of degree 1 to 4 is one of those it tries. -/
theorem irreducible_of_irreducible8 {P : Modulus} (h : irreducible8 P = true) :
    P.getLsbD 8 = true ∧ Irreducible (bitPoly P) := by
  rw [irreducible8, Bool.and_eq_true, List.all_eq_true] at h
  obtain ⟨hP, htry⟩ := h
  obtain ⟨hmonic, hdegP⟩ := bitPoly_modulus hP
  have hne : bitPoly P ≠ 1 := fun e => by rw [e, natDegree_one] at hdegP; cases hdegP
  refine ⟨hP, (hmonic.irreducible_iff_lt_natDegree_lt hne).mpr fun f hf hrange hdvd => ?_⟩
  rw [hdegP, Finset.mem_Ioc] at hrange
  obtain ⟨hpos, hle⟩ := hrange
  obtain ⟨d, rfl⟩ := exists_bitPoly_eq (n := 9) (f := f)
    ((natDegree_lt_iff_degree_lt hf.ne_zero).mp (by omega))
  generalize hk : (bitPoly d).natDegree = k at *
  have hlead : d.getLsbD k = true := by
    have hone := hf.coeff_natDegree
    rw [hk, coeff_bitPoly] at hone
    exact bitVal_injective hone
  have hdeg : ∀ j, k < j → d.getLsbD j = false := fun j hj => by
    have hzero := coeff_eq_zero_of_natDegree_lt (hk.trans_lt hj)
    rw [coeff_bitPoly] at hzero
    exact bitVal_injective hzero
  have hlog := log2_toNat_of_lead hlead hdeg
  have hmem : d.toNat ∈ List.range' 2 30 := by
    have hge : 2 ^ k ≤ d.toNat := Nat.ge_two_pow_of_testBit hlead
    have hlt : d.toNat < 2 ^ 5 := Nat.lt_pow_two_of_testBit _ fun j hj => hdeg j (by omega)
    have h2 : 2 ^ 1 ≤ 2 ^ k := Nat.pow_le_pow_right two_pos hpos
    rw [List.mem_range'_1]
    omega
  have hrem := htry _ hmem
  rw [BitVec.ofNat_toNat, BitVec.setWidth_eq, hlog, trialRem_eq_zero_of_dvd (by omega) hlead hdeg hdvd] at hrem
  cases hrem

/-! ## The bytes as a field -/

/-- `φ` reads the bytes under the modulus `P` as the elements of a field. -/
structure FieldValue (P : Modulus) {K : Type} [Field K] (φ : Byte → K) : Prop where
  bijective : Function.Bijective φ
  map_xor : ∀ a b, φ (a ^^^ b) = φ a + φ b
  map_fmul : ∀ a b, φ (fmul a b P) = φ a * φ b
  map_one : φ 1#8 = 1

/-- Under an irreducible modulus the bytes are a field: the residue classes modulo the modulus. -/
theorem exists_fieldValue {P : Modulus} (h : irreducible8 P = true) :
    ∃ (K : Type) (_ : Field K) (φ : Byte → K), FieldValue P φ := by
  obtain ⟨hP, hirr⟩ := irreducible_of_irreducible8 h
  have : Fact (Irreducible (bitPoly P)) := ⟨hirr⟩
  exact ⟨AdjoinRoot (bitPoly P), inferInstance, residue P, ⟨residue_injective hP, residue_surjective hP⟩, residue_xor P,
    residue_fmul hP, residue_one P⟩

section

variable {P : Modulus} {K : Type} [Field K] {φ : Byte → K}

namespace FieldValue

theorem map_zero (hφ : FieldValue P φ) : φ 0#8 = 0 := by
  have h := hφ.map_xor 0#8 0#8
  rwa [BitVec.xor_self, left_eq_add] at h

theorem map_eq_zero (hφ : FieldValue P φ) {a : Byte} : φ a = 0 ↔ a = 0#8 := by
  rw [← hφ.map_zero, hφ.bijective.injective.eq_iff]

/-- The field has characteristic 2. -/
theorem add_self (hφ : FieldValue P φ) (x : K) : x + x = 0 := by
  obtain ⟨a, rfl⟩ := hφ.bijective.surjective x
  rw [← hφ.map_xor, BitVec.xor_self, hφ.map_zero]

/-- The field has 256 elements, so a non-zero element has order dividing 255. -/
theorem pow_255 (hφ : FieldValue P φ) {x : K} (hx : x ≠ 0) : x ^ 255 = 1 := by
  have hcard : Nat.card K = 256 := by
    rw [← Nat.card_eq_of_bijective φ hφ.bijective, Nat.card_congr BitVec.equivFin.toEquiv, Nat.card_fin]
    rfl
  have : Finite K := Nat.finite_of_card_ne_zero (by omega)
  have : Fintype K := Fintype.ofFinite K
  have h := FiniteField.pow_card_sub_one_eq_one x hx
  rwa [← Nat.card_eq_fintype_card, hcard] at h

/-- The loop of `finv` multiplies the powers `x`, `x ^ 2`, `x ^ 4`, ... together. -/
theorem map_powers (hφ : FieldValue P φ) (n : Nat) (x acc : Byte) :
    φ (finv.powers P n x acc) = φ acc * φ x ^ (2 ^ n - 1) := by
  induction n generalizing x acc with
  | zero => simp [finv.powers]
  | succ n ih =>
    have hexp : 2 ^ (n + 1) - 1 = 1 + 2 * (2 ^ n - 1) := by
      have := Nat.two_pow_pos n
      omega
    rw [finv.powers, ih, hφ.map_fmul, hφ.map_fmul, hexp]
    ring

/-- `finv` is the inverse of the field, and 0 at 0 (R90). -/
theorem map_finv (hφ : FieldValue P φ) (a : Byte) : φ (finv a P) = (φ a)⁻¹ := by
  have hpow : φ (finv a P) = φ a ^ 254 := by
    rw [finv, hφ.map_powers, hφ.map_one, hφ.map_fmul]
    ring
  rw [hpow]
  by_cases h : φ a = 0
  · simp [h]
  · exact eq_inv_of_mul_eq_one_left (by rw [← pow_succ, hφ.pow_255 h])

theorem map_fdiv (hφ : FieldValue P φ) (a b : Byte) : φ (fdiv a b P) = φ a / φ b := by
  rw [fdiv, hφ.map_fmul, hφ.map_finv, div_eq_mul_inv]

theorem ext (hφ : FieldValue P φ) {a b : Byte} (h : φ a = φ b) : a = b := hφ.bijective.injective h

end FieldValue

end

/-! ## The laws of the field (R102) -/

section

variable {P : Modulus} (hP : irreducible8 P = true)

include hP

theorem fmul_comm (a b : Byte) : fmul a b P = fmul b a P := by
  obtain ⟨K, _, φ, hφ⟩ := exists_fieldValue hP
  exact hφ.ext (by rw [hφ.map_fmul, hφ.map_fmul, mul_comm])

theorem fmul_assoc (a b c : Byte) : fmul (fmul a b P) c P = fmul a (fmul b c P) P := by
  obtain ⟨K, _, φ, hφ⟩ := exists_fieldValue hP
  exact hφ.ext (by simp only [hφ.map_fmul, mul_assoc])

theorem fmul_xor (a b c : Byte) : fmul a (b ^^^ c) P = fmul a b P ^^^ fmul a c P := by
  obtain ⟨K, _, φ, hφ⟩ := exists_fieldValue hP
  exact hφ.ext (by simp only [hφ.map_fmul, hφ.map_xor, mul_add])

theorem fmul_one (a : Byte) : fmul a 0x01#8 P = a := by
  obtain ⟨K, _, φ, hφ⟩ := exists_fieldValue hP
  exact hφ.ext (by rw [hφ.map_fmul, hφ.map_one, mul_one])

theorem fmul_finv {a : Byte} (ha : a ≠ 0#8) : fmul a (finv a P) P = 0x01#8 := by
  obtain ⟨K, _, φ, hφ⟩ := exists_fieldValue hP
  exact hφ.ext (by rw [hφ.map_fmul, hφ.map_finv, hφ.map_one, mul_inv_cancel₀ (mt hφ.map_eq_zero.mp ha)])

/-- Dividing a product by a factor gives the other factor. -/
theorem fdiv_fmul {b : Byte} (hb : b ≠ 0#8) (a : Byte) : fdiv (fmul a b P) b P = a := by
  obtain ⟨K, _, φ, hφ⟩ := exists_fieldValue hP
  exact hφ.ext (by rw [hφ.map_fdiv, hφ.map_fmul, mul_div_cancel_right₀ _ (mt hφ.map_eq_zero.mp hb)])

/-- Multiplying a quotient by the divisor gives the dividend. -/
theorem fmul_fdiv {b : Byte} (hb : b ≠ 0#8) (a : Byte) : fmul (fdiv a b P) b P = a := by
  obtain ⟨K, _, φ, hφ⟩ := exists_fieldValue hP
  exact hφ.ext (by rw [hφ.map_fmul, hφ.map_fdiv, div_mul_cancel₀ _ (mt hφ.map_eq_zero.mp hb)])

theorem fmul_eq_zero {a b : Byte} : fmul a b P = 0#8 ↔ a = 0#8 ∨ b = 0#8 := by
  obtain ⟨K, _, φ, hφ⟩ := exists_fieldValue hP
  rw [← hφ.map_eq_zero, ← hφ.map_eq_zero, ← hφ.map_eq_zero, hφ.map_fmul, mul_eq_zero]

theorem finv_ne_zero {a : Byte} (ha : a ≠ 0#8) : finv a P ≠ 0#8 := by
  obtain ⟨K, _, φ, hφ⟩ := exists_fieldValue hP
  rw [ne_eq, ← hφ.map_eq_zero, hφ.map_finv]
  exact inv_ne_zero (mt hφ.map_eq_zero.mp ha)

end

/-- Settles O30: each law holds in the field the bytes are. -/
theorem fieldLawsUnderEveryModulus : Obligations.FieldLawsUnderEveryModulus := by
  intro P hP a b c
  refine ⟨fmul_comm hP a b, fmul_finv hP, fmul_assoc hP a b c, fmul_xor hP a b c, fmul_one hP a,
    fun hb => fdiv_fmul hP hb a, fun ha => ?_⟩
  have hleft : Function.LeftInverse (fun k => fdiv k a P) (fun k => fmul k a P) := fdiv_fmul hP ha
  have hright : Function.RightInverse (fun k => fdiv k a P) (fun k => fmul k a P) := fmul_fdiv hP ha
  exact ⟨⟨hleft.injective, hright.surjective⟩, hleft, hright⟩

/-! ## Commands that divide -/

/-- Settles O25: what `FDIV` writes is the quotient of the field; multiplying by the divisor is injective. -/
theorem fdivWritesTheUniqueQuotient : Obligations.FdivWritesTheUniqueQuotient := by
  intro s bd ba bb m hm hr hP hb
  refine ⟨_, completesB_of_exec (exec_of_modulus hr hm rfl (if_neg hb)), fmul_fdiv hP hb _, fun z hz => ?_⟩
  rw [← fdiv_fmul hP hb z, hz]

/-- Settles O26: what `FINV` writes is the inverse of the field; multiplying by the operand is injective. -/
theorem finvWritesTheUniqueInverse : Obligations.FinvWritesTheUniqueInverse := by
  intro s bd ba m hm hr hP ha
  refine ⟨_, completesB_of_exec (exec_of_modulus hr hm rfl (if_neg ha)), fmul_finv hP ha, fun z hz => ?_⟩
  rw [← fdiv_fmul hP ha z, fmul_comm hP, hz, ← fmul_finv hP ha, fmul_comm hP, fdiv_fmul hP ha]

/-- Settles O32: the test is evaluated on the 512 values. -/
theorem defaultModtabIsEveryIrreducibleInOrder : Obligations.DefaultModtabIsEveryIrreducibleInOrder := by
  unfold Obligations.DefaultModtabIsEveryIrreducibleInOrder
  decide +kernel

end Sys2Proof.Machine
end

section
/-! The polynomial ring over the field of the bytes (`41_polynomial.md` R108 to R111, R128): sequences of bytes as polynomials over
a field, so that the laws of the ring and division with remainder are those of `K[X]`. -/

namespace Sys2Proof.Machine

open Polynomial Sys2Proof.Claims

/-! ## Scaling and convolution, by coefficients and under every modulus -/

@[simp] theorem fmul_zero (a : Byte) (P : Modulus) : fmul a 0#8 P = 0#8 := by
  rw [fmul, clmul8_zero]
  exact gfred_zero P

@[simp] theorem zero_fmul (a : Byte) (P : Modulus) : fmul 0#8 a P = 0#8 := by
  rw [fmul, clmul8_comm, clmul8_zero]
  exact gfred_zero P

theorem coef_pscale (c : Byte) (p : Poly) (P : Modulus) (j : Nat) : coef (pscale c p P) j = fmul c (coef p j) P := by
  rw [pscale, coef_trim, coef_map (fmul_zero c P)]

theorem canonical_pscale (c : Byte) (p : Poly) (P : Modulus) : canonical (pscale c p P) = true := canonical_trim _

theorem xorSum_succ (f : Nat → Byte) (n : Nat) : xorSum f (n + 1) = xorSum f n ^^^ f n := by
  rw [xorSum, List.range_succ, List.foldl_append]
  rfl

/-- The first term apart. -/
theorem xorSum_succ_left (f : Nat → Byte) (n : Nat) : xorSum f (n + 1) = f 0 ^^^ xorSum (fun i => f (i + 1)) n := by
  induction n with
  | zero => simp [xorSum]
  | succ n ih => rw [xorSum_succ, ih, xorSum_succ, BitVec.xor_assoc]

theorem xorSum_zero (n : Nat) : xorSum (fun _ => 0#8) n = 0#8 := by
  induction n with
  | zero => rfl
  | succ n ih => rw [xorSum_succ, ih, BitVec.xor_self]

/-- The convolution of the tail, one place up; for an empty tail it is empty. -/
theorem convolve_cons (P : Modulus) (a : Byte) (p q : List Byte) :
    ∃ r, convolve P (a :: p) q = xorSeq (q.map (fun x => fmul a x P)) r ∧ coef r 0 = 0#8 ∧
      (∀ k, coef r (k + 1) = coef (convolve P p q) k) ∧ r.length ≤ (convolve P p q).length + min p.length 1 := by
  by_cases hp : p = []
  · subst hp
    exact ⟨[], rfl, rfl, fun k => rfl, Nat.zero_le _⟩
  · have hpos : 0 < p.length := List.length_pos_iff.mpr hp
    exact ⟨0#8 :: convolve P p q, by rw [convolve, if_neg hp], rfl, fun k => rfl, by simp; omega⟩

/-- Coefficient `k` of the convolution (R108). -/
theorem coef_convolve (P : Modulus) (p q : List Byte) (k : Nat) :
    coef (convolve P p q) k = xorSum (fun i => fmul (coef p i) (coef q (k - i)) P) (k + 1) := by
  induction p generalizing k with
  | nil => simp [convolve, xorSum_zero]
  | cons a p ih =>
    obtain ⟨r, hconv, hzero, hsucc, -⟩ := convolve_cons P a p q
    rw [hconv, coef_xorSeq, coef_map (fmul_zero a P), xorSum_succ_left]
    cases k with
    | zero => simp [hzero, xorSum]
    | succ k => simp [hsucc, ih]

theorem coef_pmul (p q : Poly) (P : Modulus) (k : Nat) :
    coef (pmul p q P) k = xorSum (fun i => fmul (coef p i) (coef q (k - i)) P) (k + 1) := by
  rw [pmul]
  split
  next h => rcases h with rfl | rfl <;> simp [xorSum_zero]
  next => rw [coef_trim, coef_convolve]

theorem canonical_pmul (p q : Poly) (P : Modulus) : canonical (pmul p q P) = true := by
  rw [pmul]
  split
  next => rfl
  next => exact canonical_trim _

theorem length_xorSeq (p q : List Byte) : (xorSeq p q).length = max p.length q.length := by
  induction p, q using xorSeq.induct with
  | case1 q => simp [xorSeq]
  | case2 p hp => simp [xorSeq]
  | case3 a p b q ih => simp [xorSeq, ih]

theorem length_convolve_le (P : Modulus) (p q : List Byte) : (convolve P p q).length ≤ p.length + q.length - 1 := by
  induction p with
  | nil => simp [convolve]
  | cons a p ih =>
    obtain ⟨r, hconv, -, -, hlen⟩ := convolve_cons P a p q
    rw [hconv, length_xorSeq, List.length_map, List.length_cons]
    omega

theorem length_pmul_le (p q : Poly) (P : Modulus) : (pmul p q P).length ≤ p.length + q.length - 1 := by
  rw [pmul]
  split
  next => exact Nat.zero_le _
  next => exact (length_trim_le _).trans (length_convolve_le P p q)

/-! ## Leading coefficients -/

theorem lead_eq_coef (p : Poly) : lead p = coef p (p.length - 1) := by
  rw [lead, coef, List.getLastD_eq_getLast?, List.getLast?_eq_getElem?, List.getD_eq_getElem?_getD]

theorem getLast?_eq_lead {p : Poly} (h : p ≠ []) : p.getLast? = some (lead p) := by
  rw [lead, List.getLastD_eq_getLast?, List.getLast?_eq_getLast_of_ne_nil h]
  rfl

theorem lead_ne_zero {p : Poly} (hp : canonical p = true) (h : p ≠ []) : lead p ≠ 0#8 := by
  rw [lead_eq_coef]
  exact (canonical_iff h).mp hp

/-- A sequence of length 1 is its leading coefficient. -/
theorem eq_singleton_lead {p : Poly} (h : p.length = 1) : p = [lead p] := by
  obtain ⟨a, rfl⟩ := List.length_eq_one_iff.mp h
  rfl

/-! ## Sequences as polynomials -/

section

variable {P : Modulus} {K : Type} [Field K] {φ : Byte → K}

/-- The polynomial over the field that a sequence of bytes stands for. -/
noncomputable def toPoly (φ : Byte → K) : List Byte → K[X]
  | [] => 0
  | a :: p => C (φ a) + X * toPoly φ p

theorem toPoly_nil (φ : Byte → K) : toPoly φ [] = 0 := rfl

namespace FieldValue

theorem coeff_toPoly (hφ : FieldValue P φ) (p : List Byte) (j : Nat) : (toPoly φ p).coeff j = φ (coef p j) := by
  induction p generalizing j with
  | nil => simp [toPoly, hφ.map_zero]
  | cons a p ih => cases j <;> simp [toPoly, coeff_C, ih]

/-- Canonical sequences are equal when their polynomials are. -/
theorem toPoly_ext (hφ : FieldValue P φ) {p q : List Byte} (hp : canonical p = true) (hq : canonical q = true)
    (h : toPoly φ p = toPoly φ q) : p = q :=
  canonical_ext hp hq fun j => hφ.ext (by rw [← hφ.coeff_toPoly, h, hφ.coeff_toPoly])

theorem toPoly_eq_zero (hφ : FieldValue P φ) {p : List Byte} (hp : canonical p = true) : toPoly φ p = 0 ↔ p = [] :=
  ⟨fun h => hφ.toPoly_ext hp rfl h, fun h => by rw [h, toPoly]⟩

theorem toPoly_one (hφ : FieldValue P φ) : toPoly φ [1#8] = 1 := by
  simp [toPoly, hφ.map_one]

/-- Everything added to itself is zero. -/
theorem poly_add_self (hφ : FieldValue P φ) (f : K[X]) : f + f = 0 := by
  ext j
  rw [coeff_add, hφ.add_self, coeff_zero]

theorem toPoly_trim (hφ : FieldValue P φ) (p : List Byte) : toPoly φ (trim p) = toPoly φ p := by
  ext j
  rw [hφ.coeff_toPoly, hφ.coeff_toPoly, coef_trim]

theorem toPoly_xorSeq (hφ : FieldValue P φ) (p q : List Byte) : toPoly φ (xorSeq p q) = toPoly φ p + toPoly φ q := by
  ext j
  rw [coeff_add, hφ.coeff_toPoly, hφ.coeff_toPoly, hφ.coeff_toPoly, coef_xorSeq, hφ.map_xor]

theorem toPoly_padd (hφ : FieldValue P φ) (p q : Poly) : toPoly φ (padd p q) = toPoly φ p + toPoly φ q := by
  rw [padd, hφ.toPoly_trim, hφ.toPoly_xorSeq]

theorem toPoly_map_fmul (hφ : FieldValue P φ) (c : Byte) (p : List Byte) :
    toPoly φ (p.map (fun x => fmul c x P)) = C (φ c) * toPoly φ p := by
  ext j
  rw [coeff_C_mul, hφ.coeff_toPoly, hφ.coeff_toPoly, coef_map (fmul_zero c P), hφ.map_fmul]

theorem toPoly_pscale (hφ : FieldValue P φ) (c : Byte) (p : Poly) :
    toPoly φ (pscale c p P) = C (φ c) * toPoly φ p := by
  rw [pscale, hφ.toPoly_trim, hφ.toPoly_map_fmul]

theorem toPoly_pshu (hφ : FieldValue P φ) (p : Poly) (n : Nat) : toPoly φ (pshu p n) = toPoly φ p * X ^ n := by
  ext j
  rw [coeff_mul_X_pow', hφ.coeff_toPoly, coef_pshu]
  by_cases hj : j < n
  · simp [hj, hφ.map_zero, Nat.not_le.mpr hj]
  · simp [hj, Nat.le_of_not_lt hj, hφ.coeff_toPoly]

/-- Setting a coefficient that is zero adds a term. -/
theorem toPoly_set (hφ : FieldValue P φ) {t : List Byte} {i : Nat} (hi : i < t.length) (hzero : coef t i = 0#8) (c : Byte) :
    toPoly φ (t.set i c) = toPoly φ t + C (φ c) * X ^ i := by
  ext j
  rw [coeff_add, coeff_C_mul_X_pow, hφ.coeff_toPoly, hφ.coeff_toPoly, coef_set]
  by_cases hj : j = i
  · simp [hj, hi, hzero, hφ.map_zero]
  · simp [hj]

/-- The convolution is the product. -/
theorem toPoly_convolve (hφ : FieldValue P φ) (p q : List Byte) :
    toPoly φ (convolve P p q) = toPoly φ p * toPoly φ q := by
  induction p with
  | nil => simp [convolve, toPoly]
  | cons a p ih =>
    have htail : toPoly φ (if p = [] then [] else 0#8 :: convolve P p q) = X * (toPoly φ p * toPoly φ q) := by
      split
      next h => simp [h, toPoly]
      next => rw [toPoly, hφ.map_zero, C_0, zero_add, ih]
    rw [convolve, hφ.toPoly_xorSeq, hφ.toPoly_map_fmul, htail, toPoly]
    ring

theorem toPoly_pmul (hφ : FieldValue P φ) (p q : Poly) : toPoly φ (pmul p q P) = toPoly φ p * toPoly φ q := by
  rw [pmul]
  split
  next h => rcases h with rfl | rfl <;> simp [toPoly]
  next => rw [hφ.toPoly_trim, hφ.toPoly_convolve]

/-- The degree of a polynomial is below the length of its sequence. -/
theorem degree_toPoly_lt (hφ : FieldValue P φ) (p : List Byte) : (toPoly φ p).degree < p.length :=
  (degree_lt_iff_coeff_zero _ _).mpr fun j hj => by rw [hφ.coeff_toPoly, coef_of_length_le hj, hφ.map_zero]

theorem natDegree_toPoly (hφ : FieldValue P φ) {p : List Byte} (hp : canonical p = true) (h : p ≠ []) :
    (toPoly φ p).natDegree + 1 = p.length := by
  have hpos : 0 < p.length := List.length_pos_iff.mpr h
  have hlt := (natDegree_lt_iff_degree_lt (mt (hφ.toPoly_eq_zero hp).mp h)).mpr (hφ.degree_toPoly_lt p)
  have hge : p.length - 1 ≤ (toPoly φ p).natDegree := le_natDegree_of_ne_zero (by
    rw [hφ.coeff_toPoly]
    exact mt hφ.map_eq_zero.mp ((canonical_iff h).mp hp))
  omega

/-- A sequence shorter than a canonical one stands for a polynomial of smaller degree. -/
theorem degree_toPoly_lt_of_length_lt (hφ : FieldValue P φ) {r q : List Byte} (hq : canonical q = true)
    (h : r.length < q.length) : (toPoly φ r).degree < (toPoly φ q).degree := by
  have hne : q ≠ [] := fun e => by simp [e] at h
  rw [degree_eq_natDegree (mt (hφ.toPoly_eq_zero hq).mp hne)]
  refine (hφ.degree_toPoly_lt r).trans_le ?_
  have := hφ.natDegree_toPoly hq hne
  exact_mod_cast (by omega : r.length ≤ (toPoly φ q).natDegree)

end FieldValue

end

/-! ## Lengths under an irreducible modulus -/

/-- A product of non-zero polynomials has the length of both less 1. -/
theorem length_pmul {P : Modulus} (hP : irreducible8 P = true) {p q : Poly} (hp : canonical p = true) (hq : canonical q = true)
    (hp0 : p ≠ []) (hq0 : q ≠ []) : (pmul p q P).length + 1 = p.length + q.length := by
  obtain ⟨K, _, φ, hφ⟩ := exists_fieldValue hP
  have hp' := mt (hφ.toPoly_eq_zero hp).mp hp0
  have hq' := mt (hφ.toPoly_eq_zero hq).mp hq0
  have hne : pmul p q P ≠ [] := fun e =>
    mul_ne_zero hp' hq' (by rw [← hφ.toPoly_pmul, e, toPoly])
  rw [← hφ.natDegree_toPoly hp hp0, ← hφ.natDegree_toPoly hq hq0, ← hφ.natDegree_toPoly (canonical_pmul p q P) hne,
    hφ.toPoly_pmul, natDegree_mul hp' hq']
  omega

/-- Scaling by a non-zero constant keeps the length. -/
theorem length_pscale {P : Modulus} (hP : irreducible8 P = true) {c : Byte} (hc : c ≠ 0#8) {p : Poly}
    (hp : canonical p = true) : (pscale c p P).length = p.length := by
  have hzero (j : Nat) : coef (pscale c p P) j = 0#8 ↔ coef p j = 0#8 := by
    rw [coef_pscale, fmul_eq_zero hP, or_iff_right hc]
  exact Nat.le_antisymm
    (length_le_of_canonical (canonical_pscale c p P) fun j hj => (hzero j).mpr (coef_of_length_le hj))
    (length_le_of_canonical hp fun j hj => (hzero j).mp (coef_of_length_le hj))

/-! ## The ring (R128) -/

/-- Settles O41: each law holds in the polynomial ring, and canonical sequences with one polynomial are equal. -/
theorem polynomialsFormARing : Obligations.PolynomialsFormARing := by
  intro P hP p q r hp hq hr
  obtain ⟨K, _, φ, hφ⟩ := exists_fieldValue hP
  have hadd (x y : Poly) := canonical_padd x y
  have hmul (x y : Poly) := canonical_pmul x y P
  refine ⟨hadd p q, hmul p q, rfl, rfl, hφ.toPoly_ext (hadd _ _) (hadd _ _) ?_, hφ.toPoly_ext (hadd _ _) (hadd _ _) ?_,
    hφ.toPoly_ext (hadd _ _) hp ?_, hφ.toPoly_ext (hadd _ _) rfl ?_, hφ.toPoly_ext (hmul _ _) (hmul _ _) ?_,
    hφ.toPoly_ext (hmul _ _) (hmul _ _) ?_, hφ.toPoly_ext (hmul _ _) (hadd _ _) ?_, hφ.toPoly_ext (hmul _ _) hp ?_⟩
  all_goals simp only [hφ.toPoly_padd, hφ.toPoly_pmul, hφ.toPoly_one, toPoly_nil, hφ.poly_add_self]
  all_goals ring

/-- Settles O37: the coefficients hold under every modulus, the length under an irreducible one. -/
theorem pmulIsTheFullConvolution : Obligations.PmulIsTheFullConvolution := by
  intro s pd pa pb m hm hr hfit
  have hnot : ¬ (0 < (s.readP pa).length ∧ 0 < (s.readP pb).length ∧
      Config.pMax < (s.readP pa).length + (s.readP pb).length - 1) := by
    simp only [← List.length_eq_zero_iff] at hfit
    simp only [Config.pMax]
    omega
  exact ⟨_, completesP_of_exec (exec_of_modulus hr hm rfl (if_neg hnot)), canonical_pmul _ _ _, coef_pmul _ _ _,
    fun hP hpa hpb => length_pmul hP hpa hpb⟩

/-- Settles O39: scaling by the inverse of the leading coefficient. -/
theorem pmonicScalesToLeadingOne : Obligations.PmonicScalesToLeadingOne := by
  intro s pd pa m hm hr hP hpa hne
  have hlead := lead_ne_zero hpa hne
  have hc := finv_ne_zero hP hlead
  have hlen := length_pscale hP hc hpa
  refine ⟨pmonic (s.readP pa) _, finv (lead (s.readP pa)) _, completesP_of_exec (exec_of_modulus hr hm rfl (if_neg hne)),
    hlen, ?_, hc, coef_pscale _ _ _, fun hone => ?_⟩
  · have hne' : pscale (finv (lead (s.readP pa)) _) (s.readP pa) (s.modtab[m.val]'hm) ≠ [] := fun e => by
      rw [e] at hlen
      exact hne (List.length_eq_zero_iff.mp hlen.symm)
    rw [pmonic, getLast?_eq_lead hne', lead_eq_coef, hlen, coef_pscale, ← lead_eq_coef, fmul_comm hP, fmul_finv hP hlead]
  · rw [getLast?_eq_lead hne, Option.some_inj] at hone
    refine canonical_ext (canonical_pscale _ _ _) hpa fun j => ?_
    have hinv : finv 0x01#8 (s.modtab[m.val]'hm) = 0x01#8 := by
      rw [← fmul_one hP (finv _ _), fmul_comm hP, fmul_finv hP (by decide)]
    rw [pmonic, coef_pscale, hone, hinv, fmul_comm hP, fmul_one hP]

end Sys2Proof.Machine
end

section
/-! Long division and the extended Euclidean algorithm (`41_polynomial.md` R109, R111, R125, R127). -/

namespace Sys2Proof.Machine

open Polynomial Sys2Proof.Claims

/-! ## Long division -/

/-- One pass of long division cancels the leading coefficient. -/
theorem length_divPass_lt {P : Modulus} (hP : irreducible8 P = true) {r q : Poly} (hq : canonical q = true) (hq0 : q ≠ [])
    (hle : q.length ≤ r.length) :
    (padd r (pshu (pscale (fdiv (lead r) (lead q) P) q P) (r.length - q.length))).length < r.length := by
  have hpos : 0 < q.length := List.length_pos_iff.mpr hq0
  refine Nat.lt_of_le_sub_one (by omega) (length_le_of_canonical (canonical_padd _ _) fun j hj => ?_)
  rw [coef_padd, coef_pshu, if_neg (by omega), coef_pscale]
  rcases hj.eq_or_lt with rfl | hlt
  · rw [show r.length - 1 - (r.length - q.length) = q.length - 1 by omega, ← lead_eq_coef, ← lead_eq_coef,
      fmul_fdiv hP (lead_ne_zero hq hq0), BitVec.xor_self]
  · rw [coef_of_length_le (by omega), coef_of_length_le (by omega), fmul_zero, BitVec.xor_self]

section

variable {P : Modulus} {K : Type} [Field K] {φ : Byte → K}

namespace FieldValue

/-- A pass moves a multiple of the divisor from what is left to the quotient. -/
theorem divPass_eq (hφ : FieldValue P φ) {q r : Poly} {t : List Byte} {i : Nat} (hi : i < t.length)
    (hzero : coef t i = 0#8) (c : Byte) :
    toPoly φ (t.set i c) * toPoly φ q + toPoly φ (padd r (pshu (pscale c q P) i)) =
      toPoly φ t * toPoly φ q + toPoly φ r := by
  rw [hφ.toPoly_set hi hzero, hφ.toPoly_padd, hφ.toPoly_pshu, hφ.toPoly_pscale]
  linear_combination hφ.poly_add_self (C (φ c) * X ^ i * toPoly φ q)

/-- The passes: enough of them leave a remainder shorter than the divisor, and the sum of quotient times divisor and what is left
stays. The places of the quotient still to be written are zero. -/
theorem divPasses_spec (hφ : FieldValue P φ) (hP : irreducible8 P = true) {q : Poly} (hq : canonical q = true) (hq0 : q ≠ [])
    {n : Nat} {r : Poly} {t : List Byte} (hr : canonical r = true) (hn : r.length + 1 - q.length ≤ n)
    (ht : r.length + 1 - q.length ≤ t.length) (hzero : ∀ j, j + q.length ≤ r.length → coef t j = 0#8) :
    canonical (divPasses q P n r t).1 = true ∧ (divPasses q P n r t).1.length < q.length ∧
      toPoly φ (divPasses q P n r t).2 * toPoly φ q + toPoly φ (divPasses q P n r t).1 =
        toPoly φ t * toPoly φ q + toPoly φ r := by
  induction n generalizing r t with
  | zero => exact ⟨hr, show r.length < q.length by omega, rfl⟩
  | succ n ih =>
    rw [divPasses]
    split
    next hlt => exact ⟨hr, hlt, rfl⟩
    next hge =>
      have hlt := length_divPass_lt hP hq hq0 (Nat.le_of_not_lt hge)
      obtain ⟨hcan, hlen, heq⟩ := ih (t := t.set (r.length - q.length) (fdiv (lead r) (lead q) P))
        (canonical_padd r (pshu (pscale (fdiv (lead r) (lead q) P) q P) (r.length - q.length))) (by omega)
        (by rw [List.length_set]; omega)
        (fun j hj => by rw [coef_set, if_neg (by omega), hzero j (by omega)])
      exact ⟨hcan, hlen, heq.trans (hφ.divPass_eq (by omega) (hzero _ (by omega)) _)⟩

end FieldValue

end

theorem toPoly_replicate_zero {P : Modulus} {K : Type} [Field K] {φ : Byte → K} (hφ : FieldValue P φ) (n : Nat) :
    toPoly φ (List.replicate n 0#8) = 0 := by
  ext j
  rw [hφ.coeff_toPoly, coef_replicate_zero, hφ.map_zero, coeff_zero]

/-- Division with remainder (R109): both results are canonical, the remainder is shorter than the divisor, and the dividend is
quotient times divisor plus remainder in every field the bytes are read in. -/
theorem pdivmod_spec {P : Modulus} (hP : irreducible8 P = true) {p q : Poly} (hp : canonical p = true)
    (hq : canonical q = true) (hq0 : q ≠ []) :
    canonical (pdivmod p q P).1 = true ∧ canonical (pdivmod p q P).2 = true ∧ (pdivmod p q P).1.length < q.length ∧
      ∀ {K : Type} [Field K] {φ : Byte → K}, FieldValue P φ →
        toPoly φ (pdivmod p q P).2 * toPoly φ q + toPoly φ (pdivmod p q P).1 = toPoly φ p := by
  have hpasses {K : Type} [Field K] {φ : Byte → K} (hφ : FieldValue P φ) :=
    hφ.divPasses_spec hP hq hq0 (n := p.length + 1 - q.length) (t := List.replicate (p.length + 1 - q.length) 0#8) hp le_rfl
      (by rw [List.length_replicate]) (fun j _ => coef_replicate_zero _ j)
  obtain ⟨K, _, φ, hφ⟩ := exists_fieldValue hP
  obtain ⟨hcan, hlen, -⟩ := hpasses hφ
  refine ⟨hcan, canonical_trim _, hlen, fun hφ => ?_⟩
  obtain ⟨-, -, heq⟩ := hpasses hφ
  rw [toPoly_replicate_zero hφ, zero_mul, zero_add] at heq
  rw [pdivmod, hφ.toPoly_trim, heq]

/-- The passes set places of the quotient and add none. -/
theorem length_divPasses_snd (q : Poly) (P : Modulus) (n : Nat) (r : Poly) (t : List Byte) :
    (divPasses q P n r t).2.length = t.length := by
  induction n generalizing r t with
  | zero => rfl
  | succ n ih =>
    rw [divPasses]
    split
    next => rfl
    next => rw [ih, List.length_set]

theorem length_pdivmod_snd_le (p q : Poly) (P : Modulus) : (pdivmod p q P).2.length ≤ p.length + 1 - q.length := by
  refine (length_trim_le _).trans ?_
  rw [length_divPasses_snd, List.length_replicate]

/-- There is one quotient and one remainder. -/
theorem quotient_remainder_unique {K : Type} [Field K] {b q r q' r' : K[X]} (hr : r.degree < b.degree)
    (hr' : r'.degree < b.degree) (h : q * b + r = q' * b + r') : r = r' ∧ q = q' := by
  have hb : b ≠ 0 := fun e => by simp [e] at hr
  have hdvd : b ∣ r - r' := ⟨q' - q, by linear_combination h⟩
  have hrr : r = r' := sub_eq_zero.mp
    (eq_zero_of_dvd_of_degree_lt hdvd ((degree_sub_le r r').trans_lt (max_lt hr hr')))
  subst hrr
  exact ⟨rfl, mul_right_cancel₀ hb (add_right_cancel h)⟩

theorem pdivmod_unique {P : Modulus} (hP : irreducible8 P = true) {p q r t : Poly} (hp : canonical p = true)
    (hq : canonical q = true) (hq0 : q ≠ []) (hr : canonical r = true) (ht : canonical t = true) (hlen : r.length < q.length)
    (h : padd (pmul t q P) r = p) : r = (pdivmod p q P).1 ∧ t = (pdivmod p q P).2 := by
  obtain ⟨hcan, hcan', hlen', heq⟩ := pdivmod_spec hP hp hq hq0
  obtain ⟨K, _, φ, hφ⟩ := exists_fieldValue hP
  have hsum : toPoly φ t * toPoly φ q + toPoly φ r =
      toPoly φ (pdivmod p q P).2 * toPoly φ q + toPoly φ (pdivmod p q P).1 := by
    rw [heq hφ, ← h, hφ.toPoly_padd, hφ.toPoly_pmul]
  obtain ⟨hrem, hquot⟩ := quotient_remainder_unique (hφ.degree_toPoly_lt_of_length_lt hq hlen)
    (hφ.degree_toPoly_lt_of_length_lt hq hlen') hsum
  exact ⟨hφ.toPoly_ext hr hcan hrem, hφ.toPoly_ext ht hcan' hquot⟩

/-- `PDIV` with two destinations in a ready unit (R125). -/
theorem exec_pdiv_of_ready {s : State} {pr pq pa pb : PReg} {m : ModIdx} (hr : s.ready) (hne : pr ≠ pq) :
    exec (.pdiv pr pq pa pb m) s = withModulus (.pdiv pr pq pa pb m) m s fun P =>
      if s.readP pb = [] then raise (.pdiv pr pq pa pb m) .domainError 0 s
      else done ((s.writeP pr (pdivmod (s.readP pa) (s.readP pb) P).1).writeP pq (pdivmod (s.readP pa) (s.readP pb) P).2) :=
  (exec_of_ready hr rfl).trans (if_neg hne)

/-- Settles O38: the two results are those of division with remainder, which are the only ones. -/
theorem pdivIsDivisionWithRemainder : Obligations.PdivIsDivisionWithRemainder := by
  intro s pr pq pa pb m hm hr hP hne hpa hpb hpb0
  obtain ⟨hcan, hcan', hlen, heq⟩ := pdivmod_spec hP hpa hpb hpb0
  obtain ⟨K, _, φ, hφ⟩ := exists_fieldValue hP
  have hexec : exec (.pdiv pr pq pa pb m) s = .next (((s.writeP pr (pdivmod (s.readP pa) (s.readP pb) _).1).writeP pq
      (pdivmod (s.readP pa) (s.readP pb) (s.modtab[m.val]'hm)).2).withResponse 0#32) :=
    (exec_pdiv_of_ready hr hne).trans ((withModulus_of_some (modulus?_eq_some hm)).trans (if_neg hpb0))
  refine ⟨_, hexec, ?_⟩
  simp only [State.readP_withResponse, State.readP_writeP_self, State.readP_writeP_of_ne _ _ hne]
  refine ⟨hcan, hcan', hlen, ?_, fun r q hrc hqc hrlen h => pdivmod_unique hP hpa hpb hpb0 hrc hqc hrlen h,
    fun x hx hx' => ?_, fun _ => rfl, fun _ => rfl, ⟨rfl, rfl, rfl⟩, ⟨rfl, rfl, rfl⟩, rfl⟩
  · refine hφ.toPoly_ext (canonical_padd _ _) hpa ?_
    rw [hφ.toPoly_padd, hφ.toPoly_pmul, heq hφ]
  · rw [State.readP_writeP_of_ne _ _ hx', State.readP_writeP_of_ne _ _ hx]

/-! ## The extended Euclidean algorithm -/

section

variable {P : Modulus} {K : Type} [Field K] {φ : Byte → K}

/-- The remainder `r` is the multiple `s` of `p`, up to multiples of `q`. -/
def Cofactor (p q : K[X]) (φ : Byte → K) (r s : Poly) : Prop := q ∣ toPoly φ s * p + toPoly φ r

/-- A division step keeps the relation of cofactors. -/
theorem Cofactor.step (hφ : FieldValue P φ) (hP : irreducible8 P = true) {p q : K[X]} {r0 s0 r1 s1 : Poly}
    (h0 : Cofactor p q φ r0 s0) (h1 : Cofactor p q φ r1 s1) (hr0 : canonical r0 = true) (hr1 : canonical r1 = true)
    (hne : r1 ≠ []) : Cofactor p q φ (pdivmod r0 r1 P).1 (padd s0 (pmul (pdivmod r0 r1 P).2 s1 P)) := by
  obtain ⟨-, -, -, heq⟩ := pdivmod_spec hP hr0 hr1 hne
  obtain ⟨a, ha⟩ := h0
  obtain ⟨b, hb⟩ := h1
  refine ⟨a + toPoly φ (pdivmod r0 r1 P).2 * b, ?_⟩
  rw [hφ.toPoly_padd, hφ.toPoly_pmul]
  linear_combination ha + toPoly φ (pdivmod r0 r1 P).2 * hb - heq hφ +
    hφ.poly_add_self (toPoly φ (pdivmod r0 r1 P).1) - hφ.poly_add_self (toPoly φ r0)

/-- The passes end in a common divisor of the two remainders, with its cofactor (R111). -/
theorem euclidPasses_spec (hφ : FieldValue P φ) (hP : irreducible8 P = true) {p q : K[X]} {n : Nat} {r0 s0 r1 s1 : Poly}
    (hr0 : canonical r0 = true) (hr1 : canonical r1 = true) (hne : r0 ≠ []) (hn : r1.length ≤ n)
    (h0 : Cofactor p q φ r0 s0) (h1 : Cofactor p q φ r1 s1) :
    canonical (euclidPasses P n r0 s0 r1 s1).1 = true ∧ (euclidPasses P n r0 s0 r1 s1).1 ≠ [] ∧
      Cofactor p q φ (euclidPasses P n r0 s0 r1 s1).1 (euclidPasses P n r0 s0 r1 s1).2 ∧
      toPoly φ (euclidPasses P n r0 s0 r1 s1).1 ∣ toPoly φ r0 ∧ toPoly φ (euclidPasses P n r0 s0 r1 s1).1 ∣ toPoly φ r1 := by
  induction n generalizing r0 s0 r1 s1 with
  | zero =>
    obtain rfl : r1 = [] := List.length_eq_zero_iff.mp (Nat.le_zero.mp hn)
    exact ⟨hr0, hne, h0, dvd_rfl, dvd_zero _⟩
  | succ n ih =>
    rw [euclidPasses]
    split
    next h =>
      subst h
      exact ⟨hr0, hne, h0, dvd_rfl, dvd_zero _⟩
    next h =>
      obtain ⟨hcan, -, hlen, heq⟩ := pdivmod_spec hP hr0 hr1 h
      obtain ⟨hgcan, hgne, hcof, hdvd1, hdvd2⟩ :=
        ih hr1 hcan h (by omega) h1 (h0.step hφ hP h1 hr0 hr1 h)
      exact ⟨hgcan, hgne, hcof, heq hφ ▸ dvd_add (hdvd1.mul_left _) hdvd2, hdvd1⟩

/-- The remainder of `p * d` is 1 when `q` divides `p * d + 1`, for a divisor of degree at least 1; a remainder of 1 says so. -/
theorem remainder_eq_one_iff (hφ : FieldValue P φ) (hP : irreducible8 P = true) {p q : Poly} (d : Poly)
    (hq : canonical q = true) (hlen : 1 < q.length) :
    (pdivmod (pmul p d P) q P).1 = [0x01#8] ↔ toPoly φ q ∣ toPoly φ p * toPoly φ d + 1 := by
  have hq0 : q ≠ [] := fun e => by simp [e] at hlen
  obtain ⟨hcan, -, hrlen, heq⟩ := pdivmod_spec hP (canonical_pmul p d P) hq hq0
  have hprod := heq hφ
  rw [hφ.toPoly_pmul] at hprod
  have hdeg1 := hφ.degree_toPoly_lt_of_length_lt (r := [0x01#8]) hq hlen
  constructor
  · intro h
    rw [h, hφ.toPoly_one] at hprod
    exact ⟨toPoly φ (pdivmod (pmul p d P) q P).2, by linear_combination -hprod + hφ.poly_add_self 1⟩
  · rintro ⟨w, hw⟩
    rw [hφ.toPoly_one] at hdeg1
    have hsum : toPoly φ (pdivmod (pmul p d P) q P).2 * toPoly φ q + toPoly φ (pdivmod (pmul p d P) q P).1 =
        w * toPoly φ q + 1 := by
      linear_combination hprod + hw - hφ.poly_add_self 1
    have hrem := (quotient_remainder_unique (hφ.degree_toPoly_lt_of_length_lt hq hrlen) hdeg1 hsum).1
    exact hφ.toPoly_ext hcan rfl (hrem.trans hφ.toPoly_one.symm)

/-- Two inverses of `p` relative to `q` differ by a multiple of `q`. -/
theorem dvd_add_of_inverses (hφ : FieldValue P φ) {p q d e : K[X]} (hd : q ∣ p * d + 1) (he : q ∣ p * e + 1) : q ∣ d + e := by
  obtain ⟨v, hv⟩ := hd
  obtain ⟨w, hw⟩ := he
  exact ⟨e * v + d * w, by linear_combination e * hv + d * hw - hφ.poly_add_self (p * d * e)⟩

/-- There is at most one inverse shorter than `q`. -/
theorem inverse_unique (hφ : FieldValue P φ) {p q d e : Poly} (hq : canonical q = true) (hd : canonical d = true)
    (he : canonical e = true) (hdlen : d.length < q.length) (helen : e.length < q.length)
    (hdinv : toPoly φ q ∣ toPoly φ p * toPoly φ d + 1) (heinv : toPoly φ q ∣ toPoly φ p * toPoly φ e + 1) : e = d := by
  have hzero : toPoly φ d + toPoly φ e = 0 :=
    eq_zero_of_dvd_of_degree_lt (dvd_add_of_inverses hφ hdinv heinv)
      ((degree_add_le _ _).trans_lt (max_lt (hφ.degree_toPoly_lt_of_length_lt hq hdlen)
        (hφ.degree_toPoly_lt_of_length_lt hq helen)))
  exact hφ.toPoly_ext he hd (by linear_combination hzero - hφ.poly_add_self (toPoly φ d))

/-- `pxeu` either answers the inverse or finds that there is none (R111). -/
theorem pxeu_spec (hφ : FieldValue P φ) (hP : irreducible8 P = true) {p q : Poly} (hp : canonical p = true)
    (hq : canonical q = true) (hlen : 1 < q.length) :
    (canonical (pxeu p q P) = true ∧ (pxeu p q P).length < q.length ∧
        toPoly φ q ∣ toPoly φ p * toPoly φ (pxeu p q P) + 1) ∨
      (pxeu p q P = [] ∧ ∀ e, ¬ toPoly φ q ∣ toPoly φ p * e + 1) := by
  have hq0 : q ≠ [] := fun e => by simp [e] at hlen
  obtain ⟨hrcan, -, hrlen, hreq⟩ := pdivmod_spec hP hp hq hq0
  have h0 : Cofactor (toPoly φ p) (toPoly φ q) φ q [] := by simp [Cofactor, toPoly]
  have h1 : Cofactor (toPoly φ p) (toPoly φ q) φ (pdivmod p q P).1 [0x01#8] := by
    refine ⟨toPoly φ (pdivmod p q P).2, ?_⟩
    rw [hφ.toPoly_one]
    linear_combination -hreq hφ + hφ.poly_add_self (toPoly φ (pdivmod p q P).1)
  obtain ⟨hgcan, hgne, hcof, hgq, hgr⟩ := euclidPasses_spec hφ hP hq hrcan hq0 hrlen.le h0 h1
  have hgp := hreq hφ ▸ dvd_add (hgq.mul_left (toPoly φ (pdivmod p q P).2)) hgr
  rw [pxeu, if_neg (by omega)]
  generalize euclidPasses P q.length q [] (pdivmod p q P).1 [0x01#8] = g at *
  dsimp only
  split
  next hg1 =>
    refine .inr ⟨rfl, fun e he => hg1 ?_⟩
    have hunit : toPoly φ g.1 ∣ 1 := by
      have h := dvd_sub (hgq.trans he) (hgp.mul_right e)
      rwa [add_sub_cancel_left] at h
    rw [← hφ.natDegree_toPoly hgcan hgne, natDegree_eq_zero_of_isUnit (isUnit_of_dvd_one hunit)]
  next hg1 =>
    rw [not_not] at hg1
    have hlead : φ (lead g.1) ≠ 0 := mt hφ.map_eq_zero.mp (lead_ne_zero hgcan hgne)
    have hgconst : toPoly φ g.1 = C (φ (lead g.1)) := by
      conv_lhs => rw [eq_singleton_lead hg1]
      simp [toPoly]
    have hinv : C (φ (lead g.1))⁻¹ * C (φ (lead g.1)) = (1 : K[X]) := by
      rw [← C_mul, inv_mul_cancel₀ hlead, C_1]
    obtain ⟨hdcan, -, hdlen, hdeq⟩ := pdivmod_spec hP (canonical_pscale (finv (lead g.1) P) g.2 P) hq hq0
    refine .inl ⟨hdcan, hdlen, ?_⟩
    obtain ⟨w, hw⟩ := hcof
    rw [hgconst] at hw
    have hscale := hdeq hφ
    rw [hφ.toPoly_pscale, hφ.map_finv] at hscale
    exact ⟨C (φ (lead g.1))⁻¹ * w - toPoly φ p * toPoly φ (pdivmod (pscale (finv (lead g.1) P) g.2 P) q P).2, by
      linear_combination toPoly φ p * hscale + C (φ (lead g.1))⁻¹ * hw - hinv⟩

end

/-- What `pxeu` answers is canonical and shorter than the divisor (R111). -/
theorem canonical_pxeu_and_length_lt {P : Modulus} (hP : irreducible8 P = true) {p q : Poly} (hp : canonical p = true)
    (hq : canonical q = true) (hq0 : q ≠ []) : canonical (pxeu p q P) = true ∧ (pxeu p q P).length < q.length := by
  have hpos : 0 < q.length := List.length_pos_iff.mpr hq0
  by_cases hlen : q.length = 1
  · rw [pxeu, if_pos hlen]
    exact ⟨rfl, hpos⟩
  · obtain ⟨K, _, φ, hφ⟩ := exists_fieldValue hP
    obtain ⟨hcan, hlt, -⟩ | ⟨hzero, -⟩ := pxeu_spec hφ hP hp hq (by omega)
    · exact ⟨hcan, hlt⟩
    · rw [hzero]
      exact ⟨rfl, hpos⟩

/-- Settles O40: for a divisor of length 1 no remainder is 1; for a longer one `pxeu_spec` says which case holds. -/
theorem pxeuWritesTheInverseOrZero : Obligations.PxeuWritesTheInverseOrZero := by
  intro s pd pa pb m hm hr hP hpa hpb hpb0
  obtain ⟨K, _, φ, hφ⟩ := exists_fieldValue hP
  obtain ⟨hcan, hlt⟩ := canonical_pxeu_and_length_lt hP hpa hpb hpb0
  refine ⟨_, completesP_of_exec (exec_of_modulus hr hm rfl (if_neg hpb0)), hcan, hlt, fun hne => ?_, fun e he helen hone => ?_⟩
  · have hlen : 1 < (s.readP pb).length := by
      have := List.length_pos_iff.mpr hne
      omega
    obtain ⟨-, -, hinv⟩ | ⟨hzero, -⟩ := pxeu_spec hφ hP hpa hpb hlen
    · exact (remainder_eq_one_iff hφ hP _ hpb hlen).mpr hinv
    · exact absurd hzero hne
  · have hlen : 1 < (s.readP pb).length := by
      obtain ⟨-, -, hrlen, -⟩ := pdivmod_spec hP (canonical_pmul (s.readP pa) e _) hpb hpb0
      rwa [hone] at hrlen
    have heinv := (remainder_eq_one_iff hφ hP e hpb hlen).mp hone
    obtain ⟨-, -, hinv⟩ | ⟨-, hnone⟩ := pxeu_spec hφ hP hpa hpb hlen
    · exact inverse_unique hφ hpb hcan he hlt helen hinv heinv
    · exact absurd heinv (hnone _)

end Sys2Proof.Machine
end

section
/-! S-box tables (`42_sbox.md` R140 to R150): a table of 256 entries as a function of a byte, and what the commands that work on
slots and sets write. -/

namespace Sys2Proof.Machine

open Sys2Proof.Claims

/-! ## Tables as functions -/

/-- Tables of 256 entries are equal when their entries are. -/
theorem table_ext {t u : Table} (ht : t.length = 256) (hu : u.length = 256) (h : ∀ k, entry t k = entry u k) : t = u := by
  refine List.ext_getElem (ht.trans hu.symm) fun i hi hi' => ?_
  have hk := h (BitVec.ofNat 8 i)
  have hmod : i % 256 = i := Nat.mod_eq_of_lt (by omega)
  simpa [entry, hmod, hi, hi'] using hk

@[simp] theorem entry_allBytes (k : Byte) : entry allBytes k = k := by
  have h := entry_tableOf id k
  rwa [tableOf, List.map_id] at h

@[simp] theorem entry_compose (t u : Table) (k : Byte) : entry (compose t u) k = entry t (entry u k) := entry_tableOf _ k

@[simp] theorem entry_premul (t : Table) (c : Byte) (P : Modulus) (k : Byte) :
    entry (premul t c P) k = entry t (fdiv k c P) := entry_tableOf _ k

@[simp] theorem entry_postmul (t : Table) (c : Byte) (P : Modulus) (k : Byte) :
    entry (postmul t c P) k = fmul (entry t k) c P := entry_tableOf _ k

@[simp] theorem length_compose (t u : Table) : (compose t u).length = 256 := length_tableOf _
@[simp] theorem length_premul (t : Table) (c : Byte) (P : Modulus) : (premul t c P).length = 256 := length_tableOf _
@[simp] theorem length_postmul (t : Table) (c : Byte) (P : Modulus) : (postmul t c P).length = 256 := length_tableOf _
@[simp] theorem length_permInv (t : Table) : (permInv t).length = 256 := length_tableOf _
@[simp] theorem length_mixedTable (s : State) (ts : SlotSet) (dir : Dir) (mb k : Nat) (pos : Lane) :
    (mixedTable s ts dir mb k pos).length = 256 := length_tableOf _

/-! ## Permutations -/

theorem IsBijection.surjective {f : Byte → Byte} (h : IsBijection f) : Function.Surjective f := h

theorem IsBijection.injective {f : Byte → Byte} (h : IsBijection f) : Function.Injective f :=
  have : Finite Byte := Finite.of_equiv _ BitVec.equivFin.toEquiv.symm
  Finite.injective_iff_surjective.mpr h

section

variable {t : Table} (ht : t.length = 256) (hp : IsBijection (entry t))

include ht hp

/-- The inverse table holds a position of each value. -/
theorem entry_entry_permInv (y : Byte) : entry t (entry (permInv t) y) = y := by
  obtain ⟨k, rfl⟩ := hp y
  have hk : k.toNat < t.length := ht ▸ k.isLt
  have hmem : entry t k ∈ t := by
    rw [entry, List.getD_eq_getElem _ _ hk]
    exact List.getElem_mem hk
  have hidx : t.idxOf (entry t k) < 256 := ht ▸ List.idxOf_lt_length_of_mem hmem
  rw [permInv, entry_tableOf]
  conv_lhs => rw [entry]
  rw [BitVec.toNat_ofNat, Nat.mod_eq_of_lt hidx, List.getD_eq_getElem _ _ (ht ▸ hidx), List.getElem_idxOf]

/-- Entry `y` of the inverse table is the one position of `y`. -/
theorem entry_permInv_eq_iff {y k : Byte} : entry (permInv t) y = k ↔ entry t k = y := by
  constructor
  · rintro rfl
    exact entry_entry_permInv ht hp y
  · rintro rfl
    exact hp.injective (entry_entry_permInv ht hp _)

theorem entry_permInv_entry (k : Byte) : entry (permInv t) (entry t k) = k := (entry_permInv_eq_iff ht hp).mpr rfl

theorem isBijection_permInv : IsBijection (entry (permInv t)) := fun k => ⟨entry t k, entry_permInv_entry ht hp k⟩

theorem permInv_permInv : permInv (permInv t) = t :=
  table_ext (length_permInv _) ht fun k =>
    (entry_permInv_eq_iff (length_permInv t) (isBijection_permInv ht hp)).mpr (entry_permInv_entry ht hp k)

end

/-- Settles O49: each law holds entry by entry. -/
theorem sboxTableLaws : Obligations.SboxTableLaws := by
  refine ⟨fun t u ht hu hpt hpu => ?_, fun P c hP hc => ?_⟩
  · rw [isPerm_iff ht] at hpt
    rw [isPerm_iff hu] at hpu
    have hcomp : IsBijection (entry (compose t u)) := fun v => by
      obtain ⟨y, hy⟩ := hpt v
      obtain ⟨k, hk⟩ := hpu y
      exact ⟨k, by rw [entry_compose, hk, hy]⟩
    refine ⟨table_ext (length_compose _ _) length_allBytes fun k => ?_,
      table_ext (length_compose _ _) length_allBytes fun k => ?_, permInv_permInv ht hpt,
      table_ext (length_permInv _) (length_compose _ _) fun k => ?_⟩
    · rw [entry_compose, entry_entry_permInv ht hpt, entry_allBytes]
    · rw [entry_compose, entry_permInv_entry ht hpt, entry_allBytes]
    · rw [entry_permInv_eq_iff (length_compose _ _) hcomp, entry_compose, entry_compose, entry_entry_permInv hu hpu,
        entry_entry_permInv ht hpt]
  · refine table_ext (length_compose _ _) length_allBytes fun k => ?_
    simp only [entry_compose, entry_postmul, entry_premul, entry_allBytes, fmul_fdiv hP hc]

/-! ## Commands that write one slot -/

/-- A command that writes a table of 256 entries to a slot. -/
theorem completesM_of_writeTable {i : Instr} {s : State} {sd : Slot} {t : Table} (ht : t.length = 256)
    (h : exec i s = .next ((s.writeTable sd t).withResponse 0#32)) :
    CompletesM i s (256 * sd.val) 256 (fun k => t.getD k 0#8) :=
  completesM_of_exec ht (fun _ _ => rfl) h

/-- The same, for a table given by a function. -/
theorem completesM_of_writeTable_tableOf {i : Instr} {s : State} {sd : Slot} {f : Byte → Byte}
    (h : exec i s = .next ((s.writeTable sd (tableOf f)).withResponse 0#32)) :
    CompletesM i s (256 * sd.val) 256 (fun k => f (BitVec.ofNat 8 k)) :=
  completesM_of_exec (length_tableOf f) (fun _ hk => getD_tableOf f hk _) h

theorem allBytes_eq_tableOf : allBytes = tableOf id := (List.map_id _).symm

/-- Settles O42: each writes a table given by a function of the old memory. -/
theorem slotWritersComplete : Obligations.SlotWritersComplete := by
  intro s sd hr
  refine ⟨completesM_of_writeTable_tableOf (f := id) ?_, fun sa sb => ?_, fun ss bm m hm => ?_⟩
  · rw [← allBytes_eq_tableOf]
    exact exec_of_ready hr rfl
  · simp only [← entry_slot]
    exact completesM_of_writeTable_tableOf (f := fun k => entry (s.table sa) (entry (s.table sb) k)) (exec_of_ready hr rfl)
  · simp only [← entry_slot]
    exact completesM_of_writeTable_tableOf (f := fun k => fmul (entry (s.table ss) k) (s.readB bm) (s.modtab[m.val]'hm))
      (exec_of_modulus hr hm rfl rfl)

/-- Settles O43: the table written divides by the multiplier first. -/
theorem sbpreUndoesTheMultiplication : Obligations.SbpreUndoesTheMultiplication := by
  intro s sd ss bm m hm hr hP hc
  refine ⟨_, completesM_of_writeTable (length_premul _ _ _) (exec_of_modulus hr hm rfl (if_neg hc)), fun k => ?_⟩
  change entry (premul (s.table ss) (s.readB bm) _) (fmul k (s.readB bm) _) = _
  rw [entry_premul, fdiv_fmul hP hc, entry_slot]

/-- Settles O44: `isPerm` decides whether the table is a bijection. -/
theorem sbchkReportsBijectivity : Obligations.SbchkReportsBijectivity := by
  intro s bd ss hr
  rw [slotEntry_eq_entry, ← isPerm_iff (length_table s ss)]
  refine ⟨fun hp => ?_, fun hp => ?_⟩
  · have hw := completesB_of_exec (exec_of_ready (i := .sbchk bd ss) hr rfl)
    rwa [if_pos hp] at hw
  · have hw := completesB_of_exec (exec_of_ready (i := .sbchk bd ss) hr rfl)
    rwa [if_neg hp] at hw

/-- Settles O45: the table written is the inverse table. -/
theorem sbinvInvertsThePermutation : Obligations.SbinvInvertsThePermutation := by
  intro s sd ss hr hp
  rw [slotEntry_eq_entry] at hp
  have hperm := (isPerm_iff (length_table s ss)).mpr hp
  refine ⟨_, completesM_of_writeTable (length_permInv _) ((exec_of_ready hr rfl).trans (if_pos hperm)), fun j => ?_⟩
  rw [slotEntry_eq_entry]
  exact entry_permInv_entry (length_table s ss) hp j

/-! ## Commands that write a set -/

/-- Sixteen tables for the lanes of a set: table `i` for lane `g i`. -/
def laneTables (td : SlotSet) (g : Lane → Lane) (T : Lane → Table) : List (Slot × Table) :=
  (List.finRange 16).map (fun i => (laneSlot td (g i), T i))

theorem inverseTables_eq_laneTables (s : State) (td ts : SlotSet) (dir : Dir) :
    inverseTables s td ts dir = laneTables td (laneMap dir) (fun i => permInv (s.table (laneSlot ts i))) := rfl

theorem laneSlot_injective (t : SlotSet) : Function.Injective (laneSlot t) := fun _ _ h =>
  Fin.ext (Nat.add_left_cancel (Fin.mk.inj_iff.mp h))

/-- A lane lies in its set (R54). -/
theorem slotAddr_laneSlot (t : SlotSet) (i : Lane) : slotAddr (laneSlot t i) = 4096 * t.val + 256 * i.val := by
  simp only [slotAddr, laneSlot]
  omega

section

variable {td : SlotSet} {g : Lane → Lane} {T : Lane → Table} (hT : ∀ i, (T i).length = 256)

include hT

/-- Writing the tables of a set changes no byte outside it. -/
theorem readM_laneTables_of_outside (s : State) {x : Nat} (hx : ¬ (4096 * td.val ≤ x ∧ x < 4096 * td.val + 4096)) :
    (s.writeTables (laneTables td g T)).readM x = s.readM x := by
  refine readM_writeTables_of_outside ?_ ?_
  · simpa [laneTables] using hT
  · intro y hy
    obtain ⟨i, -, rfl⟩ := List.mem_map.mp hy
    have := (g i).isLt
    rw [slotAddr_laneSlot]
    omega

/-- A lane of the set holds the table written for it. -/
theorem laneEntry_laneTables (s : State) (hg : Function.Injective g) (i : Lane) (k : Byte) :
    laneEntry (s.writeTables (laneTables td g T)) td (g i) k = entry (T i) k := by
  have hpair : (laneTables td g T).Pairwise (fun y z => y.1 ≠ z.1) := by
    rw [laneTables, List.pairwise_map]
    exact (List.nodup_finRange 16).imp fun hij h => hij (hg (laneSlot_injective td h))
  rw [laneEntry, ← slotAddr_laneSlot]
  exact readM_writeTables_of_mem (y := (laneSlot td (g i), T i)) (by simpa [laneTables] using hT) hpair
    (List.mem_map.mpr ⟨i, List.mem_finRange i, rfl⟩) k.isLt

/-- A command that writes the tables of a set: what it writes is read from the state after it. -/
theorem completesM_of_laneTables {i : Instr} {s : State}
    (h : exec i s = .next ((s.writeTables (laneTables td g T)).withResponse 0#32)) :
    CompletesM i s (4096 * td.val) 4096 (fun k => (s.writeTables (laneTables td g T)).readM (4096 * td.val + k)) := by
  refine ⟨_, h, fun x => ?_, fun r => ?_, fun r => ?_, ⟨?_, ?_, ?_⟩, ⟨?_, ?_, ?_⟩, ?_⟩
  · rw [State.readM_withResponse]
    split
    next hx =>
      dsimp only
      rw [Nat.add_sub_cancel' hx.1]
    next hx => exact readM_laneTables_of_outside hT s hx
  all_goals simp

end

/-- `SBINVS` of 16 permutations completes (R148). -/
theorem exec_sbinvs_of_permutations {s : State} {td ts : SlotSet} {dir : Dir} (hr : s.ready)
    (hp : ∀ i, IsBijection (laneEntry s ts i)) :
    exec (.sbinvs td ts dir) s = .next
      ((s.writeTables (laneTables td (laneMap dir) (fun i => permInv (s.table (laneSlot ts i))))).withResponse 0#32) := by
  obtain ⟨t, ht⟩ := exec_answers (.sbinvs td ts dir) s
  rcases execSbinvs_cases hr ht with ⟨i, hbad, -⟩ | ⟨-, rfl⟩
  · have hperm : isPerm (s.table (laneSlot ts i)) = true := by
      rw [isPerm_iff (length_table _ _), ← laneEntry_eq_entry]
      exact hp i
    rw [(firstBadLane_eq_some hbad).1] at hperm
    cases hperm
  · rw [ht, inverseTables_eq_laneTables]

/-- Settles O46: lane `lane(dir, i)` of the destination holds the inverse of lane `i`. -/
theorem sbinvsInvertsAndRemapsEveryLane : Obligations.SbinvsInvertsAndRemapsEveryLane := by
  intro s td ts dir hr hp
  refine ⟨_, completesM_of_laneTables (fun _ => length_permInv _) (exec_sbinvs_of_permutations hr hp), fun i j => ?_⟩
  have hlane := laneEntry_laneTables (td := td) (T := fun i => permInv (s.table (laneSlot ts i)))
    (fun _ => length_permInv _) s (laneMap_bijective dir).injective i (laneEntry s ts i j)
  rw [laneEntry_eq_entry s ts, entry_permInv_entry (length_table _ _) (laneEntry_eq_entry s ts i ▸ hp i)] at hlane
  rw [laneEntry_eq_entry s ts, ← Nat.add_assoc]
  exact hlane

/-- The other direction brings every lane back. -/
theorem laneMap_laneMap_of_ne {d e : Dir} (h : d ≠ e) (i : Lane) : laneMap e (laneMap d i) = i := by
  match d, e with
  | .fwd, .bwd => exact laneMap_bwd_fwd i
  | .bwd, .fwd => exact laneMap_fwd_bwd i
  | .fwd, .fwd | .bwd, .bwd => exact absurd rfl h

/-- After `SBINVS` of 16 permutations the unit is ready and lane `lane(dir, i)` holds the inverse of lane `i`. -/
theorem exists_exec_sbinvs {s : State} {ts : SlotSet} (td : SlotSet) (dir : Dir) (hr : s.ready)
    (hp : ∀ i, IsBijection (laneEntry s ts i)) :
    ∃ u, exec (.sbinvs td ts dir) s = .next u ∧ u.ready ∧
      ∀ i, u.table (laneSlot td (laneMap dir i)) = permInv (s.table (laneSlot ts i)) := by
  refine ⟨_, exec_sbinvs_of_permutations hr hp, ?_, fun i => ?_⟩
  · rw [State.ready, State.faulted_withResponse, State.faulted_writeTables]
    exact hr
  · refine table_ext (length_table _ _) (length_permInv _) fun k => ?_
    rw [entry_lane, laneEntry, State.readM_withResponse, ← laneEntry,
      laneEntry_laneTables (fun _ => length_permInv _) s (laneMap_bijective dir).injective]

/-- Settles O47: the second command inverts the inverses that the first wrote. -/
theorem sbinvsBothWaysRestoresTheSet : Obligations.SbinvsBothWaysRestoresTheSet := by
  intro s ta tb tc d e hr hp
  have hperm (i : Lane) : IsBijection (entry (s.table (laneSlot ta i))) := laneEntry_eq_entry s ta i ▸ hp i
  obtain ⟨u, hu, hready, hinv⟩ := exists_exec_sbinvs tb d hr hp
  have hp' (j : Lane) : IsBijection (laneEntry u tb j) := by
    obtain ⟨i, rfl⟩ := (laneMap_bijective d).surjective j
    rw [laneEntry_eq_entry, hinv]
    exact isBijection_permInv (length_table _ _) (hperm i)
  obtain ⟨v, hv, -, hback⟩ := exists_exec_sbinvs tc e hready hp'
  refine ⟨u, v, hu, hv, fun i k => ?_⟩
  have hlane : laneEntry v tc (laneMap e (laneMap d i)) k = laneEntry s ta i k := by
    rw [laneEntry_eq_entry, hback, hinv, permInv_permInv (length_table _ _) (hperm i), entry_lane]
  refine ⟨hlane, fun hde => ?_⟩
  rwa [laneMap_laneMap_of_ne hde] at hlane

/-! ## Undoing the inherited mix layers -/

/-- Undoing the layers last to first gives back what went through them, when every pair is usable. -/
theorem mixUndo_mixApply {ls : List (Byte × Modulus)} (h : ∀ l ∈ ls, irreducible8 l.2 = true ∧ l.1 ≠ 0#8) (x : Byte) :
    mixUndo ls (mixApply ls x) = x := by
  induction ls generalizing x with
  | nil => rfl
  | cons l ls ih =>
    rw [List.forall_mem_cons] at h
    obtain ⟨⟨hP, hc⟩, hls⟩ := h
    change fdiv (mixUndo ls (mixApply ls (fmul x l.1 l.2))) l.1 l.2 = x
    rw [ih hls, fdiv_fmul hP hc]

/-- A legal table holds irreducible moduli only. -/
theorem irreducible8_of_modtabLegal {t : Vector Modulus Config.nMod} (h : modtabLegal t = true) {m : Nat} (hm : m < 30) :
    irreducible8 t[m] = true := by
  rw [modtabLegal, Bool.and_eq_true, List.all_eq_true] at h
  exact h.1 _ (by simp [Vector.getElem_mem])

/-- The pairs of a lane in the terms of R55. -/
theorem lanePairs_eq_pairsOf (s : State) (mb k : Nat) (i : Lane) : lanePairs s mb k i = pairsOf s mb k i := rfl

/-- Under a legal table usable pairs have an irreducible modulus and a non-zero multiplier. -/
theorem usable_of_mem_pairsOf {s : State} {r k : Nat} {i : Lane} (hlegal : modtabLegal s.modtab = true)
    (hgood : ∀ L < k, goodPair s r L i) {l : Byte × Modulus} (hl : l ∈ pairsOf s r k i) :
    irreducible8 l.2 = true ∧ l.1 ≠ 0#8 := by
  obtain ⟨L, hL, rfl⟩ := List.mem_map.mp hl
  obtain ⟨hidx, hmult⟩ := hgood L (List.mem_range.mp hL)
  refine ⟨?_, hmult⟩
  rw [Vector.getElem?_eq_getElem hidx, Option.getD_some]
  exact irreducible8_of_modtabLegal hlegal hidx

/-- `SBMIX` with records in range and usable pairs completes (R149). -/
theorem exec_sbmix_of_goodPairs {s : State} {td ts : SlotSet} {dir : Dir} {k : LayerCount} {r : MixRec} (hr : s.ready)
    (hrange : k.val = 0 ∨ r.val + k.val ≤ 1024) (hgood : ∀ L < k.val, ∀ i, goodPair s r.val L i) :
    exec (.sbmix td ts dir k r) s = .next
      ((s.writeTables (laneTables td id (mixedTable s ts dir r.val k.val))).withResponse 0#32) := by
  obtain ⟨t, ht⟩ := exec_answers (.sbmix td ts dir k r) s
  rcases execSbmix_cases hr ht with ⟨h1, h2, -⟩ | ⟨-, x, n, hbad, -⟩ | ⟨-, -, rfl⟩
  · omega
  · have hnone := firstBadPair_eq_none.mpr fun L hL i => badPair_eq_none.mpr (hgood L hL i)
    rw [hbad] at hnone
    cases hnone
  · exact ht

/-- Settles O48: at each position the table written undoes the layers first. -/
theorem sbmixUndoesTheInheritedLayers : Obligations.SbmixUndoesTheInheritedLayers := by
  intro s td ts dir k r hr hlegal hrange hgood
  refine ⟨_, completesM_of_laneTables (length_mixedTable s ts dir r.val k.val) (exec_sbmix_of_goodPairs hr hrange hgood),
    fun pos x => ?_⟩
  have hlane := laneEntry_laneTables (td := td) (length_mixedTable s ts dir r.val k.val) s Function.injective_id pos
    (mixApply (pairsOf s r.val k.val (laneMap dir pos)) x)
  have hundo := mixUndo_mixApply (ls := pairsOf s r.val k.val (laneMap dir pos))
    (fun l hl => usable_of_mem_pairsOf hlegal (fun L hL => hgood L hL _) hl) x
  rw [mixedTable, lanePairs_eq_pairsOf, entry_tableOf, hundo, entry_lane] at hlane
  rw [← Nat.add_assoc]
  exact hlane

end Sys2Proof.Machine
end

section
/-! What a step does to the whole machine (`10_state.md` R41 to R44, `60_exceptions.md` R180 to R187, `70_reset_and_hazards.md`
R200, R201, R207): every command either completes or enters a fault, and a faulted unit only responds. -/

namespace Sys2Proof.Machine

open Sys2Proof.Claims

/-! ## One command -/

/-- Between `s` and `t` a command completed: the fault record and the model's fields stay, and the response carries `FSR`. -/
def Completed (s t : State) : Prop := SameRecord s t ∧ SameModel s t ∧ ∃ d, t.rsp = some ⟨s.fsr, d⟩

theorem Completed.faulted_eq {s t : State} (h : Completed s t) : t.faulted = s.faulted := by
  rw [State.faulted, State.faulted, h.1.1]

theorem completed_withResponse (s : State) (d : Word) : Completed s (s.withResponse d) :=
  ⟨⟨rfl, rfl, rfl⟩, ⟨rfl, rfl, rfl⟩, d, rfl⟩

/-- A command completes, or it enters, in no fault state, a fault it lists or that of a `PDIV` with one destination. -/
theorem exec_completed_or_fault {i : Instr} {s t : State} (h : exec i s = .next t) :
    Completed s t ∨ (s.faulted = false ∧ ∃ x info, t = s.faultEntry (encode i) x info ∧
      (x ∈ listedFaults i ∨ (x = .illegalCommand ∧ i.distinctResults = false))) := by
  cases exec_cases h with
  | byteRegister bd v _ eq => exact .inl (eq ▸ ⟨⟨rfl, rfl, rfl⟩, ⟨rfl, rfl, rfl⟩, 0#32, rfl⟩)
  | polynomialRegister pd q _ eq => exact .inl (eq ▸ ⟨⟨rfl, rfl, rfl⟩, ⟨rfl, rfl, rfl⟩, 0#32, rfl⟩)
  | polynomialRegisters pr pq r q _ eq => exact .inl (eq ▸ ⟨⟨rfl, rfl, rfl⟩, ⟨rfl, rfl, rfl⟩, 0#32, rfl⟩)
  | memory a bs _ eq => exact .inl (eq ▸ ⟨⟨rfl, rfl, rfl⟩, ⟨rfl, rfl, rfl⟩, 0#32, rfl⟩)
  | tables ts _ _ eq => exact .inl (eq ▸ by simp [Completed, SameRecord, SameModel])
  | response d eq => exact .inl (eq ▸ completed_withResponse s d)
  | fault x info hr hx eq => exact .inr ⟨hr, x, info, eq, hx⟩

/-- Settles O50: each answer of a command names the kind of destination it writes. -/
theorem onlyTheListedCommandsWrite : Obligations.OnlyTheListedCommandsWrite := by
  intro i s t h
  cases exec_cases h with
  | byteRegister bd v hw eq => exact eq ▸ ⟨by simp [hw], fun _ _ => rfl, fun _ _ => rfl⟩
  | polynomialRegister pd q hw eq => exact eq ▸ ⟨fun _ _ => rfl, by simp [hw], fun _ _ => rfl⟩
  | polynomialRegisters pr pq r q hw eq => exact eq ▸ ⟨fun _ _ => rfl, by simp [hw], fun _ _ => rfl⟩
  | memory a bs hw eq => exact eq ▸ ⟨fun _ _ => rfl, fun _ _ => rfl, by simp [hw]⟩
  | tables ts hw _ eq => exact eq ▸ ⟨fun _ r => by simp, fun _ r => by simp, by simp [hw]⟩
  | response d eq => exact eq ▸ ⟨fun _ _ => rfl, fun _ _ => rfl, fun _ _ => rfl⟩
  | fault x info _ _ eq => exact eq ▸ ⟨fun _ _ => rfl, fun _ _ => rfl, fun _ _ => rfl⟩

/-- Settles O18: a command that did not complete entered a fault it lists. -/
theorem commandsRaiseOnlyTheirListedFaults : Obligations.CommandsRaiseOnlyTheirListedFaults := by
  intro i s t hr hdist h hf
  rcases exec_completed_or_fault h with hc | ⟨-, x, info, rfl, hx | ⟨-, hsame⟩⟩
  · rw [hc.faulted_eq, hr] at hf
    cases hf
  · exact ⟨x, hx, rfl⟩
  · rw [hdist] at hsame
    cases hsame

/-! ## One word -/

/-- A word completes, or it enters a fault with that very word. -/
theorem issue_completed_or_fault {c : Word} {s t : State} (h : issue c s = .next t) :
    Completed s t ∨ (s.faulted = false ∧ ∃ x info, t = s.faultEntry c x info) := by
  cases hdec : decode c with
  | ok i =>
    rw [issue_of_decode_ok hdec] at h
    rcases exec_completed_or_fault h with hc | ⟨hr, x, info, rfl, -⟩
    · exact .inl hc
    · exact .inr ⟨hr, x, info, by rw [encode_of_decode hdec]⟩
  | error e =>
    rw [issue_of_decode_error hdec, whenReady_next] at h
    rcases h with ⟨-, rfl⟩ | ⟨hr, h⟩
    · exact .inl (completed_withResponse s _)
    · exact .inr ⟨hr, .illegalCommand, 0#32, enterFault_next.mp h⟩

/-- In the fault state a word only makes a response. -/
theorem exists_issue_of_faulted {s : State} (hf : s.faulted = true) (c : Word) :
    ∃ d, issue c s = .next (s.withResponse d) := by
  by_cases hc : rdcrWord c
  · obtain ⟨cr, -, h⟩ := issue_of_rdcrWord hc s
    exact ⟨_, h⟩
  · exact ⟨_, issue_of_faulted hf hc⟩

theorem issue_answers (c : Word) (s : State) : ∃ t, issue c s = .next t := by
  cases hdec : decode c with
  | ok i => rw [issue_of_decode_ok hdec]; exact exec_answers i s
  | error e =>
    rw [issue_of_decode_error hdec, whenReady]
    split
    · exact ⟨_, rfl⟩
    · exact ⟨_, rfl⟩

/-! ## One step -/

theorem step_idle {s : State} (hhost : s.host = []) : step s = .next s := by
  unfold step
  rw [hhost]

theorem step_reset {s : State} {rest : List HostEvent} (hhost : s.host = .reset :: rest) :
    step s = .next (State.assertReset { s with host := rest }) := by
  unfold step
  rw [hhost]

theorem step_resetDuring {s : State} {c : Word} {rest : List HostEvent} (hhost : s.host = .resetDuring c :: rest) :
    step s = .next (State.resetCuttingShort c { s with host := rest }) := by
  unfold step
  rw [hhost]

/-- Settles O5: the word a host presents is issued, and a decoded word runs its command. -/
theorem stepRunsTheDecodedCommand : Obligations.StepRunsTheDecodedCommand := by
  intro s c i hdec
  have hcommand {u : State} {rest : List HostEvent} (hhost : u.host = .command c :: rest) :
      step u = exec i { u with host := rest } := by
    rw [step_command hhost, issue_of_decode_ok hdec]
  refine ⟨fun rest hhost => hcommand hhost, hcommand (u := s.withFetchWord 32 c.toNat) ?_⟩
  rw [State.withFetchWord, Nat.mod_eq_of_lt c.isLt, BitVec.ofNat_toNat, BitVec.setWidth_eq]

/-- Settles O6: with no event the step is the identity by definition. -/
theorem idleUnitHoldsItsState : Obligations.IdleUnitHoldsItsState := fun _ => step_idle

/-- Settles O7: the step is `assertReset`, whose fields are read off its lemmas. -/
theorem resetClearsEverythingButMemory : Obligations.ResetClearsEverythingButMemory := fun _ _ hhost =>
  ⟨_, step_reset hhost, State.readB_assertReset _, State.readP_assertReset _, rfl, rfl, rfl, fun _ => rfl,
    State.faulted_assertReset _, rfl, rfl, rfl⟩

/-- Settles O9: each kind of event has its answer. -/
theorem everyStepAnswersANextState : Obligations.EveryStepAnswersANextState := by
  intro s
  match hhost : s.host with
  | [] => exact ⟨_, step_idle hhost⟩
  | .command c :: rest => rw [step_command hhost]; exact issue_answers c _
  | .reset :: rest => exact ⟨_, step_reset hhost⟩
  | .resetDuring c :: rest => exact ⟨_, step_resetDuring hhost⟩

/-- Settles O10: a command that completes keeps `FSR`, and a fault entry responds with the new one. -/
theorem everyResponseCarriesFsr : Obligations.EveryResponseCarriesFsr := by
  intro s t c rest hhost h
  rw [step_command hhost] at h
  rcases issue_completed_or_fault h with ⟨⟨hfsr, -, -⟩, -, d, hrsp⟩ | ⟨-, x, info, rfl⟩
  · exact ⟨_, hrsp, hfsr.symm⟩
  · exact ⟨_, rfl, rfl⟩

/-- Settles O11: a word that faults a ready unit did not complete, so it entered a fault. -/
theorem faultsArePrecise : Obligations.FaultsArePrecise := by
  intro s t c rest hr hhost h hf
  rw [step_command hhost] at h
  rcases issue_completed_or_fault h with hc | ⟨-, x, info, rfl⟩
  · have hready : State.faulted { s with host := rest } = false := hr
    rw [hc.faulted_eq, hready] at hf
    cases hf
  · exact ⟨⟨x, rfl⟩, rfl, fun _ => rfl, fun _ => rfl, fun _ => rfl, rfl, rfl, rfl⟩

/-! ## A reset that cuts a command short -/

/-- A command that writes no memory has no destination range (R59). -/
theorem destRange_eq_none {i : Instr} (h : writesMemory i = false) (s : State) : destRange i s = none := by
  cases i
  case mwr | stb | stbx | pst | sbid | sbinv | sbcomp | sbpre | sbpost | sbinvs | sbmix => cases h
  all_goals rfl

/-- A destination range lies in memory. -/
theorem destRange_le {i : Instr} {s : State} {a n : Nat} (h : destRange i s = some (a, n)) : a + n ≤ Config.memSize := by
  cases i
  case mwr addr imm | stb bs addr =>
    obtain ⟨rfl, rfl⟩ := Prod.mk.inj (Option.some.inj h)
    exact addr.isLt
  case stbx bs addr bi =>
    rw [destRange] at h
    split at h
    next hlt =>
      obtain ⟨rfl, rfl⟩ := Prod.mk.inj (Option.some.inj h)
      exact hlt
    next => cases h
  case pst ps bn addr =>
    rw [destRange] at h
    split at h
    next hin =>
      obtain ⟨rfl, rfl⟩ := Prod.mk.inj (Option.some.inj h)
      have hout := mt inRange_eq_false.mpr (by rw [hin]; decide)
      have haddr := addr.isLt
      rw [Config.memSize]
      omega
    next => cases h
  case sbid sd | sbinv sd _ | sbcomp sd _ _ | sbpre sd _ _ _ | sbpost sd _ _ _ =>
    obtain ⟨rfl, rfl⟩ := Prod.mk.inj (Option.some.inj h)
    exact slotAddr_le sd
  case sbinvs td _ _ | sbmix td _ _ _ _ =>
    obtain ⟨rfl, rfl⟩ := Prod.mk.inj (Option.some.inj h)
    have htd := td.isLt
    rw [setAddr, Config.memSize]
    omega
  all_goals cases h

/-- The range a word may have written is that of its command. -/
theorem exists_destRange_of_cutRange {c : Word} {s : State} {a n : Nat} (h : cutRange c s = some (a, n)) :
    ∃ i, decode c = .ok i ∧ destRange i s = some (a, n) := by
  unfold cutRange at h
  split at h
  next => cases h
  next =>
    split at h
    next i hdec => exact ⟨i, hdec, h⟩
    next => cases h

/-- The memory of a unit whose command was cut short: free bytes in the range, if there is one. -/
theorem resetCuttingShort_mem (c : Word) (s : State) :
    (cutRange c s = none ∧ (State.resetCuttingShort c s).mem = s.mem) ∨
      ∃ a n, cutRange c s = some (a, n) ∧ (State.resetCuttingShort c s).mem = s.mem.writeBytes a (freeBytes s.cuts a n) := by
  unfold State.resetCuttingShort
  cases hrange : cutRange c s with
  | none => exact .inl ⟨rfl, rfl⟩
  | some r => exact .inr ⟨r.1, r.2, rfl, rfl⟩

@[simp] theorem length_freeBytes (n a len : Nat) : (freeBytes n a len).length = len := by simp [freeBytes]

/-- A byte outside the range reads as before. -/
theorem readM_resetCuttingShort {c : Word} {s : State} {x : Nat}
    (hx : ∀ a n, cutRange c s = some (a, n) → ¬ (a ≤ x ∧ x < a + n)) :
    (State.resetCuttingShort c s).readM x = s.readM x := by
  rw [State.readM]
  rcases resetCuttingShort_mem c s with ⟨-, h⟩ | ⟨a, n, hr, h⟩
  · rw [h, State.readM]
  · rw [h, Memory.read_writeBytes, length_freeBytes, if_neg (hx a n hr), State.readM]

theorem readB_resetCuttingShort (c : Word) (s : State) (r : BReg) : (State.resetCuttingShort c s).readB r = 0#8 :=
  s.readB_assertReset r

theorem readP_resetCuttingShort (c : Word) (s : State) (r : PReg) : (State.resetCuttingShort c s).readP r = [] :=
  s.readP_assertReset r

/-- Settles O8: the only bytes written are those of the destination range, which a command that writes no memory does not have. -/
theorem cutShortResetTouchesOnlyTheDestinationRange : Obligations.CutShortResetTouchesOnlyTheDestinationRange := by
  intro s c rest hhost
  have hframe {x : Nat} (hx : ∀ a n, cutRange c s = some (a, n) → ¬ (a ≤ x ∧ x < a + n)) :
      (State.resetCuttingShort c { s with host := rest }).readM x = s.readM x :=
    readM_resetCuttingShort (s := { s with host := rest }) hx
  refine ⟨_, step_resetDuring hhost, readB_resetCuttingShort c _, readP_resetCuttingShort c _, rfl, rfl, rfl, rfl,
    fun x hx => hframe hx, fun i hdec hw x => hframe fun a n hr => ?_⟩
  obtain ⟨j, hdec', hdest⟩ := exists_destRange_of_cutRange hr
  obtain rfl := Except.ok.inj (hdec.symm.trans hdec')
  rw [destRange_eq_none hw] at hdest
  cases hdest

/-! ## What no step changes, and the fault state -/

/-- Settles O56: no command and no reset writes the table. -/
theorem noStepChangesModtab : Obligations.NoStepChangesModtab := by
  intro s t h
  match hhost : s.host with
  | [] =>
    rw [step_idle hhost] at h
    cases h
    rfl
  | .command c :: rest =>
    rw [step_command hhost] at h
    rcases issue_completed_or_fault h with ⟨-, ⟨hmodtab, -, -⟩, -⟩ | ⟨-, x, info, rfl⟩
    · exact hmodtab
    · rfl
  | .reset :: rest =>
    rw [step_reset hhost] at h
    cases h
    rfl
  | .resetDuring c :: rest =>
    rw [step_resetDuring hhost] at h
    cases h
    rfl

theorem run_succ_of_next {M : Host.Core} {s u : M.State} (h : M.step s = .next u) (k : Nat) :
    M.run (k + 1) s = M.run k u := by
  simp only [Host.Core.run, h]

/-- Settles O54: from a faulted state each step is idle or only responds, and the events still to come are commands. -/
theorem faultRecordHeldUntilReset : Obligations.FaultRecordHeldUntilReset := by
  intro s n
  induction n generalizing s with
  | zero => exact fun hf _ => ⟨s, rfl, fun _ => rfl, fun _ => rfl, fun _ => rfl, ⟨rfl, rfl, rfl⟩, hf⟩
  | succ n ih =>
    intro hf hhost
    match he : s.host with
    | [] =>
      rw [run_succ_of_next (M := Sys2Proof.core) (step_idle he)]
      exact ih s hf hhost
    | e :: rest =>
      obtain ⟨c, rfl⟩ := hhost e (by simp [he])
      obtain ⟨d, hd⟩ := exists_issue_of_faulted (s := { s with host := rest }) hf c
      rw [run_succ_of_next (M := Sys2Proof.core) ((step_command he).trans hd)]
      obtain ⟨t, ht, hb, hp, hm, hrec, hport⟩ := ih (State.withResponse { s with host := rest } d) hf
        fun e' he' => hhost e' (by rw [he]; exact List.mem_cons_of_mem _ he')
      exact ⟨t, ht, hb, hp, hm, hrec, hport⟩

/-- Settles O55: in the fault state a response is a control register of the record, or 0. -/
theorem faultStateHidesRegistersAndMemory : Obligations.FaultStateHidesRegistersAndMemory := by
  rintro s u s' u' c rs ru hf ⟨hfsr, hfcw, hfinfo⟩ hs hu hstep hstep'
  rw [step_command hs] at hstep
  rw [step_command hu] at hstep'
  have hfu : State.faulted { u with host := ru } = true := by
    change u.fsr.getLsbD 7 = true
    rw [hfsr]
    exact hf
  by_cases hc : rdcrWord c
  · obtain ⟨cr, hcr, h⟩ := issue_of_rdcrWord hc { s with host := rs }
    have h' := issue_of_decode_ok (decode_eq_ok_rdcr_iff.mpr ⟨hc, hcr⟩) { u with host := ru }
    rw [h] at hstep
    rw [h'] at hstep'
    cases hstep
    cases hstep'
    have hreg : State.controlReg { s with host := rs } cr = State.controlReg { u with host := ru } cr := by
      cases cr <;> simp [State.controlReg, hfsr, hfcw, hfinfo]
    simp only [State.withResponse_rsp, hreg, hfsr]
  · rw [issue_of_faulted (s := { s with host := rs }) hf hc] at hstep
    rw [issue_of_faulted hfu hc] at hstep'
    cases hstep
    cases hstep'
    simp only [State.withResponse_rsp, hfsr]

theorem faulted_powerUp (m0 : Memory) : (State.powerUp m0).faulted = false := by
  simp [State.faulted, State.powerUp]

/-- Settles O53: the registers are replicated zeros, every other field is a constant. -/
theorem resetValues : Obligations.ResetValues := by
  intro m0
  refine ⟨fun r => ?_, fun r => ?_, rfl, rfl, rfl, rfl, rfl, fun _ => rfl, faulted_powerUp m0⟩
  · simp [State.powerUp, State.readB]
  · simp [State.powerUp, State.readP]

end Sys2Proof.Machine
end

section
/-! Which commands raise `DomainError`, `IllegalModulus` and `LengthOverflow` (`60_exceptions.md` R172, R174, R176), through one
notion: what holds of every state a result can be. -/

namespace Sys2Proof.Machine

open Sys2Proof.Claims

/-! ## What a result ensures -/

/-- Every next state the result answers meets `C`. -/
def Ensures (C : State → Prop) (r : Result) : Prop := ∀ t, r = .next t → C t

namespace Ensures

variable {C : State → Prop} {s : State}

theorem respond {d : Word} (h : C (s.withResponse d)) : Ensures C (respond d s) := fun _ ht => respond_next.mp ht ▸ h

theorem done (h : C (s.withResponse 0#32)) : Ensures C (done s) := fun _ ht => done_next.mp ht ▸ h

theorem raise {i : Instr} {x : Cause} {info : Nat} (h : C (s.faultEntry (encode i) x (word info))) :
    Ensures C (raise i x info s) := fun _ ht => raise_next.mp ht ▸ h

theorem ite {p : Prop} [Decidable p] {r q : Result} (hr : p → Ensures C r) (hq : ¬ p → Ensures C q) :
    Ensures C (if p then r else q) := by
  split
  next h => exact hr h
  next h => exact hq h

/-- In a ready unit a command ensures what its meaning ensures. -/
theorem of_ready {i : Instr} {k : Result} (hr : s.ready) (h : exec i s = whenReady s k) (hk : Ensures C k) :
    Ensures C (exec i s) := by
  rwa [exec_of_ready hr h]

theorem withModulus {i : Instr} {m : ModIdx} {k : Modulus → Result}
    (hfault : 30 ≤ m.val → C (s.faultEntry (encode i) .illegalModulus (word m.val)))
    (hk : ∀ hm : m.val < 30, Ensures C (k (s.modtab[m.val]'hm))) : Ensures C (withModulus i m s k) := by
  rw [withModulus_eq]
  split
  next hm => exact hk hm
  next hm => rintro t ⟨⟩; exact hfault (Nat.le_of_not_lt hm)

end Ensures

/-! ## Results without a given fault -/

/-- The result is not the fault `x`. -/
def Spares (x : Cause) (r : Result) : Prop := Ensures (fun t => t.fsr ≠ faultStatus x) r

theorem spares_done {s u : State} (hr : s.ready) (x : Cause) (hu : u.fsr = s.fsr) : Spares x (done u) :=
  Ensures.done (by rw [State.withResponse_fsr, hu]; exact hr.fsr_ne x)

theorem spares_respond {s : State} (hr : s.ready) (x : Cause) (d : Word) : Spares x (respond d s) :=
  Ensures.respond (hr.fsr_ne x)

theorem spares_raise {x y : Cause} (hxy : y ≠ x) (i : Instr) (info : Nat) (s : State) : Spares x (raise i y info s) :=
  Ensures.raise (faultStatus_injective.ne hxy)

theorem spares_ite {x : Cause} {p : Prop} [Decidable p] {r q : Result} (hr : Spares x r) (hq : Spares x q) :
    Spares x (if p then r else q) := Ensures.ite (fun _ => hr) (fun _ => hq)

/-! ## Commands that judge one condition -/

section

variable {i : Instr} {s t : State} {x : Cause} {cond : Nat → Prop}

/-- A command that raises the fault under one condition, with one information, and else spares it. -/
theorem raisesExactly_of_ite {p : Prop} [Decidable p] {info : Nat} {r : Result} (h : exec i s = .next t)
    (he : exec i s = if p then raise i x info s else r) (hr : Spares x r) (hcond : ∀ n, cond n ↔ p ∧ n = info) :
    RaisesExactly x cond i s t := by
  refine .of_answers hcond ?_
  rw [he] at h
  split at h
  next hp => exact .inl ⟨hp, raise_next.mp h⟩
  next hp => exact .inr ⟨hp, hr t h⟩

/-- The same behind the check of a modulus index (R70 step 5). -/
theorem raisesExactly_of_modulus_ite {m : ModIdx} {p : Prop} [Decidable p] {info : Nat} {k : Modulus → Result}
    (h : exec i s = .next t) (he : exec i s = withModulus i m s (fun P => if p then raise i x info s else k P))
    (hx : Cause.illegalModulus ≠ x) (hk : ∀ P, Spares x (k P)) (hcond : ∀ n, cond n ↔ (m.val < 30 ∧ p) ∧ n = info) :
    RaisesExactly x cond i s t := by
  refine .of_answers hcond ?_
  rw [he, withModulus_eq] at h
  split at h
  next hm =>
    split at h
    next hp => exact .inl ⟨⟨hm, hp⟩, raise_next.mp h⟩
    next hp => exact .inr ⟨fun hn => hp hn.2, hk _ t h⟩
  next hm =>
    cases h
    exact .inr ⟨fun hn => hm hn.1, faultStatus_injective.ne hx⟩

/-- The check of a modulus index itself (R174 (a)). -/
theorem raisesExactly_illegalModulus {m : ModIdx} {k : Modulus → Result} (h : exec i s = .next t)
    (he : exec i s = withModulus i m s k) (hk : ∀ P, Spares .illegalModulus (k P)) :
    RaisesExactly .illegalModulus (fun n => 30 ≤ m.val ∧ n = m.val) i s t := by
  refine .of_answers (fun _ => Iff.rfl) ?_
  rw [he, withModulus_eq] at h
  split at h
  next hm => exact .inr ⟨Nat.not_le_of_lt hm, hk _ t h⟩
  next hm =>
    cases h
    exact .inl ⟨Nat.le_of_not_lt hm, rfl⟩

end

/-! ## `DomainError` -/

/-- The scan of `SBMIX` in the terms of R149: the pairs before the first bad one are usable. -/
theorem goodBefore_iff {s : State} {r L : Nat} {i : Lane} :
    goodBefore s r L i ↔
      ∀ (L' : Nat) (i' : Lane), L' < L ∨ (L' = L ∧ i'.val < i.val) → badPair s r L' i'.val = none :=
  forall₂_congr fun _ _ => imp_congr_right fun _ => badPair_eq_none.symm

/-- `SBMIX` with records in range stops at a pair with cause `x`, or is not stopped with that cause. -/
theorem raisesExactly_sbmix {td ts : SlotSet} {dir : Dir} {k : LayerCount} {r : MixRec} {s t : State} {x : Cause} (hr : s.ready)
    (h : exec (.sbmix td ts dir k r) s = .next t) (hx : x ≠ .addressRange) :
    RaisesExactly x (fun n => r.val + k.val ≤ 1024 ∧ firstBadPair s r.val k.val = some (x, n)) (.sbmix td ts dir k r) s t := by
  obtain ⟨-, hend, rfl⟩ | ⟨hle, y, info, hbad, rfl⟩ | ⟨-, hnone, rfl⟩ := execSbmix_cases hr h
  · exact ⟨fun hfsr => absurd (faultStatus_injective hfsr).symm hx, fun n hn => absurd hn.1 (by omega)⟩
  · refine ⟨fun hfsr => ?_, fun n hn => ?_⟩
    · obtain rfl := faultStatus_injective hfsr
      exact ⟨info, hle, hbad⟩
    · obtain ⟨rfl, rfl⟩ := Prod.mk.inj (Option.some.inj (hbad.symm.trans hn.2))
      rfl
  · refine ⟨fun hfsr => absurd (by simpa using hfsr) (hr.fsr_ne x), fun n hn => ?_⟩
    rw [hnone] at hn
    cases hn.2

/-- R172 for `SBMIX`, by the scan. -/
theorem domainErrorOf_sbmix_iff {td ts : SlotSet} {dir : Dir} {k : LayerCount} {r : MixRec} {s : State} {n : Nat} :
    (domainErrorOf (.sbmix td ts dir k r) s ∧ n = 0) ↔
      r.val + k.val ≤ 1024 ∧ firstBadPair s r.val k.val = some (.domainError, n) := by
  simp only [domainErrorOf, firstBadPair_eq_some, badPair_domainError, goodBefore_iff]
  grind

/-- R174 (b), by the scan. -/
theorem illegalModulusOf_sbmix_iff {td ts : SlotSet} {dir : Dir} {k : LayerCount} {r : MixRec} {s : State} {n : Nat} :
    illegalModulusOf (.sbmix td ts dir k r) s n ↔
      r.val + k.val ≤ 1024 ∧ firstBadPair s r.val k.val = some (.illegalModulus, n) := by
  simp only [illegalModulusOf, firstBadPair_eq_some, badPair_illegalModulus, goodBefore_iff, and_assoc]

/-- Every command raises the fault as R172 says: each of the seven that can by its own check. -/
theorem exec_raisesExactly_domainError {i : Instr} {s t : State} (hr : s.ready) (hdist : i.distinctResults = true)
    (h : exec i s = .next t) : RaisesExactly .domainError (fun n => domainErrorOf i s ∧ n = 0) i s t := by
  cases i
  case fdiv | finv | sbpre =>
    exact raisesExactly_of_modulus_ite h (exec_of_ready hr rfl) (by decide) (fun _ => spares_done hr _ rfl) fun _ => Iff.rfl
  case pmonic | pxeu =>
    exact raisesExactly_of_modulus_ite h (exec_of_ready hr rfl) (by decide) (fun _ => spares_done hr _ rfl)
      fun _ => by rw [domainErrorOf, List.length_eq_zero_iff]
  case pdiv pr pq pa pb m =>
    exact raisesExactly_of_modulus_ite h (exec_pdiv_of_ready hr (bne_iff_ne.mp hdist)) (by decide)
      (fun _ => spares_done hr _ rfl) fun _ => by rw [domainErrorOf, List.length_eq_zero_iff]
  case sbmix td ts dir k r =>
    simp only [domainErrorOf_sbmix_iff]
    exact raisesExactly_sbmix hr h (by decide)
  all_goals exact raisesExactly_of_not_listed hr h (by simp [listedFaults]) (by decide) fun _ hn => hn.1

/-- Settles O13: `exec_raisesExactly_domainError` in the terms of the record, at the information 0. -/
theorem domainErrorExactly : Obligations.DomainErrorExactly := by
  intro i s t hr hdist h
  obtain ⟨hfsr, hrecord⟩ := (exec_raisesExactly_domainError hr hdist h).record
  refine ⟨hfsr.trans (by simp), fun hd => (hrecord 0 ⟨hd, rfl⟩).1⟩

/-! ## `IllegalModulus` -/

/-- Every command judges the modulus index as R174 says. -/
theorem exec_raisesExactly_illegalModulus {i : Instr} {s t : State} (hr : s.ready) (hdist : i.distinctResults = true)
    (h : exec i s = .next t) : RaisesExactly .illegalModulus (illegalModulusOf i s) i s t := by
  cases i
  case fmul | fred | sbpost =>
    exact raisesExactly_illegalModulus h (exec_of_ready hr rfl) fun _ => spares_done hr _ rfl
  case modp => exact raisesExactly_illegalModulus h (exec_of_ready hr rfl) fun _ => spares_respond hr _ _
  case fdiv | finv | pmul | pmonic | pxeu | sbpre =>
    exact raisesExactly_illegalModulus h (exec_of_ready hr rfl) fun _ =>
      spares_ite (spares_raise (by decide) _ _ _) (spares_done hr _ rfl)
  case pdiv =>
    exact raisesExactly_illegalModulus h (exec_pdiv_of_ready hr (bne_iff_ne.mp hdist)) fun _ =>
      spares_ite (spares_raise (by decide) _ _ _) (spares_done hr _ rfl)
  case sbmix td ts dir k r =>
    have hcond : illegalModulusOf (.sbmix td ts dir k r) s =
        fun n => r.val + k.val ≤ 1024 ∧ firstBadPair s r.val k.val = some (.illegalModulus, n) :=
      funext fun n => propext illegalModulusOf_sbmix_iff
    rw [hcond]
    exact raisesExactly_sbmix hr h (by decide)
  all_goals exact raisesExactly_of_not_listed hr h (by simp [listedFaults]) (by decide) fun _ => id

/-- Settles O14: `exec_raisesExactly_illegalModulus` in the terms of the record. -/
theorem illegalModulusExactly : Obligations.IllegalModulusExactly := by
  intro i s t hr hdist h
  obtain ⟨hfsr, hrecord⟩ := (exec_raisesExactly_illegalModulus hr hdist h).record
  exact ⟨hfsr, fun n hn => (hrecord n hn).1⟩

/-! ## `LengthOverflow` -/

/-- Every command judges the length as R176 says; `PLD` after the range (R179). -/
theorem exec_raisesExactly_lengthOverflow {i : Instr} {s t : State} (hr : s.ready) (h : exec i s = .next t) :
    RaisesExactly .lengthOverflow (lengthOverflowOf i s) i s t := by
  cases i
  case pput =>
    exact raisesExactly_of_ite h (exec_of_ready hr rfl) (spares_done hr _ rfl) fun _ => Iff.rfl
  case pshu pd pa k =>
    refine raisesExactly_of_ite h (exec_of_ready hr rfl) (spares_done hr _ rfl) fun n => ?_
    rw [lengthOverflowOf, ← List.length_pos_iff]
    grind
  case pmul pd pa pb m =>
    refine raisesExactly_of_modulus_ite h (exec_of_ready hr rfl) (by decide) (fun _ => spares_done hr _ rfl) fun n => ?_
    rw [lengthOverflowOf, ← List.length_pos_iff, ← List.length_pos_iff]
    grind
  case pld pd bn addr =>
    refine .of_answers (p := inRange addr.toNat (s.readB bn).toNat = true ∧ 32 < (s.readB bn).toNat)
      (info := (s.readB bn).toNat) (fun n => ?_) ?_
    · rw [lengthOverflowOf, ← Bool.not_eq_false, inRange_eq_false]
      grind
    · obtain ⟨hout, rfl⟩ | ⟨hin, hlong, rfl⟩ | ⟨hin, hshort, rfl⟩ := execPld_cases hr h
      · exact .inr ⟨by simp [hout], faultStatus_injective.ne (by decide)⟩
      · exact .inl ⟨⟨hin, hlong⟩, rfl⟩
      · exact .inr ⟨fun hn => Nat.not_lt.mpr hshort hn.2, hr.fsr_ne _⟩
  all_goals exact raisesExactly_of_not_listed hr h (by simp [listedFaults]) (by decide) fun _ => id

/-- Settles O16: `exec_raisesExactly_lengthOverflow` in the terms of the record. -/
theorem lengthOverflowExactly : Obligations.LengthOverflowExactly := fun _ _ _ hr h =>
  (exec_raisesExactly_lengthOverflow hr h).record

end Sys2Proof.Machine
end

section
/-! The invariant of the reachable states (`10_state.md` R44): it holds after power-up, and every step keeps it. -/

namespace Sys2Proof.Machine

/-! ## Polynomial registers -/

/-- What a polynomial register may hold: a canonical sequence of at most 32 coefficients (R39). -/
def PolyOk (q : Poly) : Prop := canonical q = true ∧ q.length ≤ Config.pMax

/-- Every polynomial register holds what it may. -/
def PolysOk (s : State) : Prop := ∀ r, PolyOk (s.readP r)

theorem polyOk_nil : PolyOk [] := ⟨rfl, Nat.zero_le _⟩

theorem PolysOk.writeP {s : State} (h : PolysOk s) (pd : PReg) {q : Poly} (hq : PolyOk q) : PolysOk (s.writeP pd q) := by
  intro r
  by_cases hr : r = pd
  · subst hr
    rwa [State.readP_writeP_self]
  · rw [State.readP_writeP_of_ne s q hr]
    exact h r

theorem polyOk_padd {p q : Poly} (hp : PolyOk p) (hq : PolyOk q) : PolyOk (padd p q) :=
  ⟨canonical_padd p q, (length_padd_le p q).trans (max_le hp.2 hq.2)⟩

theorem polyOk_put {p : Poly} (hp : PolyOk p) {n : Nat} (hn : ¬ Config.pMax ≤ n) (v : Byte) :
    PolyOk (trim ((extendTo p (n + 1)).set n v)) :=
  ⟨canonical_trim _, (length_put_le p n v).trans (max_le hp.2 (by omega))⟩

theorem polyOk_load {n : Nat} (hn : ¬ Config.pMax < n) (m : Memory) (a : Nat) : PolyOk (trim (m.readBytes a n)) :=
  ⟨canonical_trim _, (length_trim_le _).trans (by rw [Memory.length_readBytes]; omega)⟩

theorem polyOk_pshu {p : Poly} (hp : PolyOk p) {n : Nat} (hn : ¬ (0 < p.length ∧ Config.pMax < p.length + n)) :
    PolyOk (pshu p n) := by
  refine ⟨canonical_pshu hp.1 n, ?_⟩
  by_cases h : p = []
  · simp [pshu, h]
  · have hpos := List.length_pos_iff.mpr h
    rw [length_pshu h]
    omega

theorem polyOk_pshd {p : Poly} (hp : PolyOk p) (n : Nat) : PolyOk (pshd p n) :=
  ⟨canonical_pshd hp.1 n, by rw [length_pshd]; exact (Nat.sub_le _ _).trans hp.2⟩

theorem polyOk_pmul {p q : Poly} (hp : PolyOk p) (hq : PolyOk q) (P : Modulus)
    (hn : ¬ (0 < p.length ∧ 0 < q.length ∧ Config.pMax < p.length + q.length - 1)) : PolyOk (pmul p q P) := by
  refine ⟨canonical_pmul p q P, (length_pmul_le p q P).trans ?_⟩
  have hp2 := hp.2
  have hq2 := hq.2
  omega

theorem polyOk_pscale {p : Poly} (hp : PolyOk p) (c : Byte) (P : Modulus) : PolyOk (pscale c p P) :=
  ⟨canonical_pscale c p P, (length_trim_le _).trans (by rw [List.length_map]; exact hp.2)⟩

theorem polyOk_pdivmod {P : Modulus} (hP : irreducible8 P = true) {p q : Poly} (hp : PolyOk p) (hq : PolyOk q) (hq0 : q ≠ []) :
    PolyOk (pdivmod p q P).1 ∧ PolyOk (pdivmod p q P).2 := by
  obtain ⟨hcan, hcan', hlen, -⟩ := pdivmod_spec hP hp.1 hq.1 hq0
  have hpos := List.length_pos_iff.mpr hq0
  have hp2 := hp.2
  have hquot := length_pdivmod_snd_le p q P
  exact ⟨⟨hcan, hlen.le.trans hq.2⟩, hcan', by omega⟩

theorem polyOk_pxeu {P : Modulus} (hP : irreducible8 P = true) {p q : Poly} (hp : PolyOk p) (hq : PolyOk q) (hq0 : q ≠ []) :
    PolyOk (pxeu p q P) := by
  obtain ⟨hcan, hlen⟩ := canonical_pxeu_and_length_lt hP hp.1 hq.1 hq0
  exact ⟨hcan, hlen.le.trans hq.2⟩

/-- In a ready unit under a legal table every command keeps the polynomial registers canonical and at most 32 long. -/
theorem exec_ensures_polysOk {s : State} (hr : s.ready) (hpoly : PolysOk s) (hlegal : modtabLegal s.modtab = true)
    (i : Instr) : Ensures PolysOk (exec i s) := by
  have hwrite (pd : PReg) {q : Poly} (hq : PolyOk q) : Ensures PolysOk (done (s.writeP pd q)) :=
    Ensures.done (hpoly.writeP pd hq)
  have hraise (x : Cause) (info : Nat) : Ensures PolysOk (raise i x info s) := Ensures.raise hpoly
  cases i
  case pclr pd => exact .of_ready hr rfl (hwrite pd polyOk_nil)
  case pmov pd pa => exact .of_ready hr rfl (hwrite pd (hpoly pa))
  case padd pd pa pb => exact .of_ready hr rfl (hwrite pd (polyOk_padd (hpoly pa) (hpoly pb)))
  case pshd pd pa n => exact .of_ready hr rfl (hwrite pd (polyOk_pshd (hpoly pa) _))
  case pput pd idx bs =>
    exact .of_ready hr rfl (.ite (fun _ => hraise _ _) fun hn => hwrite pd (polyOk_put (hpoly pd) hn _))
  case pld pd bn addr =>
    exact .of_ready hr rfl (.ite (fun _ => hraise _ _) fun _ =>
      .ite (fun _ => hraise _ _) fun hn => hwrite pd (polyOk_load hn _ _))
  case pshu pd pa n =>
    exact .of_ready hr rfl (.ite (fun _ => hraise _ _) fun hn => hwrite pd (polyOk_pshu (hpoly pa) hn))
  case pmul pd pa pb m =>
    exact .of_ready hr rfl (.withModulus (fun _ => hpoly) fun _ =>
      .ite (fun _ => hraise _ _) fun hn => hwrite pd (polyOk_pmul (hpoly pa) (hpoly pb) _ hn))
  case pmonic pd pa m =>
    exact .of_ready hr rfl (.withModulus (fun _ => hpoly) fun _ =>
      .ite (fun _ => hraise _ _) fun _ => hwrite pd (polyOk_pscale (hpoly pa) _ _))
  case pxeu pd pa pb m =>
    exact .of_ready hr rfl (.withModulus (fun _ => hpoly) fun hm => .ite (fun _ => hraise _ _) fun hne =>
      hwrite pd (polyOk_pxeu (irreducible8_of_modtabLegal hlegal hm) (hpoly pa) (hpoly pb) hne))
  case pdiv pr pq pa pb m =>
    refine .of_ready hr rfl (.ite (fun _ => hraise _ _) fun _ => .withModulus (fun _ => hpoly) fun hm =>
      .ite (fun _ => hraise _ _) fun hpb => .done ?_)
    obtain ⟨hrem, hquot⟩ := polyOk_pdivmod (irreducible8_of_modtabLegal hlegal hm) (hpoly pa) (hpoly pb) hpb
    exact (hpoly.writeP pr hrem).writeP pq hquot
  all_goals
    intro t h r
    rw [(onlyTheListedCommandsWrite _ s t h).2.1 rfl r]
    exact hpoly r

/-! ## Memory -/

/-- A command that is no writer of memory leaves the very same list of cells. -/
theorem exec_mem_of_not_writesMemory {i : Instr} {s t : State} (hw : writesMemory i = false) (h : exec i s = .next t) :
    t.mem = s.mem := by
  cases exec_cases h with
  | byteRegister bd v _ eq => exact eq ▸ rfl
  | polynomialRegister pd q _ eq => exact eq ▸ rfl
  | polynomialRegisters pr pq r q _ eq => exact eq ▸ rfl
  | memory a bs hw' _ => rw [hw] at hw'; cases hw'
  | tables ts hw' _ _ => rw [hw] at hw'; cases hw'
  | response d eq => exact eq ▸ rfl
  | fault x info _ _ eq => exact eq ▸ rfl

/-- The state's memory has the canonical form. -/
def MemOk (s : State) : Prop := s.mem.wf

/-- In a ready unit every command keeps the canonical form of memory. -/
theorem exec_ensures_memOk {s : State} (hr : s.ready) (hwf : MemOk s) (i : Instr) : Ensures MemOk (exec i s) := by
  have hwrite {a : Nat} {bs : List Byte} (hb : a + bs.length ≤ Config.memSize) : Ensures MemOk (done (s.writeM a bs)) :=
    .done (Memory.wf_writeBytes hwf hb)
  have htable {sd : Slot} {t : Table} (ht : t.length = 256) : Ensures MemOk (done (s.writeTable sd t)) :=
    hwrite (ht ▸ slotAddr_le sd)
  have htables {ts : List (Slot × Table)} (hl : ∀ x ∈ ts, x.2.length = 256) : MemOk ((s.writeTables ts).withResponse 0#32) :=
    writeTables_wf hwf hl
  have hraise (x : Cause) (info : Nat) : Ensures MemOk (raise i x info s) := .raise hwf
  cases i
  case mwr addr imm => exact .of_ready hr rfl (hwrite addr.isLt)
  case stb bs addr => exact .of_ready hr rfl (hwrite addr.isLt)
  case stbx bs addr bi =>
    exact .of_ready hr rfl (.ite (fun _ => hraise _ _) fun hlt => hwrite (Nat.lt_of_not_le hlt))
  case pst ps bn addr =>
    refine .of_ready hr rfl (.ite (fun _ => hraise _ _) fun hin => hwrite ?_)
    have haddr := addr.isLt
    rw [inRange_eq_false] at hin
    rw [length_image, Config.memSize]
    omega
  case sbid sd => exact .of_ready hr rfl (htable length_allBytes)
  case sbcomp sd sa sb => exact .of_ready hr rfl (htable (length_compose _ _))
  case sbinv sd ss => exact .of_ready hr rfl (.ite (fun _ => htable (length_permInv _)) fun _ => hraise _ _)
  case sbpre sd ss bm m =>
    exact .of_ready hr rfl (.withModulus (fun _ => hwf) fun _ =>
      .ite (fun _ => hraise _ _) fun _ => htable (length_premul _ _ _))
  case sbpost sd ss bm m =>
    exact .of_ready hr rfl (.withModulus (fun _ => hwf) fun _ => htable (length_postmul _ _ _))
  case sbinvs td ts dir =>
    intro t h
    obtain ⟨i, -, rfl⟩ | ⟨-, rfl⟩ := execSbinvs_cases hr h
    · exact hwf
    · exact htables (by simp [inverseTables])
  case sbmix td ts dir k r =>
    intro t h
    obtain ⟨-, -, rfl⟩ | ⟨-, x, n, -, rfl⟩ | ⟨-, -, rfl⟩ := execSbmix_cases hr h
    · exact hwf
    · exact hwf
    · exact htables (by simp)
  all_goals
    intro t h
    rw [MemOk, exec_mem_of_not_writesMemory rfl h]
    exact hwf

/-! ## The invariant -/

/-- The all-zero word is `NOP`, so a word that is anything else is not zero. -/
theorem decode_zero : decode 0#32 = .ok .nop := decode_encode (i := .nop) rfl

/-- The invariant carries over to a state whose registers, memory and table are good and whose record stays. -/
theorem State.Inv.of_completed {s t : State} (h : s.Inv) (hc : Completed s t) (hpoly : PolysOk t) (hmem : MemOk t) : t.Inv := by
  have hfaulted := hc.faulted_eq
  obtain ⟨⟨hfsr, hfcw, hfinfo⟩, ⟨hmodtab, -, -⟩, d, hrsp⟩ := hc
  refine ⟨hpoly, hfsr ▸ h.status, fun hf => ?_, fun hf => ?_, hmem, hmodtab ▸ h.moduli, fun r hr => ?_⟩
  · rw [hfcw, hfinfo]
    exact h.cleanRecord (hfaulted ▸ hf)
  · rw [hfcw]
    exact h.faultWord (hfaulted ▸ hf)
  · obtain rfl := Option.some.inj (hrsp.symm.trans hr)
    exact hfsr.symm

/-- Fault entry with a word that is not zero keeps the invariant. -/
theorem State.Inv.faultEntry {s : State} (h : s.Inv) {c : Word} (hc : c ≠ 0#32) (x : Cause) (info : Word) :
    (s.faultEntry c x info).Inv := by
  refine ⟨h.polys, .inr ⟨x, rfl⟩, fun hf => ?_, fun _ => hc, h.memory, h.moduli, fun r hr => ?_⟩
  · rw [State.faulted_faultEntry] at hf
    cases hf
  · obtain rfl := Option.some.inj hr
    rfl

/-- A reset state with good memory and a legal table meets the invariant. -/
theorem inv_of_reset {s : State} (hp : ∀ r, s.readP r = []) (hfsr : s.fsr = 0#8) (hfcw : s.fcw = 0#32) (hfinfo : s.finfo = 0#32)
    (hmem : s.mem.wf) (hlegal : modtabLegal s.modtab = true) (hrsp : s.rsp = none) : s.Inv := by
  have hf : s.faulted = false := by rw [State.faulted, hfsr]; rfl
  refine ⟨fun r => ?_, .inl hfsr, fun _ => ⟨hfcw, hfinfo⟩, fun hf' => ?_, hmem, hlegal, fun r hr => ?_⟩
  · rw [hp r]
    exact polyOk_nil
  · rw [hf] at hf'
    cases hf'
  · rw [hrsp] at hr
    cases hr

/-- A word keeps the invariant: a legal word that faults is not zero, because the zero word completes, and an illegal one is not
zero, because the zero word is legal. -/
theorem State.Inv.issue {s t : State} (h : s.Inv) {c : Word} (hstep : issue c s = .next t) : t.Inv := by
  cases hf : s.faulted with
  | true =>
    obtain ⟨d, hd⟩ := exists_issue_of_faulted hf c
    rw [hd] at hstep
    cases hstep
    exact h.of_completed (completed_withResponse s d) h.polys h.memory
  | false =>
    cases hdec : decode c with
    | ok i =>
      rw [issue_of_decode_ok hdec] at hstep
      rcases exec_completed_or_fault hstep with hc | ⟨-, x, info, rfl, hx⟩
      · exact h.of_completed hc (exec_ensures_polysOk hf h.polys h.moduli i t hstep)
          (exec_ensures_memOk hf h.memory i t hstep)
      · refine h.faultEntry ?_ x info
        rw [encode_of_decode hdec]
        rintro rfl
        obtain rfl := Except.ok.inj (decode_zero.symm.trans hdec)
        simp [listedFaults, Instr.distinctResults] at hx
    | error e =>
      have hc : c ≠ 0#32 := by
        rintro rfl
        rw [decode_zero] at hdec
        cases hdec
      rw [issue_of_decode_error hdec, whenReady_of_ready hf, enterFault_next] at hstep
      exact hstep ▸ h.faultEntry hc _ _

/-- Settles O51: each kind of event keeps the invariant. -/
theorem everyStepKeepsTheInvariant : Obligations.EveryStepKeepsTheInvariant := by
  intro s t h hstep
  have htaken (rest : List HostEvent) : State.Inv { s with host := rest } :=
    ⟨h.polys, h.status, h.cleanRecord, h.faultWord, h.memory, h.moduli, h.response⟩
  match hhost : s.host with
  | [] =>
    rw [step_idle hhost] at hstep
    cases hstep
    exact h
  | .command c :: rest =>
    rw [step_command hhost] at hstep
    exact (htaken rest).issue hstep
  | .reset :: rest =>
    rw [step_reset hhost] at hstep
    cases hstep
    exact inv_of_reset (State.readP_assertReset _) rfl rfl rfl h.memory h.moduli rfl
  | .resetDuring c :: rest =>
    rw [step_resetDuring hhost] at hstep
    cases hstep
    refine inv_of_reset (readP_resetCuttingShort c _) rfl rfl rfl ?_ h.moduli rfl
    rcases resetCuttingShort_mem c { s with host := rest } with ⟨-, hmem⟩ | ⟨a, n, hrange, hmem⟩
    · rw [hmem]
      exact h.memory
    · obtain ⟨i, -, hdest⟩ := exists_destRange_of_cutRange hrange
      rw [hmem]
      exact Memory.wf_writeBytes h.memory (by rw [length_freeBytes]; exact destRange_le hdest)

/-- The default table is legal (R86). -/
theorem modtabLegal_defaultModtab : modtabLegal Config.defaultModtab = true := by
  decide +kernel

theorem inv_powerUp {m0 : Memory} (h : m0.wf) : (State.powerUp m0).Inv :=
  inv_of_reset (fun r => by simp [State.powerUp, State.readP]) rfl rfl rfl h modtabLegal_defaultModtab rfl

/-- Settles O52: power-up is a reset state with the default table, and no listed cell is a canonical memory. -/
theorem powerUpHasTheInvariant : Obligations.PowerUpHasTheInvariant := ⟨inv_powerUp Memory.wf_reset, fun _ => inv_powerUp⟩

end Sys2Proof.Machine
end
